-- ==== Sys2Proof/Word.lean ====
section
/-! DEFINITION. The word types of the block (00_scope.md R5, R7, R8). -/

namespace Sys2Proof

/-- A byte: 8 bits, unsigned, bit 7 the most significant (R7); also the width `REG_BITS` of a
platform register (R5). -/
abbrev Byte := BitVec 8

/-- A frame word `F = f[0]*2^24 + f[1]*2^16 + f[2]*2^8 + f[3]`, bit 31 first on the wire (R8). -/
abbrev FrameWord := BitVec 32

/-- A byte address in the target's flash, the operand width of READ_BYTE (R82, decision D7). -/
abbrev FlashAddr := BitVec 16

end Sys2Proof
end

