-- ==== Sys2Proof/Syntax.lean ====
section
/-! DEFINITION. The instructions: the nine frame instructions (30_encoding.md R72) and the eleven
host operations (R82), the frames, and the requests the block is issued. -/

namespace Sys2Proof

/-- A command or response frame: four bytes, `b0` first on the wire (R8, R70). -/
structure Frame where
  b0 : Byte
  b1 : Byte
  b2 : Byte
  b3 : Byte
deriving DecidableEq, Repr

/-- One constructor per row of spec/opcode_table.json. The frame instructions carry the fields of
their format (R71); the host operations carry their operands (R82). -/
inductive Instr where
  /-- PROG_ENABLE, format K, R111. -/
  | progEnable
  /-- CHIP_ERASE, format K, R112. -/
  | chipErase
  /-- READ_SIG, format S, `idx` = `F[9:8]`, R113. -/
  | readSig (idx : BitVec 2)
  /-- POLL_BUSY, format K, R114. -/
  | pollBusy
  /-- LOAD_LO, format L with h = 0, `woff` = `F[11:8]`, `data` = `F[7:0]`, R116. -/
  | loadLo (woff : BitVec 4) (data : Byte)
  /-- LOAD_HI, format L with h = 1, R117. -/
  | loadHi (woff : BitVec 4) (data : Byte)
  /-- WRITE_PAGE, format P, `pidx[5:4]` = `F[17:16]`, `pidx[3:0]` = `F[15:12]`, R118. -/
  | writePage (pidx : BitVec 6)
  /-- READ_LO, format R with h = 0, `wa` = `F[22:8]`, R119. -/
  | readLo (wa : BitVec 15)
  /-- READ_HI, format R with h = 1, R120. -/
  | readHi (wa : BitVec 15)
  /-- SET_MOSI, R91. -/
  | setMosi (b : Bool)
  /-- SET_SCK, R92. -/
  | setSck (b : Bool)
  /-- SET_RST, R93. -/
  | setRst (b : Bool)
  /-- READ_MISO, R94. -/
  | readMiso
  /-- TRANSFER of N bytes, N ≥ 0, R102. -/
  | transfer (out : List Byte)
  /-- SYNC, R131. -/
  | sync
  /-- READ_SIGNATURE, any byte, intended 0..2, R132. -/
  | readSignature (index : Byte)
  /-- IS_BUSY, R133. -/
  | isBusy
  /-- ERASE, R135. -/
  | erase
  /-- PROGRAM_PAGE of exactly 32 bytes, R136; other lengths are refused at issue (R176(b)). -/
  | programPage (data : List Byte) (pageIndex : Byte)
  /-- READ_BYTE, a 16-bit byte address of either parity, R137. -/
  | readByte (address : FlashAddr)
deriving DecidableEq, Repr

/-- What stands in the block's issue port. -/
inductive Request where
  /-- A host operation: its select code `OPSEL` (R83) and its operands as bytes (log 5). -/
  | host (opsel : BitVec 4) (operands : List Byte)
  /-- A frame word handed to the formatter to be exchanged by itself. The host has no way to issue
  one (R142); with it each frame row of the table can be run alone (log 6). -/
  | frame (word : FrameWord)
deriving DecidableEq, Repr

end Sys2Proof
end

