-- ==== Sys2Proof/WellFormed.lean ====
section
/-! DEFINITION. Which instructions are operands of the table at all. -/

namespace Sys2Proof

/-- `PAGE_BYTES` (R5). -/
def pageBytes : Nat := 32

/-- The one shape the types leave open: "`data` of any length other than 32 is not an operand of
this operation and is refused at issue" (43_isp_operations.md R136, 60_exceptions.md R176(b)). -/
def Instr.wellFormed : Instr → Bool
  | .programPage data _ => data.length == pageBytes
  | .progEnable | .chipErase | .readSig _ | .pollBusy | .loadLo _ _ | .loadHi _ _
  | .writePage _ | .readLo _ | .readHi _ | .setMosi _ | .setSck _ | .setRst _ | .readMiso
  | .transfer _ | .sync | .readSignature _ | .isBusy | .erase | .readByte _ => true

end Sys2Proof
end

