-- ==== Sys2Proof/Decode.lean ====
section
/-! DEFINITION. The decoder of requests, total, and after it the encoder, both written from the
encoding tables of 30_encoding.md (R71, R72, R83). -/

namespace Sys2Proof

/-- Why a request decodes to nothing. -/
inductive DecodeError where
  /-- `OPSEL` 11..15 selects nothing (R83, R176(a)). -/
  | badOpsel (opsel : BitVec 4)
  /-- The operand bytes do not have the operation's shape (log 5). -/
  | operandShape (opsel : BitVec 4)
  /-- The word matches no row of R72 (R80). -/
  | undefinedFrame (word : FrameWord)
deriving DecidableEq, Repr

/-- One row of the table of R72: a word is the instruction iff `F & mask = match`. -/
structure FrameRow where
  mask : FrameWord
  value : FrameWord
  build : FrameWord → Instr

/-- Does the word match the row (R72)? -/
def FrameRow.matches (r : FrameRow) (F : FrameWord) : Bool := F &&& r.mask == r.value

/-- The nine rows of R72, in the table's order, with the fields of R71. -/
def frameRows : List FrameRow :=
  [ ⟨0xFFFFFFFF#32, 0xAC530000#32, fun _ => .progEnable⟩,
    ⟨0xFFFFFFFF#32, 0xAC800000#32, fun _ => .chipErase⟩,
    ⟨0xFFFFFCFF#32, 0x30000000#32, fun F => .readSig (F.extractLsb' 8 2)⟩,
    ⟨0xFFFFFFFF#32, 0xF0000000#32, fun _ => .pollBusy⟩,
    ⟨0xFFFFF000#32, 0x40000000#32, fun F => .loadLo (F.extractLsb' 8 4) (F.extractLsb' 0 8)⟩,
    ⟨0xFFFFF000#32, 0x48000000#32, fun F => .loadHi (F.extractLsb' 8 4) (F.extractLsb' 0 8)⟩,
    ⟨0xFFFC0FFF#32, 0x4C000000#32, fun F => .writePage (F.extractLsb' 12 6)⟩,
    ⟨0xFF8000FF#32, 0x20000000#32, fun F => .readLo (F.extractLsb' 8 15)⟩,
    ⟨0xFF8000FF#32, 0x28000000#32, fun F => .readHi (F.extractLsb' 8 15)⟩ ]

/-- The frame instruction a word is, if any (R72, R80). -/
def decodeFrame (F : FrameWord) : Except DecodeError Instr :=
  match frameRows.find? (fun r => r.matches F) with
  | some r => .ok (r.build F)
  | none => .error (.undefinedFrame F)

/-- A Boolean operand byte: 1 is true, 0 is false (R7), anything else is no Boolean (log 5). -/
def decodeBool (b : Byte) : Option Bool :=
  if b = 0#8 then some false else if b = 1#8 then some true else none

/-- A setter's operand: exactly one Boolean byte. -/
def decodeSet (opsel : BitVec 4) (operands : List Byte) (k : Bool → Instr) :
    Except DecodeError Instr :=
  match operands with
  | [b] => match decodeBool b with
    | some v => .ok (k v)
    | none => .error (.operandShape opsel)
  | _ => .error (.operandShape opsel)

/-- An operation without operands. -/
def decodePlain (opsel : BitVec 4) (operands : List Byte) (i : Instr) : Except DecodeError Instr :=
  match operands with
  | [] => .ok i
  | _ :: _ => .error (.operandShape opsel)

/-- READ_SIGNATURE's operand: one byte. -/
def decodeIndex (opsel : BitVec 4) (operands : List Byte) : Except DecodeError Instr :=
  match operands with
  | [index] => .ok (.readSignature index)
  | _ => .error (.operandShape opsel)

/-- PROGRAM_PAGE's operands: the data bytes, then the page index in the last byte. How many data
bytes there are is not the decoder's question (R176(b) is refused when the operation is issued). -/
def decodePage (opsel : BitVec 4) (operands : List Byte) : Except DecodeError Instr :=
  match operands.getLast? with
  | some page => .ok (.programPage operands.dropLast page)
  | none => .error (.operandShape opsel)

/-- READ_BYTE's operand: the address, high byte first (log 5). -/
def decodeAddress (opsel : BitVec 4) (operands : List Byte) : Except DecodeError Instr :=
  match operands with
  | [hi, lo] => .ok (.readByte (hi ++ lo))
  | _ => .error (.operandShape opsel)

/-- The operation a select code and its operand bytes are (R83). -/
def decodeHost (opsel : BitVec 4) (operands : List Byte) : Except DecodeError Instr :=
  match opsel.toNat with
  | 0 => decodeSet opsel operands .setMosi
  | 1 => decodeSet opsel operands .setSck
  | 2 => decodeSet opsel operands .setRst
  | 3 => decodePlain opsel operands .readMiso
  | 4 => .ok (.transfer operands)
  | 5 => decodePlain opsel operands .sync
  | 6 => decodeIndex opsel operands
  | 7 => decodePlain opsel operands .isBusy
  | 8 => decodePlain opsel operands .erase
  | 9 => decodePage opsel operands
  | 10 => decodeAddress opsel operands
  | _ => .error (.badOpsel opsel)

/-- The decoder: total, every request is an instruction or is rejected by name. -/
def decode : Request → Except DecodeError Instr
  | .host opsel operands => decodeHost opsel operands
  | .frame F => decodeFrame F

/-- A Boolean as an operand byte (R7). -/
def encodeBool (b : Bool) : Byte := if b then 1#8 else 0#8

/-- The words of an instruction: the patterns of R71 for the frames, `OPSEL` and operand bytes for
the host operations (R83, log 5). -/
def encode : Instr → Request
  | .progEnable => .frame (0xAC#8 ++ 0x53#8 ++ 0x00#8 ++ 0x00#8)
  | .chipErase => .frame (0xAC#8 ++ 0x80#8 ++ 0x00#8 ++ 0x00#8)
  | .readSig idx => .frame (0x30#8 ++ 0x00#8 ++ (0#6 ++ idx) ++ 0x00#8)
  | .pollBusy => .frame (0xF0#8 ++ 0x00#8 ++ 0x00#8 ++ 0x00#8)
  | .loadLo woff data => .frame (0x40#8 ++ 0x00#8 ++ (0#4 ++ woff) ++ data)
  | .loadHi woff data => .frame (0x48#8 ++ 0x00#8 ++ (0#4 ++ woff) ++ data)
  | .writePage pidx => .frame (0x4C#8 ++ 0#6 ++ pidx ++ 0#4 ++ 0x00#8)
  | .readLo wa => .frame (0x20#8 ++ 0#1 ++ wa ++ 0x00#8)
  | .readHi wa => .frame (0x28#8 ++ 0#1 ++ wa ++ 0x00#8)
  | .setMosi b => .host 0#4 [encodeBool b]
  | .setSck b => .host 1#4 [encodeBool b]
  | .setRst b => .host 2#4 [encodeBool b]
  | .readMiso => .host 3#4 []
  | .transfer out => .host 4#4 out
  | .sync => .host 5#4 []
  | .readSignature index => .host 6#4 [index]
  | .isBusy => .host 7#4 []
  | .erase => .host 8#4 []
  | .programPage data page => .host 9#4 (data ++ [page])
  | .readByte address => .host 10#4 [address.extractLsb' 8 8, address.extractLsb' 0 8]

/-- The number of operand bytes of an operation in a request whose operand words are zero (log 5);
TRANSFER, whose length is open, has none. -/
def operandBytes (opsel : Nat) : Nat :=
  match opsel with
  | 0 | 1 | 2 | 6 => 1
  | 9 => pageBytes + 1
  | 10 => 2
  | _ => 0

/-- The request of a row of spec/opcode_table.json: 32 bits are a frame word, up to 8 bits hold the
4-bit `OPSEL` of a host operation, whose operand bytes are zeros. -/
def tableRequest (nbits w : Nat) : Option Request :=
  if nbits = 32 then
    if w < 2 ^ 32 then some (.frame (BitVec.ofNat 32 w)) else none
  else if nbits ≤ 8 then
    if w < 16 then some (.host (BitVec.ofNat 4 w) (List.replicate (operandBytes w) 0#8)) else none
  else none

/-- The instruction the decoder reads from a table row's word. -/
def decodeTableWord (nbits w : Nat) : Option Instr :=
  match tableRequest nbits w with
  | some r => match decode r with
    | .ok i => some i
    | .error _ => none
  | none => none

end Sys2Proof
end

