-- ==== Sys2Proof/Config.lean ====
section
/-! DEFINITION. What an implementation fixes (00_scope.md R6), and the free values. -/

namespace Sys2Proof

/-- Bit positions of the four lines (R6): MOSI, SCK, RST in the data register, pairwise distinct
(R97), MISO in the status register. The default values are the illustration PX (decision D24); they
are there only to show that the type is inhabited, and no definition of the machine uses them. -/
structure Pins where
  mosi : Fin 8 := 0
  sck : Fin 8 := 1
  rst : Fin 8 := 2
  miso : Fin 8 := 7
  mosi_ne_sck : mosi ≠ sck := by decide
  mosi_ne_rst : mosi ≠ rst := by decide
  sck_ne_rst : sck ≠ rst := by decide
deriving DecidableEq, Repr, Inhabited

/-- The open parameters (R6) in an admissible assignment. `pollLimit = none` is `unbounded`, the
default and the source's behaviour (decision D9). -/
structure Config extends Pins where
  /-- `DATA_ADDR`; the source gives no value and no width (log 19). -/
  dataAddr : Nat
  /-- `POLL_LIMIT`: a natural number, or `none` for `unbounded`. -/
  pollLimit : Option Nat := none
deriving DecidableEq, Repr

/-- `STATUS_ADDR` = `DATA_ADDR` + 1 (R6, R50, decision D3). -/
def Config.statusAddr (c : Config) : Nat := c.dataAddr + 1

/-- The parameters as a host may try to give them, before any check. -/
structure RawConfig where
  mosiBit : Nat
  sckBit : Nat
  rstBit : Nat
  misoBit : Nat
  dataAddr : Nat
  pollLimit : Option Nat := none
deriving DecidableEq, Repr

/-- The check of a configuration (R97, R176(c)): one in which two of `MOSI_BIT`, `SCK_BIT`,
`RST_BIT` coincide, or any bit parameter is outside 0..7, is refused. -/
def Config.check (r : RawConfig) : Option Config :=
  if h : r.mosiBit < 8 ∧ r.sckBit < 8 ∧ r.rstBit < 8 ∧ r.misoBit < 8 ∧
      r.mosiBit ≠ r.sckBit ∧ r.mosiBit ≠ r.rstBit ∧ r.sckBit ≠ r.rstBit then
    some
      { mosi := ⟨r.mosiBit, h.1⟩, sck := ⟨r.sckBit, h.2.1⟩, rst := ⟨r.rstBit, h.2.2.1⟩,
        miso := ⟨r.misoBit, h.2.2.2.1⟩,
        mosi_ne_sck := fun e => h.2.2.2.2.1 (congrArg Fin.val e),
        mosi_ne_rst := fun e => h.2.2.2.2.2.1 (congrArg Fin.val e),
        sck_ne_rst := fun e => h.2.2.2.2.2.2 (congrArg Fin.val e),
        dataAddr := r.dataAddr, pollLimit := r.pollLimit }
  else none

/-- The platform's bit assignment: nothing in the source fixes it (decision D2), so it has no body
(log 1). -/
opaque Config.platformPins : Pins

/-- The platform's `DATA_ADDR`, not in the source (decision D3), so it has no body (log 1). -/
opaque Config.platformDataAddr : Nat

/-- The configuration of State.reset: the platform's open parameters and `POLL_LIMIT` at its
default `unbounded` (R6). -/
def Config.platform : Config :=
  { toPins := Config.platformPins, dataAddr := Config.platformDataAddr, pollLimit := none }

/-- `PORT_RESET`, an arbitrary 8-bit value (R42, R43, decision D8): no body (log 1). -/
opaque Config.portReset : Byte

/-- FREE VALUE: the answer to the `n`-th status read for which no answer stands in
`Driver.answers` (R22, R52, U5, U6: any value): no body (log 3). -/
opaque Config.freeStatus : Nat → Byte

end Sys2Proof
end

