-- ==== Sys2Proof/Machine/State.lean ====
section
/-! DEFINITION. The state of the block (10_state.md), layer by layer, the reset state, and the
reasons a step can stop. Every field is plain data. -/

namespace Sys2Proof.Machine

open Sys2Proof

/-- What the block has written to the platform's I/O space, as (address, byte) pairs with the
addresses strictly rising (log 8). An address that is not listed holds no value of the block's. -/
abbrev Memory := List Host.Cell

/-- The canonical form: addresses strictly rising. An unlisted address reads as no value, so no
entry can equal it. -/
abbrev Memory.wf (m : Memory) : Prop := m.Pairwise (fun x y => x.1 < y.1)

/-- One event of the trace (00_scope.md R9, R11; decision D18). -/
inductive Event where
  /-- `MemWrite(addr, 1, v)`. -/
  | write (addr : Nat) (v : Byte)
  /-- `MemRead(addr, 1)` answered with `v`. -/
  | read (addr : Nat) (v : Byte)
  /-- `Wait(t_ms)`. -/
  | wait (ms : Nat)
deriving DecidableEq, Repr

/-- PHASE (R30): the record of the last SYNC. -/
inductive Phase where
  | unsynchronized
  | synchronized
  | syncFailed
deriving DecidableEq, Repr

/-- RESULT (R32): what an operation hands back, by its type; the two errors of the block are
results too (R161, R162). -/
inductive Result where
  /-- The operation hands back no value. -/
  | none
  | bool (b : Bool)
  | success
  /-- SynchronizationFailure's result (R161). -/
  | failure
  | byte (b : Byte)
  | bytes (bs : List Byte)
  /-- The error PollTimeout (R162). -/
  | pollTimeout
deriving DecidableEq, Repr

/-- SEQ at the boundary of a step (R36, decision D19, log 4). The position named inside the busy-poll
spin is the one a run may stay at for ever (R134, R140). -/
inductive Seq where
  | idle
  /-- ERASE runs: its next position is the first event of its next poll. -/
  | erasePolling
  /-- PROGRAM_PAGE runs: its next position is the first event of its next poll. -/
  | pagePolling
deriving DecidableEq, Repr

/-- Layer 1, the Signal Driver, with the platform as it sees it. -/
structure Driver where
  /-- PORT (R20, R21). -/
  port : Byte
  /-- MISO_L (R31(c)). -/
  misoL : Bool
  /-- The platform I/O space as far as the block wrote it (R50, R53). -/
  io : Memory
  /-- The trace: a ghost record, never read (R37). -/
  trace : List Event
  /-- The environment's answers to the coming status reads (R22, R52). -/
  answers : List Byte
  /-- How many status reads found no answer in `answers` (log 3). -/
  freeReads : Nat
deriving DecidableEq, Repr

/-- Layer 2, the SPI Transfer Engine. -/
structure Shifter extends Driver where
  /-- TXSR (R23). -/
  txsr : Byte
  /-- RXSR (R24). -/
  rxsr : Byte
  /-- BITCNT, 0..8 (R25). -/
  bitcnt : Nat
  /-- BYTEIDX (R25). -/
  byteidx : Nat
deriving DecidableEq, Repr

/-- The whole block: layer 3, the ISP Protocol Engine and its sequencer, over the layers below. -/
structure State extends Shifter where
  /-- CMD[0..3] (R26). -/
  cmd : Frame
  /-- RSP[0..3] (R26). -/
  rsp : Frame
  /-- PAGE[0..31] (R27). -/
  page : List Byte
  /-- SIGIDX (R28). -/
  sigidx : Byte
  /-- PAGEIDX (R28). -/
  pageidx : Byte
  /-- ADDR (R28). -/
  addr : FlashAddr
  /-- LVL (R28). -/
  lvl : Bool
  /-- ATTEMPT, 0..3 (R29). -/
  attempt : Nat
  /-- LOADIDX, 0..32 (R29). -/
  loadidx : Nat
  /-- POLLCNT, kept only when `POLL_LIMIT` is finite (R29, R171). -/
  pollcnt : Nat
  /-- PHASE (R30). -/
  phase : Phase
  /-- BUSYF (R31(b)). -/
  busyf : Bool
  /-- RESULT (R32). -/
  result : Result
  /-- What every completed operation handed back, in order (R141, log 10). -/
  results : List Result
  /-- SEQ (R36). -/
  seq : Seq
  /-- The parameters of the session, or none where the configuration given was refused (R6, R97,
  R142, R176(c)). No step writes it. -/
  cfg : Option Config
  /-- The operations the host issues, in order (R141, R142). -/
  requests : List Request
deriving DecidableEq, Repr

/-- Why the block could not go on. -/
inductive Fault where
  /-- Raised by the step when the formatter's word matches no row of the table, and by the mock target
  when the block's output does not: "a fault of the model (the block emitted a frame the spec does not
  define), never as a no-op" (R80). Safe: no operation of the block composes such a word (log 22). -/
  | undefinedFrame (word : FrameWord)
deriving DecidableEq, Repr

/-- Why a request is given no meaning. -/
inductive Refusal where
  /-- Raised by exec's arm of an instruction that has no meaning yet. Safe. -/
  | notModelled (mnemonic : String)
  /-- Raised by the step: `OPSEL` 11..15 (R176(a)). Safe: the spec refuses it. -/
  | badOpsel (opsel : BitVec 4)
  /-- Raised by the step: the operand bytes do not have the operation's shape in the model's
  request format (log 5). Safe: no operation of the spec has that shape. -/
  | operandShape (opsel : BitVec 4)
  /-- Raised by PROGRAM_PAGE: `data` is not exactly 32 bytes (R176(b)). Safe: the spec refuses it. -/
  | pageLength (n : Nat)
  /-- Raised by every instruction and by the poll: the configuration was refused (R176(c)). Safe:
  the spec refuses it. -/
  | badConfiguration
  /-- Raised by every host operation: one is issued while another is running (R176(d)). Safe: the
  spec refuses it. -/
  | operationRunning
deriving DecidableEq, Repr

/-- The start of a session with the given configuration and value of the port register (R42, R180).
The registers the spec leaves unspecified hold zero (log 2). -/
def State.boot (cfg : Option Config) (port : Byte) : State :=
  { port := port, misoL := false, io := [], trace := [], answers := [], freeReads := 0,
    txsr := 0#8, rxsr := 0#8, bitcnt := 0, byteidx := 0,
    cmd := ⟨0#8, 0#8, 0#8, 0#8⟩, rsp := ⟨0#8, 0#8, 0#8, 0#8⟩,
    page := List.replicate pageBytes 0#8,
    sigidx := 0#8, pageidx := 0#8, addr := 0#16, lvl := false,
    attempt := 0, loadidx := 0, pollcnt := 0,
    phase := .unsynchronized, busyf := false, result := .none, results := [],
    seq := .idle, cfg := cfg, requests := [] }

/-- The machine right after reset: PHASE Unsynchronized, SEQ Idle, PORT the arbitrary `PORT_RESET`,
no event (R42, R180). -/
def State.reset : State := State.boot (some Config.platform) Config.portReset

end Sys2Proof.Machine
end

