-- ==== Sys2Proof/Machine/Flags.lean ====
section
/-! DEFINITION. Every flag and test bit the spec computes (10_state.md R31; there are no arithmetic
condition codes). -/

namespace Sys2Proof.Machine

open Sys2Proof

/-- The logical level of MISO in a status byte: bit `MISO_BIT`, inverted (R22, R94). The seven other
bits have no effect. -/
def misoLevel (c : Config) (status : Byte) : Bool := !(status.getLsbD c.miso.val)

/-- BUSYF of a response: bit 0 of `RSP[3]`; bits 7:1 are ignored (R78, R114). -/
def busyOf (rsp : Frame) : Bool := rsp.b3.getLsbD 0

/-- `SYNC_ECHO` (R5). -/
def syncEcho : Byte := 0x53#8

/-- The echo test of PROG_ENABLE: the whole byte `RSP[2]` equals `SYNC_ECHO` (R78, R111). -/
def echoOk (rsp : Frame) : Bool := rsp.b2 == syncEcho

/-- SYNC_OK = (PHASE = Synchronized) (R31(a)). -/
def State.syncOk (s : State) : Bool := s.phase == .synchronized

/-- The value byte of READ_SIG, READ_LO and READ_HI: all 8 bits of `RSP[3]` (R78). -/
def valueOf (rsp : Frame) : Byte := rsp.b3

end Sys2Proof.Machine
end

