-- ==== Sys2Proof/Machine/Operands.lean ====
section
/-! DEFINITION. Field assembly: what bytes each frame instruction puts in CMD, for every value of its
operand (30_encoding.md R72 to R77, 42_isp_frames.md R111 to R120), and the address arithmetic of
20_memory.md R54. -/

namespace Sys2Proof.Machine

open Sys2Proof

/-- The bytes of a frame in transmission order, `f[0]` first (R8, R58). -/
def Frame.toList (f : Frame) : List Byte := [f.b0, f.b1, f.b2, f.b3]

/-- Four received bytes as a response frame (R26); a transfer of four bytes returns four (R102). -/
def Frame.ofList (l : List Byte) : Frame :=
  ⟨l.getD 0 0#8, l.getD 1 0#8, l.getD 2 0#8, l.getD 3 0#8⟩

/-- The frame word `F` (R8, decision D21). -/
def Frame.word (f : Frame) : FrameWord := f.b0 ++ f.b1 ++ f.b2 ++ f.b3

/-- PROG_ENABLE (R111). -/
def fmtProgEnable : Frame := ⟨0xAC#8, 0x53#8, 0x00#8, 0x00#8⟩

/-- CHIP_ERASE (R112). -/
def fmtChipErase : Frame := ⟨0xAC#8, 0x80#8, 0x00#8, 0x00#8⟩

/-- READ_SIG: any byte is accepted and masked to its low 2 bits (R74, R113). -/
def fmtReadSig (index : Byte) : Frame := ⟨0x30#8, 0x00#8, index &&& 0x03#8, 0x00#8⟩

/-- POLL_BUSY (R114). -/
def fmtPollBusy : Frame := ⟨0xF0#8, 0x00#8, 0x00#8, 0x00#8⟩

/-- LOAD_LO of byte index `i`, even (R75, R116); `f[1]` is `0x00` by decision D6. -/
def fmtLoadLo (i d : Byte) : Frame := ⟨0x40#8, 0x00#8, i >>> 1, d⟩

/-- LOAD_HI of byte index `i`, odd (R75, R117). -/
def fmtLoadHi (i d : Byte) : Frame := ⟨0x48#8, 0x00#8, i >>> 1, d⟩

/-- WRITE_PAGE: `page_index[5:0]` split over `f[1]` and `f[2]`, bits 7:6 dropped (R76, R118). -/
def fmtWritePage (page : Byte) : Frame :=
  ⟨0x4C#8, (page >>> 4) &&& 0x03#8, (page <<< 4) &&& 0xF0#8, 0x00#8⟩

/-- `word_address(A) = A >> 1` (R54). -/
def wordAddress (a : FlashAddr) : FlashAddr := a >>> 1

/-- `byte_in_word(A) = A & 1` (R54): true is the high byte. -/
def byteInWord (a : FlashAddr) : Bool := a.getLsbD 0

/-- `page_index(A) = A >> 5` (R54). -/
def pageIndex (a : FlashAddr) : FlashAddr := a >>> 5

/-- `word_offset(A) = (A >> 1) & 0x0F` (R54). -/
def wordOffset (a : FlashAddr) : FlashAddr := (a >>> 1) &&& 0x0F#16

/-- `byte_index(A) = A & 0x1F` (R54). -/
def byteIndex (a : FlashAddr) : FlashAddr := a &&& 0x1F#16

/-- The high part of a word address, `(wa >> 8) & 0xFF` (R77). -/
def highPart (wa : FlashAddr) : Byte := ((wa >>> 8) &&& 0xFF#16).setWidth 8

/-- The low part of a word address, `wa & 0xFF` (R77). -/
def lowPart (wa : FlashAddr) : Byte := (wa &&& 0xFF#16).setWidth 8

/-- READ_LO of an even byte address (R77, R119). -/
def fmtReadLo (a : FlashAddr) : Frame :=
  ⟨0x20#8, highPart (wordAddress a), lowPart (wordAddress a), 0x00#8⟩

/-- READ_HI of an odd byte address (R77, R120). -/
def fmtReadHi (a : FlashAddr) : Frame :=
  ⟨0x28#8, highPart (wordAddress a), lowPart (wordAddress a), 0x00#8⟩

/-- The byte index a LOAD_LO with word offset `woff` stands for: `i` even with `i >> 1 = woff`. -/
def evenIndex (woff : BitVec 4) : Byte := (0#3 ++ woff) ++ 0#1

/-- The byte index a LOAD_HI with word offset `woff` stands for: `i` odd with `i >> 1 = woff`. -/
def oddIndex (woff : BitVec 4) : Byte := (0#3 ++ woff) ++ 1#1

/-- The byte address a READ_LO of word `wa` reads. -/
def evenAddress (wa : BitVec 15) : FlashAddr := wa ++ 0#1

/-- The byte address a READ_HI of word `wa` reads. -/
def oddAddress (wa : BitVec 15) : FlashAddr := wa ++ 1#1

end Sys2Proof.Machine
end

