-- ==== Sys2Proof/Machine/Ops.lean ====
section
/-! DEFINITION. The named operations over the state: the platform's two primitives and `Wait`, the
read-modify-write of PORT, how an operation is issued, how it completes, and how it ends in an error
(the block's only exceptions, 60_exceptions.md R160 to R169). -/

namespace Sys2Proof.Machine

open Sys2Proof

/-- The byte listed at an address, if any. -/
def Memory.read : Memory → Nat → Option Byte
  | [], _ => none
  | (b, w) :: m, a => if a = b then some w else Memory.read m a

/-- Write one byte, keeping the canonical form. -/
def Memory.write : Memory → Nat → Byte → Memory
  | [], a, v => [(a, v)]
  | (b, w) :: m, a, v =>
    if a < b then (a, v) :: (b, w) :: m
    else if a = b then (a, v) :: m
    else (b, w) :: Memory.write m a v

/-- `MemWrite(addr, 1, v)` (R9, R50, R51): one event; the platform register takes the byte. -/
def Driver.memWrite (addr : Nat) (v : Byte) (d : Driver) : Driver :=
  { d with io := d.io.write addr v, trace := d.trace ++ [.write addr v] }

/-- The environment's answer to the `n`-th coming status read: the listed answers, then free values
(R22, R52, U6, log 3). -/
def Driver.answer (d : Driver) (n : Nat) : Byte :=
  match d.answers[n]? with
  | some a => a
  | none => Config.freeStatus (d.freeReads + (n - d.answers.length))

/-- One answer used up. -/
def Driver.useAnswer (d : Driver) : Driver :=
  match d.answers with
  | [] => { d with freeReads := d.freeReads + 1 }
  | _ :: rest => { d with answers := rest }

/-- `MemRead(addr, 1)` (R9, R50, R51): one event, answered by the environment. -/
def Driver.memRead (addr : Nat) (d : Driver) : Byte × Driver :=
  (d.answer 0, { d.useAnswer with trace := d.trace ++ [.read addr (d.answer 0)] })

/-- `Wait(t_ms)` (R190): one event, no platform access, no duration (log 17). -/
def Driver.wait (ms : Nat) (d : Driver) : Driver :=
  { d with trace := d.trace ++ [.wait ms] }

/-- The modify half of the read-modify-write (R90): `(old & ~(1 << pos)) | (b << pos)`. -/
def withBit (pos : Fin 8) (b : Bool) (old : Byte) : Byte :=
  (old &&& ~~~(1#8 <<< pos.val)) ||| ((BitVec.ofBool b).setWidth 8 <<< pos.val)

/-- `SetBit(pos, b)` (R90): the read half reads the block's own PORT (decision D1); exactly one
event, whether or not the byte changes. -/
def Driver.setBit (c : Config) (pos : Fin 8) (b : Bool) (d : Driver) : Driver :=
  Driver.memWrite c.dataAddr (withBit pos b d.port) { d with port := withBit pos b d.port }

/-- SET_MOSI's mechanism (R91). -/
def Driver.setMosi (c : Config) (b : Bool) (d : Driver) : Driver := d.setBit c c.mosi b

/-- SET_SCK's mechanism (R92). -/
def Driver.setSck (c : Config) (b : Bool) (d : Driver) : Driver := d.setBit c c.sck b

/-- SET_RST's mechanism (R93): true asserts (decision D5). -/
def Driver.setRst (c : Config) (b : Bool) (d : Driver) : Driver := d.setBit c c.rst b

/-- READ_MISO's mechanism (R94): one status read, the inverted bit, `MISO_L`. -/
def Driver.readMiso (c : Config) (d : Driver) : Bool × Driver :=
  let r := d.memRead c.statusAddr
  let m := misoLevel c r.1
  (m, { r.2 with misoL := m })

/-! The latches, counters and flags of layer 3, each written by one operation (10_state.md R26 to
R31, R36). -/

/-- LVL <- b (R28). -/
def State.setLvl (b : Bool) (s : State) : State := { s with lvl := b }

/-- SIGIDX <- index (R28). -/
def State.setSigidx (index : Byte) (s : State) : State := { s with sigidx := index }

/-- ADDR <- a (R28). -/
def State.setAddr (a : FlashAddr) (s : State) : State := { s with addr := a }

/-- PAGE <- data, PAGEIDX <- page (R27, R28, R136). -/
def State.setPage (data : List Byte) (page : Byte) (s : State) : State :=
  { s with page := data, pageidx := page }

/-- ATTEMPT <- n (R29). -/
def State.setAttempt (n : Nat) (s : State) : State := { s with attempt := n }

/-- LOADIDX <- n (R29). -/
def State.setLoadidx (n : Nat) (s : State) : State := { s with loadidx := n }

/-- POLLCNT <- n (R29). -/
def State.setPollcnt (n : Nat) (s : State) : State := { s with pollcnt := n }

/-- BUSYF <- b (R31(b)). -/
def State.setBusyf (b : Bool) (s : State) : State := { s with busyf := b }

/-- PHASE <- p (R30). -/
def State.setPhase (p : Phase) (s : State) : State := { s with phase := p }

/-- SEQ <- q (R36). -/
def State.setSeq (q : Seq) (s : State) : State := { s with seq := q }

/-- The next request has been taken: `rest` are left. -/
def State.setRequests (rest : List Request) (s : State) : State := { s with requests := rest }

/-- A Signal Driver action, seen from the whole block. -/
def State.onDriver (f : Driver → Driver) (s : State) : State :=
  { s with toShifter := { s.toShifter with toDriver := f s.toDriver } }

/-- An operation completes without a value (R32): SEQ returns to Idle (R36). -/
def State.finish (s : State) : State :=
  { s with seq := .idle, results := s.results ++ [.none] }

/-- An operation completes and hands `r` back to the host (R32, R40). -/
def State.handBack (r : Result) (s : State) : State :=
  { s with seq := .idle, result := r, results := s.results ++ [r] }

/-- The errors the block can raise (R160). -/
inductive OpError where
  /-- R161. -/
  | synchronizationFailure
  /-- R162, only with a finite `POLL_LIMIT`. -/
  | pollTimeout
deriving DecidableEq, Repr

/-- `raise <Error>` (R9, R161, R162, R168): the one error entry. The operation ends, the error is its
result, SEQ returns to Idle; SynchronizationFailure also records `PHASE` <- SyncFailed. Nothing is
saved, no vector is taken, and there is no return from it (R168, R169). -/
def State.raise (e : OpError) (s : State) : State :=
  match e with
  | .synchronizationFailure => (s.setPhase .syncFailed).handBack .failure
  | .pollTimeout => s.handBack .pollTimeout

/-- A host operation is issued (R130): refused with a bad configuration (R176(c)) and while another
operation runs (R176(d)), else it has its effect. -/
def State.issue (s : State) (f : Config → State → State) : Host.Outcome State Fault Refusal :=
  match s.cfg with
  | none => .refused .badConfiguration
  | some c => if s.seq = .idle then .next (f c s) else .refused .operationRunning

/-- The formatter exchanges one frame: the sequencer does so inside its operations too, so SEQ is not
asked (R110); refused with a bad configuration (R176(c)). -/
def State.emit (s : State) (f : Config → State → State) : Host.Outcome State Fault Refusal :=
  match s.cfg with
  | none => .refused .badConfiguration
  | some c => .next (f c s)

end Sys2Proof.Machine
end

