-- ==== Sys2Proof/Machine/Shift.lean ====
section
/-! DEFINITION. The SPI Transfer Engine (41_spi_transfer.md R100 to R102). It reaches the pins only
through the Signal Driver's operations. -/

namespace Sys2Proof.Machine

open Sys2Proof

/-- A Signal Driver action, seen from the shifter. -/
def Shifter.onDriver (f : Driver → Driver) (s : Shifter) : Shifter :=
  { s with toDriver := f s.toDriver }

/-- SHIFT_BIT (a): sample MISO, shift RXSR left and put the new bit in bit 0 (R100). -/
def Shifter.sample (c : Config) (s : Shifter) : Shifter :=
  let r := s.toDriver.readMiso c
  { s with toDriver := r.2, rxsr := (s.rxsr <<< 1) ||| (BitVec.ofBool r.1).setWidth 8 }

/-- SHIFT_BIT (b): drive MOSI to the high bit of TXSR, then shift TXSR left (R100). -/
def Shifter.drive (c : Config) (s : Shifter) : Shifter :=
  { s.onDriver (·.setMosi c (s.txsr.getLsbD 7)) with txsr := s.txsr <<< 1 }

/-- SHIFT_BIT (c): pulse SCK high, then low (R100). -/
def Shifter.pulse (c : Config) (s : Shifter) : Shifter :=
  s.onDriver fun d => (d.setSck c true).setSck c false

/-- SHIFT_BIT (R100): (a), (b), (c) in this order, four events. -/
def shiftBit (c : Config) (s : Shifter) : Shifter :=
  let t := ((s.sample c).drive c).pulse c
  { t with bitcnt := t.bitcnt + 1 }

/-- `n` SHIFT_BITs. -/
def shiftBits (c : Config) : Nat → Shifter → Shifter
  | 0, s => s
  | n + 1, s => shiftBits c n (shiftBit c s)

/-- SHIFT_BYTE (R101): the byte received is RXSR of the state after. -/
def shiftByte (c : Config) (b : Byte) (s : Shifter) : Shifter :=
  shiftBits c 8 { s with txsr := b, bitcnt := 0 }

/-- TRANSFER from byte position `j` on (R102): the bytes received, and the shifter after. -/
def transferFrom (c : Config) : Nat → List Byte → Shifter → List Byte × Shifter
  | _, [], s => ([], s)
  | j, b :: out, s =>
    let t := shiftByte c b { s with byteidx := j }
    let r := transferFrom c (j + 1) out t
    (t.rxsr :: r.1, r.2)

/-- TRANSFER of a byte sequence (R102). -/
def transfer (c : Config) (out : List Byte) (s : Shifter) : List Byte × Shifter :=
  transferFrom c 0 out s

/-- TRANSFER as the host issues it (R102): N bytes out, N bytes back. -/
def execTransfer (out : List Byte) (s : State) : Host.Outcome State Fault Refusal :=
  s.issue fun c s =>
    let r := transfer c out s.toShifter
    { s with toShifter := r.2 }.handBack (.bytes r.1)

end Sys2Proof.Machine
end

