-- ==== Sys2Proof/Machine/Frames.lean ====
section
/-! DEFINITION. EXCHANGE and the nine frame instructions (42_isp_frames.md R110 to R120). The
operations of the sequencer call the functions on State; an `exec…` runs one frame by itself. -/

namespace Sys2Proof.Machine

open Sys2Proof

/-- EXCHANGE (R110): fill CMD, transfer its four bytes, the received bytes land in RSP. -/
def exchange (c : Config) (f : Frame) (s : State) : State :=
  let r := transfer c (Frame.toList f) s.toShifter
  { s with toShifter := r.2, cmd := f, rsp := Frame.ofList r.1 }

/-- PROG_ENABLE (R111): the echo is `RSP[2]` of the state after. -/
def progEnable (c : Config) (s : State) : State := exchange c fmtProgEnable s

/-- CHIP_ERASE (R112). -/
def chipErase (c : Config) (s : State) : State := exchange c fmtChipErase s

/-- READ_SIG (R113): the value is `RSP[3]` of the state after. -/
def readSig (c : Config) (index : Byte) (s : State) : State := exchange c (fmtReadSig index) s

/-- POLL_BUSY (R114): `BUSYF` <- `RSP[3][0]`. -/
def pollBusy (c : Config) (s : State) : State :=
  let t := exchange c fmtPollBusy s
  t.setBusyf (busyOf t.rsp)

/-- LOAD_LO (R116). -/
def loadLo (c : Config) (i d : Byte) (s : State) : State := exchange c (fmtLoadLo i d) s

/-- LOAD_HI (R117). -/
def loadHi (c : Config) (i d : Byte) (s : State) : State := exchange c (fmtLoadHi i d) s

/-- WRITE_PAGE (R118). -/
def writePage (c : Config) (page : Byte) (s : State) : State := exchange c (fmtWritePage page) s

/-- READ_LO (R119): the value is `RSP[3]` of the state after. -/
def readLo (c : Config) (a : FlashAddr) (s : State) : State := exchange c (fmtReadLo a) s

/-- READ_HI (R120): the value is `RSP[3]` of the state after. -/
def readHi (c : Config) (a : FlashAddr) (s : State) : State := exchange c (fmtReadHi a) s

/-- PROG_ENABLE by itself (R111). -/
def execProgEnable (s : State) : Host.Outcome State Fault Refusal := s.emit progEnable

/-- CHIP_ERASE by itself (R112). -/
def execChipErase (s : State) : Host.Outcome State Fault Refusal := s.emit chipErase

/-- READ_SIG by itself (R113), for the operand `index & 3` its field holds. -/
def execReadSig (idx : BitVec 2) (s : State) : Host.Outcome State Fault Refusal :=
  s.emit fun c s => readSig c (0#6 ++ idx) s

/-- POLL_BUSY by itself (R114). -/
def execPollBusy (s : State) : Host.Outcome State Fault Refusal := s.emit pollBusy

/-- LOAD_LO by itself (R116), for the even byte index its field holds. -/
def execLoadLo (woff : BitVec 4) (data : Byte) (s : State) : Host.Outcome State Fault Refusal :=
  s.emit fun c s => loadLo c (evenIndex woff) data s

/-- LOAD_HI by itself (R117), for the odd byte index its field holds. -/
def execLoadHi (woff : BitVec 4) (data : Byte) (s : State) : Host.Outcome State Fault Refusal :=
  s.emit fun c s => loadHi c (oddIndex woff) data s

/-- WRITE_PAGE by itself (R118), for the page index its field holds. -/
def execWritePage (pidx : BitVec 6) (s : State) : Host.Outcome State Fault Refusal :=
  s.emit fun c s => writePage c (0#2 ++ pidx) s

/-- READ_LO by itself (R119), for the even byte address its field holds. -/
def execReadLo (wa : BitVec 15) (s : State) : Host.Outcome State Fault Refusal :=
  s.emit fun c s => readLo c (evenAddress wa) s

/-- READ_HI by itself (R120), for the odd byte address its field holds. -/
def execReadHi (wa : BitVec 15) (s : State) : Host.Outcome State Fault Refusal :=
  s.emit fun c s => readHi c (oddAddress wa) s

end Sys2Proof.Machine
end

