-- ==== Sys2Proof/Machine/Isp.lean ====
section
/-! DEFINITION. The ISP operations (43_isp_operations.md R131 to R137). An operation runs within the
step that issues it, up to its completion or to the first poll that answers busy; from there each
step makes one more poll (R134, R140, log 4). -/

namespace Sys2Proof.Machine

open Sys2Proof

/-- `SYNC_ATTEMPTS` (R5). -/
def syncAttempts : Nat := 3

/-- The minimum waits of one attempt (R5, R131, R185). -/
def sckLowMs : Nat := 1
/-- `T_RST_PULSE_MS` (R5). -/
def rstPulseMs : Nat := 1
/-- `T_RST_SETTLE_MS` (R5). -/
def rstSettleMs : Nat := 50

/-- The part of an attempt before its frame (R131): SCK low, wait, assert reset, wait, release reset,
wait. -/
def resetPulse (c : Config) (d : Driver) : Driver :=
  (((((d.setSck c false).wait sckLowMs).setRst c true).wait rstPulseMs).setRst c false).wait
    rstSettleMs

/-- One synchronization attempt (R131); ATTEMPT counts the attempts completed (R29, log 9). -/
def syncAttempt (c : Config) (s : State) : State :=
  let t := progEnable c (s.onDriver (resetPulse c))
  t.setAttempt (t.attempt + 1)

/-- The attempts left of SYNC (R131): success ends it at once, after the last failed attempt
SynchronizationFailure is raised. -/
def syncLoop (c : Config) : Nat → State → State
  | 0, s => s.raise .synchronizationFailure
  | n + 1, s =>
    let t := syncAttempt c s
    if echoOk t.rsp then (t.setPhase .synchronized).handBack .success
    else syncLoop c n t

/-- SYNC (R131). -/
def execSync (s : State) : Host.Outcome State Fault Refusal :=
  s.issue fun c s => syncLoop c syncAttempts (s.setAttempt 0)

/-- READ_SIGNATURE (R132). -/
def execReadSignature (index : Byte) (s : State) : Host.Outcome State Fault Refusal :=
  s.issue fun c s =>
    let t := readSig c index (s.setSigidx index)
    t.handBack (.byte (valueOf t.rsp))

/-- IS_BUSY (R133): one poll. -/
def execIsBusy (s : State) : Host.Outcome State Fault Refusal :=
  s.issue fun c s =>
    let t := pollBusy c s
    t.handBack (.bool t.busyf)

/-- POLLCNT counts the poll just made, when `POLL_LIMIT` is finite (R29, R134, R171, log 9). -/
def countPoll (c : Config) (s : State) : State :=
  match c.pollLimit with
  | none => s
  | some _ => s.setPollcnt (s.pollcnt + 1)

/-- `POLL_LIMIT is finite and POLLCNT >= POLL_LIMIT` (R134). -/
def pollLimitReached (c : Config) (s : State) : Bool :=
  match c.pollLimit with
  | none => false
  | some n => decide (n ≤ s.pollcnt)

/-- One turn of WAIT_READY (R134): one poll; not busy ends the operation, and this test comes before
the limit test (R167); a busy answer at the limit raises PollTimeout; else the next turn follows. -/
def pollTurn (c : Config) (waiting : Seq) (s : State) : State :=
  let t := countPoll c (pollBusy c s)
  if t.busyf then
    if pollLimitReached c t then t.raise .pollTimeout else t.setSeq waiting
  else t.finish

/-- WAIT_READY from its start (R134): POLLCNT <- 0, then the first turn. At least one poll is made. -/
def waitReady (c : Config) (waiting : Seq) (s : State) : State :=
  pollTurn c waiting (s.setPollcnt 0)

/-- ERASE (R135). -/
def execErase (s : State) : Host.Outcome State Fault Refusal :=
  s.issue fun c s => waitReady c .erasePolling (chipErase c s)

/-- The load of page byte `i` (R136): LOAD_LO for even `i`, LOAD_HI for odd; LOADIDX is the number of
bytes already loaded (R29). -/
def loadByte (c : Config) (i : Nat) (s : State) : State :=
  let s := s.setLoadidx i
  let d := s.page.getD i 0#8
  let t := if i % 2 = 0 then loadLo c (BitVec.ofNat 8 i) d s else loadHi c (BitVec.ofNat 8 i) d s
  t.setLoadidx (i + 1)

/-- The 32 loads, in ascending order, with no poll between them (R136). -/
def loadPage (c : Config) (s : State) : State :=
  (List.range pageBytes).foldl (fun s i => loadByte c i s) s

/-- PROGRAM_PAGE once its data is known to be a page (R136). -/
def programPage (c : Config) (data : List Byte) (page : Byte) (s : State) : State :=
  let s := loadPage c (s.setPage data page)
  waitReady c .pagePolling (writePage c s.pageidx s)

/-- PROGRAM_PAGE (R136): data that is not exactly 32 bytes is refused at issue (R176(b)). -/
def execProgramPage (data : List Byte) (page : Byte) (s : State) :
    Host.Outcome State Fault Refusal :=
  if data.length = pageBytes then s.issue fun c s => programPage c data page s
  else .refused (.pageLength data.length)

/-- READ_BYTE (R137): either parity; the low address bit selects READ_LO or READ_HI. -/
def execReadByte (address : FlashAddr) (s : State) : Host.Outcome State Fault Refusal :=
  s.issue fun c s =>
    let s := s.setAddr address
    let t := if byteInWord address then readHi c address s else readLo c address s
    t.handBack (.byte (valueOf t.rsp))

/-- What a step does while the block is inside the busy-poll spin (R134). -/
def resumePoll (s : State) : Host.Outcome State Fault Refusal :=
  s.emit fun c s => pollTurn c s.seq s

end Sys2Proof.Machine
end

