-- ==== Sys2Proof/Machine/Signal.lean ====
section
/-! DEFINITION. The host operations of the Signal Driver (40_signal_driver.md R91 to R94). The operand
of a setter is captured in LVL when it is issued (10_state.md R28). -/

namespace Sys2Proof.Machine

open Sys2Proof

/-- SET_MOSI (R91). -/
def execSetMosi (b : Bool) (s : State) : Host.Outcome State Fault Refusal :=
  s.issue fun c s => ((s.setLvl b).onDriver (·.setMosi c b)).finish

/-- SET_SCK (R92). -/
def execSetSck (b : Bool) (s : State) : Host.Outcome State Fault Refusal :=
  s.issue fun c s => ((s.setLvl b).onDriver (·.setSck c b)).finish

/-- SET_RST (R93). -/
def execSetRst (b : Bool) (s : State) : Host.Outcome State Fault Refusal :=
  s.issue fun c s => ((s.setLvl b).onDriver (·.setRst c b)).finish

/-- READ_MISO (R94): hands back the logical level. -/
def execReadMiso (s : State) : Host.Outcome State Fault Refusal :=
  s.issue fun c s =>
    (s.onDriver fun d => (d.readMiso c).2).handBack (.bool (s.toDriver.readMiso c).1)

end Sys2Proof.Machine
end

