-- ==== Sys2Proof/Machine/Dispatch.lean ====
section
/-! DEFINITION. One arm per instruction, each a direct call of its meaning. -/

namespace Sys2Proof.Machine

open Sys2Proof

def exec (i : Instr) (s : State) : Host.Outcome State Fault Refusal :=
  match i with
  | .progEnable => Sys2Proof.Machine.execProgEnable s
  | .chipErase => Sys2Proof.Machine.execChipErase s
  | .readSig idx => Sys2Proof.Machine.execReadSig idx s
  | .pollBusy => Sys2Proof.Machine.execPollBusy s
  | .loadLo woff data => Sys2Proof.Machine.execLoadLo woff data s
  | .loadHi woff data => Sys2Proof.Machine.execLoadHi woff data s
  | .writePage pidx => Sys2Proof.Machine.execWritePage pidx s
  | .readLo wa => Sys2Proof.Machine.execReadLo wa s
  | .readHi wa => Sys2Proof.Machine.execReadHi wa s
  | .setMosi b => Sys2Proof.Machine.execSetMosi b s
  | .setSck b => Sys2Proof.Machine.execSetSck b s
  | .setRst b => Sys2Proof.Machine.execSetRst b s
  | .readMiso => Sys2Proof.Machine.execReadMiso s
  | .transfer out => Sys2Proof.Machine.execTransfer out s
  | .sync => Sys2Proof.Machine.execSync s
  | .readSignature index => Sys2Proof.Machine.execReadSignature index s
  | .isBusy => Sys2Proof.Machine.execIsBusy s
  | .erase => Sys2Proof.Machine.execErase s
  | .programPage data page => Sys2Proof.Machine.execProgramPage data page s
  | .readByte address => Sys2Proof.Machine.execReadByte address s

end Sys2Proof.Machine
end

