-- ==== Sys2Proof/Machine/Issue.lean ====
section
/-! DEFINITION. What a step does when the block is idle: it takes the next request (10_state.md R36,
R42; 43_isp_operations.md R130, R141), and how a rejected one stops it (60_exceptions.md R176,
30_encoding.md R80). -/

namespace Sys2Proof.Machine

open Sys2Proof

/-- A request that is no instruction: R176(a), a shape of the model's own request format (log 5), or
a word no row of R72 matches (R80). -/
def rejected (e : DecodeError) : Host.Outcome State Fault Refusal :=
  match e with
  | .badOpsel opsel => .refused (.badOpsel opsel)
  | .operandShape opsel => .refused (.operandShape opsel)
  | .undefinedFrame word => .fault (.undefinedFrame word)

/-- The next request leaves the queue and runs; with none the block waits for the host (R42, R180,
log 7). DESIGN CHOICE (safe, log 20): the spec gives no order where a request that is no instruction
meets a session whose configuration was refused; the request is decoded first, so it is named
`badOpsel`, `operandShape` or `undefinedFrame` there, and not `badConfiguration`. -/
def takeRequest (s : State) : Host.Outcome State Fault Refusal :=
  match s.requests with
  | [] => .next s
  | r :: rest =>
    match decode r with
    | .ok i => exec i (s.setRequests rest)
    | .error e => rejected e

/-- The request of a table row put at the head of an idle block's queue. -/
def place (s : State) (nbits w : Nat) : State :=
  match tableRequest nbits w with
  | some r => (s.setSeq .idle).setRequests (r :: s.requests)
  | none => s

end Sys2Proof.Machine
end

