-- ==== Sys2Proof/Machine/Step.lean ====
section
/-! DEFINITION. One step of the block. -/

namespace Sys2Proof.Machine

open Sys2Proof

/-- One step: inside the busy-poll spin one more poll (R134); else the host's next request. -/
def step (s : State) : Host.Outcome State Fault Refusal :=
  match s.seq with
  | .idle => takeRequest s
  | .erasePolling => resumePoll s
  | .pagePolling => resumePoll s

/-- `s` with a table row's instruction as the next request the step takes (log 6). -/
def State.withFetchWord (s : State) (nbits w : Nat) : State := place s nbits w

end Sys2Proof.Machine
end

