-- ==== Sys2Proof/Machine/Interrupt.lean ====
section
/-! DEFINITION. The state a session restarts with when the platform stops an operation from outside,
and what its host may issue then (70_reset_and_hazards.md R188, 93_implementation_defined.md U1,
decision D15). This is no step of the block (R142): the block has no abort input. -/

namespace Sys2Proof.Machine

open Sys2Proof

/-- The last byte a list of events writes, or `p` if it writes none: what PORT holds after them. -/
def lastWritten (p : Byte) : List Event → Byte
  | [] => p
  | .write _ v :: es => lastWritten v es
  | .read _ _ :: es => lastWritten p es
  | .wait _ :: es => lastWritten p es

/-- What the platform's I/O space holds after a list of events. -/
def ioAfter (m : Memory) : List Event → Memory
  | [] => m
  | .write a v :: es => ioAfter (m.write a v) es
  | .read _ _ :: es => ioAfter m es
  | .wait _ :: es => ioAfter m es

/-- The number of status reads among the events. -/
def countReads : List Event → Nat
  | [] => 0
  | .read _ _ :: es => countReads es + 1
  | .write _ _ :: es => countReads es
  | .wait _ :: es => countReads es

/-- The events a run from `s` to `t` made, when the trace of `t` extends that of `s`. -/
def newEvents (s t : State) : List Event := t.trace.drop s.trace.length

/-- The operation that led from `s` to `t` was stopped after the first `k` of its events: "the session
as restarted with PORT holding the value after some prefix of the interrupted operation's writes",
"PHASE = Unsynchronized" (R188). `k` is any number. DESIGN CHOICE (log 12): what the restarted
session keeps of the model's own records is not in the spec; the trace goes on, the record of results
starts anew, and the requests still pending are dropped, for the host has to issue again. -/
def State.interrupted (s t : State) (k : Nat) : State :=
  let evs := (newEvents s t).take k
  { State.boot s.cfg (lastWritten s.port evs) with
    io := ioAfter s.io evs
    trace := s.trace ++ evs
    answers := s.answers.drop (countReads evs)
    freeReads := s.freeReads + (countReads evs - s.answers.length) }

/-- After an outside stop "the only permitted next operation" is SYNC (R188, U1, decision D15). -/
def permittedAfterStop : Instr → Bool
  | .sync => true
  | .progEnable | .chipErase | .readSig _ | .pollBusy | .loadLo _ _ | .loadHi _ _ | .writePage _
  | .readLo _ | .readHi _ | .setMosi _ | .setSck _ | .setRst _ | .readMiso | .transfer _
  | .readSignature _ | .isBusy | .erase | .programPage _ _ | .readByte _ => false

/-- May the host go on with these requests after an outside stop: none yet, or first a SYNC (R188,
decision D15)? DEDUCED (log 21): a duty of the host, as in R139; the block itself refuses nothing, because R176 lists no such refusal and no operation is gated (decision D11). -/
def restartPermitted : List Request → Bool
  | [] => true
  | r :: _ =>
    match decode r with
    | .ok i => permittedAfterStop i
    | .error _ => false

/-- The stopped session, restarted, with the requests its host issues next. -/
def State.restarted (s t : State) (k : Nat) (requests : List Request) : State :=
  (s.interrupted t k).setRequests requests

end Sys2Proof.Machine
end

