-- ==== Sys2Proof/Machine/Target.lean ====
section
/-! DEFINITION. A mock target that decodes the frames the block sends (30_encoding.md R80; 20_memory.md
R54 to R56, R64; log 23). It is the environment's, and no step of the block uses it. -/

namespace Sys2Proof.Machine

open Sys2Proof

/-- A simulated flash device, as the source's properties use one (R54, R64): its flash and its page
load buffer, by byte index. DESIGN CHOICE (unsafe, log 23): the flash has no bound, also beyond address
2047, and there is neither a busy time nor an enable. -/
structure Target.Device where
  flash : Nat → Byte
  buffer : Nat → Byte

/-- What the device does with a frame instruction, and the byte it answers in `r[3]` where it is a READ
(R54 to R56, R64); a host operation is no frame. DESIGN CHOICE (unsafe, log 23), where the source is
silent (91_not_in_source.md N12): it takes every frame at once, whether or not it was enabled and as if
it were never busy; a commit copies the whole buffer to its page, erased or not, loaded in full or not;
the buffer keeps its bytes; an erased byte is `0xFF`; a READ is answered beyond address 2047 too; and it
gives PROG_ENABLE, READ_SIG and POLL_BUSY no answer of its own. -/
def Target.Device.perform (t : Target.Device) : Instr → Option (Target.Device × Option Byte)
  | .loadLo woff data =>
    some ({ t with buffer := fun k => if k = 2 * woff.toNat then data else t.buffer k }, none)
  | .loadHi woff data =>
    some ({ t with buffer := fun k => if k = 2 * woff.toNat + 1 then data else t.buffer k }, none)
  | .writePage pidx =>
    some ({ t with flash := fun a =>
      if a / pageBytes = pidx.toNat then t.buffer (a % pageBytes) else t.flash a }, none)
  | .chipErase => some ({ t with flash := fun _ => 0xFF#8 }, none)
  | .readLo wa => some (t, some (t.flash (2 * wa.toNat)))
  | .readHi wa => some (t, some (t.flash (2 * wa.toNat + 1)))
  | .progEnable | .readSig _ | .pollBusy => some (t, none)
  | .setMosi _ | .setSck _ | .setRst _ | .readMiso | .transfer _ | .sync | .readSignature _
  | .isBusy | .erase | .programPage _ _ | .readByte _ => none

/-- What the device does with four bytes from the block: it decodes them by the table of R72, and "treats
a word matching no row as a fault of the model (the block emitted a frame the spec does not define), never
as a no-op" (R80). -/
def Target.Device.accept (t : Target.Device) (f : Frame) :
    Except Fault (Target.Device × Option Byte) :=
  match decodeFrame (Frame.word f) with
  | .error _ => .error (.undefinedFrame (Frame.word f))
  | .ok i =>
    match t.perform i with
    | none => .error (.undefinedFrame (Frame.word f))
    | some r => .ok r

/-- The device after a list of frames, the first fault ending it. -/
def Target.Device.acceptAll : List Frame → Target.Device → Except Fault Target.Device
  | [], t => .ok t
  | f :: fs, t =>
    match t.accept f with
    | .error e => .error e
    | .ok r => Target.Device.acceptAll fs r.1

end Sys2Proof.Machine
end

