-- ==== Sys2Proof/Safety.lean ====
section
/-! DEFINITION. The terms claims are stated in: what the environment's answers spell, the events and
the state a transfer leaves in closed form, what the target sees on the wire, the safe-run predicates,
the named premises about the target (20_memory.md R61 to R64) and the host's reference workflow. -/

namespace Sys2Proof.Machine

open Sys2Proof

/-! ## What MISO spells -/

/-- The logical MISO of the `n`-th coming status read (R94). -/
def sampleAt (c : Config) (d : Driver) (n : Nat) : Bool := misoLevel c (d.answer n)

/-- The byte whose bits, most significant first, are `m 0`, …, `m 7`: `result[7-k] = m_k` (R101). -/
def byteOfBits (m : Nat → Bool) : Byte :=
  BitVec.ofBoolListBE [m 0, m 1, m 2, m 3, m 4, m 5, m 6, m 7]

/-- The `j`-th byte MISO spells from the coming status read on (R101, R102). -/
def receivedByte (c : Config) (d : Driver) (j : Nat) : Byte :=
  byteOfBits fun k => sampleAt c d (8 * j + k)

/-- The first `n` bytes MISO spells. -/
def received (c : Config) (d : Driver) (n : Nat) : List Byte := (List.range n).map (receivedByte c d)

/-- The response frame a 4-byte exchange that starts now receives. -/
def responseFrame (c : Config) (d : Driver) : Frame :=
  ⟨receivedByte c d 0, receivedByte c d 1, receivedByte c d 2, receivedByte c d 3⟩

/-! ## A transfer in closed form -/

/-- The bits of a byte, most significant first (R58). -/
def bitsOf (b : Byte) : List Bool :=
  [b.getLsbD 7, b.getLsbD 6, b.getLsbD 5, b.getLsbD 4,
   b.getLsbD 3, b.getLsbD 2, b.getLsbD 1, b.getLsbD 0]

/-- The bits of a byte sequence in wire order (R58). -/
def bitStream (bs : List Byte) : List Bool := bs.flatMap bitsOf

/-- PORT after one bit `b` has been driven and clocked (R100). -/
def afterBit (c : Config) (p : Byte) (b : Bool) : Byte :=
  withBit c.sck false (withBit c.mosi b p)

/-- The four events of one bit from PORT `p`, the status read answered with `a` (R100). -/
def bitEvents (c : Config) (p : Byte) (b : Bool) (a : Byte) : List Event :=
  [ .read c.statusAddr a,
    .write c.dataAddr (withBit c.mosi b p),
    .write c.dataAddr (withBit c.sck true (withBit c.mosi b p)),
    .write c.dataAddr (afterBit c p b) ]

/-- The events of a bit stream from PORT `p`, its `n`-th status read answered with `ans n` (R100,
R102: no event between bits, bytes or frames). -/
def streamEvents (c : Config) (ans : Nat → Byte) : List Bool → Byte → List Event
  | [], _ => []
  | b :: bs, p =>
    bitEvents c p b (ans 0) ++ streamEvents c (fun n => ans (n + 1)) bs (afterBit c p b)

/-- PORT after a bit stream: SCK low and MOSI the last bit (R104(d)); untouched by an empty one. -/
def streamPort (c : Config) (bits : List Bool) (p : Byte) : Byte :=
  match bits.getLast? with
  | none => p
  | some b => afterBit c p b

/-- The Signal Driver after a bit stream. -/
def Driver.afterStream (c : Config) (bits : List Bool) (d : Driver) : Driver :=
  if bits = [] then d
  else
    { port := streamPort c bits d.port
      misoL := sampleAt c d (bits.length - 1)
      io := d.io.write c.dataAddr (streamPort c bits d.port)
      trace := d.trace ++ streamEvents c d.answer bits d.port
      answers := d.answers.drop bits.length
      freeReads := d.freeReads + (bits.length - d.answers.length) }

/-- The shifter after a transfer: TXSR shifted out, RXSR the last byte received (R101, R102). -/
def Shifter.afterTransfer (c : Config) (out : List Byte) (s : Shifter) : Shifter :=
  if out = [] then s
  else
    { toDriver := s.toDriver.afterStream c (bitStream out)
      txsr := 0#8
      rxsr := receivedByte c s.toDriver (out.length - 1)
      bitcnt := 8
      byteidx := out.length - 1 }

/-- The block after EXCHANGE of the frame `f` (R110), everything else as it was. -/
def State.afterExchange (c : Config) (f : Frame) (s : State) : State :=
  { s with
    toShifter := s.toShifter.afterTransfer c (Frame.toList f)
    cmd := f
    rsp := responseFrame c s.toDriver }

/-- The POLL_BUSY frame (R133). -/
def pollFrame : Frame := ⟨0xF0#8, 0x00#8, 0x00#8, 0x00#8⟩

/-- The Programming Enable frame (R131). -/
def enableFrame : Frame := ⟨0xAC#8, 0x53#8, 0x00#8, 0x00#8⟩

/-- The block after the POLL_BUSY frame: EXCHANGE and BUSYF (R114). -/
def State.afterPoll (c : Config) (s : State) : State :=
  (s.afterExchange c pollFrame).setBusyf
    ((receivedByte c s.toDriver 3).getLsbD 0)

/-- The block's Signal Driver after one output write of `v` (R51, R90). -/
def Driver.afterWrite (c : Config) (v : Byte) (d : Driver) : Driver :=
  { d with
    port := v
    io := d.io.write c.dataAddr v
    trace := d.trace ++ [.write c.dataAddr v] }

/-! ## The frames of the operations -/

/-- The frame of the load of page byte `i` (R136). -/
def loadFrame (data : List Byte) (i : Nat) : Frame :=
  ⟨if i % 2 = 0 then 0x40#8 else 0x48#8, 0x00#8, BitVec.ofNat 8 (i / 2), data.getD i 0#8⟩

/-- The commit frame of a page index (R136). -/
def commitFrame (page : Byte) : Frame :=
  ⟨0x4C#8, (page >>> 4) &&& 0x03#8, (page <<< 4) &&& 0xF0#8, 0x00#8⟩

/-- The 33 frames of PROGRAM_PAGE before its polls (R136). -/
def pageFrames (data : List Byte) (page : Byte) : List Frame :=
  (List.range pageBytes).map (loadFrame data) ++ [commitFrame page]

/-- The bytes of a list of frames in wire order. -/
def frameBytes (fs : List Frame) : List Byte := fs.flatMap Frame.toList

/-- The events of a list of frames sent without anything between them, from the Signal Driver `d`. -/
def frameEvents (c : Config) (fs : List Frame) (d : Driver) : List Event :=
  streamEvents c d.answer (bitStream (frameBytes fs)) d.port

/-- The six events before the frame of one SYNC attempt (R131), from PORT `p`. -/
def pulseEvents (c : Config) (p : Byte) : List Event :=
  [ .write c.dataAddr (withBit c.sck false p), .wait 1,
    .write c.dataAddr (withBit c.rst true (withBit c.sck false p)), .wait 1,
    .write c.dataAddr (withBit c.rst false (withBit c.sck false p)), .wait 50 ]

/-- PORT after the reset pulse: SCK low, reset released (R131). -/
def afterPulse (c : Config) (p : Byte) : Byte := withBit c.rst false (withBit c.sck false p)

/-- The Signal Driver after the reset pulse (R131). -/
def Driver.afterReset (c : Config) (d : Driver) : Driver :=
  { d with
    port := afterPulse c d.port
    io := d.io.write c.dataAddr (afterPulse c d.port)
    trace := d.trace ++ pulseEvents c d.port }

/-- The block after one SYNC attempt (R131): the reset pulse, the Programming Enable frame, and one
attempt more completed. -/
def State.afterAttempt (c : Config) (s : State) : State :=
  ((s.onDriver (·.afterReset c)).afterExchange c enableFrame).setAttempt
    (s.attempt + 1)

/-- The block after `n` SYNC attempts. -/
def State.afterAttempts (c : Config) : Nat → State → State
  | 0, s => s
  | n + 1, s => State.afterAttempts c n (s.afterAttempt c)

/-- Does attempt number `k` (from 0) of a SYNC that starts now receive the echo `0x53` (R131)? -/
def echoesAt (c : Config) (d : Driver) (k : Nat) : Bool := receivedByte c d (4 * k + 2) == 0x53#8

/-! ## What the target sees on the wire -/

/-- The MOSI levels at the rising edges of SCK (R11) among the events, from PORT `p`: what a target
that samples at each rising edge receives (R61). -/
def mosiAtRises (c : Config) : Byte → List Event → List Bool
  | _, [] => []
  | p, .write _ v :: es =>
    if !p.getLsbD c.sck && v.getLsbD c.sck then v.getLsbD c.mosi :: mosiAtRises c v es
    else mosiAtRises c v es
  | p, .read _ _ :: es => mosiAtRises c p es
  | p, .wait _ :: es => mosiAtRises c p es

/-- The number of falling edges of SCK among the events, from PORT `p`. -/
def fallingEdges (c : Config) : Byte → List Event → Nat
  | _, [] => 0
  | p, .write _ v :: es =>
    (if p.getLsbD c.sck && !v.getLsbD c.sck then 1 else 0) + fallingEdges c v es
  | p, .read _ _ :: es => fallingEdges c p es
  | p, .wait _ :: es => fallingEdges c p es

/-- The edges of SCK among the events, in order, from PORT `p`: true is a rising edge, false a falling
one (R92). -/
def sckEdges (c : Config) : Byte → List Event → List Bool
  | _, [] => []
  | p, .write _ v :: es =>
    if p.getLsbD c.sck == v.getLsbD c.sck then sckEdges c v es
    else v.getLsbD c.sck :: sckEdges c v es
  | p, .read _ _ :: es => sckEdges c p es
  | p, .wait _ :: es => sckEdges c p es

/-- Data before clock (R182): no write that leaves SCK high, or that changes it, changes MOSI. -/
def dataBeforeClock (c : Config) : Byte → List Event → Bool
  | _, [] => true
  | p, .write _ v :: es =>
    ((!p.getLsbD c.sck && !v.getLsbD c.sck) || p.getLsbD c.mosi == v.getLsbD c.mosi)
      && dataBeforeClock c v es
  | p, .read _ _ :: es => dataBeforeClock c p es
  | p, .wait _ :: es => dataBeforeClock c p es

/-- The environment is a wire from MOSI to MISO through the input's inversion (R105): every status
read is answered with the MOSI level at the time of the read. -/
def loopedBack (c : Config) : Byte → List Event → Bool
  | _, [] => true
  | p, .read _ a :: es => (misoLevel c a == p.getLsbD c.mosi) && loopedBack c p es
  | _, .write _ v :: es => loopedBack c v es
  | p, .wait _ :: es => loopedBack c p es

/-- The bytes received through a loopback (R105): each shifted right by one bit, the bit before it
shifted in at the top. -/
def delayed : Bool → List Byte → List Byte
  | _, [] => []
  | prev, b :: bs =>
    ((b >>> 1) ||| ((BitVec.ofBool prev).setWidth 8 <<< 7)) :: delayed (b.getLsbD 0) bs

/-- The number of port writes among the events. -/
def countWrites : List Event → Nat
  | [] => 0
  | .write _ _ :: es => countWrites es + 1
  | .read _ _ :: es => countWrites es
  | .wait _ :: es => countWrites es

/-! ## Safe states and safe events -/

/-- Is `i` one of the five bits of PORT that no operation names (R21)? -/
def unusedBit (c : Config) (i : Nat) : Bool :=
  decide (i < 8) && i != c.mosi.val && i != c.sck.val && i != c.rst.val

/-- Two bytes agree on the five unused bits of PORT. -/
def sameUnused (c : Config) (x y : Byte) : Prop :=
  ∀ i, unusedBit c i = true → x.getLsbD i = y.getLsbD i

/-- An event the block may make (R52, R53): a write to DATA_ADDR whose unused bits are those of
`p`, a read of STATUS_ADDR, or a wait. -/
def Event.allowed (c : Config) (p : Byte) : Event → Prop
  | .write a v => a = c.dataAddr ∧ sameUnused c v p
  | .read a _ => a = c.statusAddr
  | .wait _ => True

/-- The invariant of the block: the I/O space is canonical, and where the block has written DATA_ADDR
it holds PORT (R20); PAGE is 32 bytes (R27); the counters are in their ranges (R25, R29). -/
structure State.Inv (s : State) : Prop where
  io_wf : s.io.wf
  io_port : ∀ c, s.cfg = some c → s.io.read c.dataAddr = none ∨ s.io.read c.dataAddr = some s.port
  page_len : s.page.length = pageBytes
  bitcnt_le : s.bitcnt ≤ 8
  attempt_le : s.attempt ≤ syncAttempts
  loadidx_le : s.loadidx ≤ pageBytes

/-- The block is idle with an accepted configuration: an operation may be issued (R130, R176). -/
def State.ready (s : State) (c : Config) : Prop := s.cfg = some c ∧ s.seq = .idle

/-- The block is inside the busy-poll spin (R134). -/
def State.polling (s : State) (c : Config) : Prop := s.cfg = some c ∧ s.seq ≠ .idle

/-- Two states that differ at most in the ghost record (R37). -/
def State.withTrace (s : State) (tr : List Event) : State :=
  s.onDriver fun d => { d with trace := tr }

/-- The eleven host operations (R82), as against the nine frame instructions (R72). -/
def isOperation : Instr → Bool
  | .setMosi _ | .setSck _ | .setRst _ | .readMiso | .transfer _ | .sync | .readSignature _
  | .isBusy | .erase | .programPage _ _ | .readByte _ => true
  | .progEnable | .chipErase | .readSig _ | .pollBusy | .loadLo _ _ | .loadHi _ _ | .writePage _
  | .readLo _ | .readHi _ => false

/-- Instructions run one after the other, stopping at the first that is refused or faults. -/
def execAll : List Instr → State → Host.Outcome State Fault Refusal
  | [], s => .next s
  | i :: is, s =>
    match exec i s with
    | .next t => execAll is t
    | .fault r => .fault r
    | .refused r => .refused r

/-- The three outputs (R2, R21). -/
inductive Pin where
  | mosi
  | sck
  | rst
deriving DecidableEq, Repr

/-- The bit of PORT an output has (R21). -/
def Pin.bit (c : Config) : Pin → Fin 8
  | .mosi => c.mosi
  | .sck => c.sck
  | .rst => c.rst

/-- The setter of an output (R91 to R93). -/
def Pin.setter (b : Bool) : Pin → Instr
  | .mosi => .setMosi b
  | .sck => .setSck b
  | .rst => .setRst b

/-- The argument of the last call to an output's own setter, or `level` if there is none (R96). -/
def lastArgument (p : Pin) (level : Bool) : List (Pin × Bool) → Bool
  | [] => level
  | (q, b) :: calls => lastArgument p (if q = p then b else level) calls

/-- What a setter does (R90 to R93): LVL holds the operand; one write of a byte whose bit `pos` is `b`
and whose seven other bits are those of PORT; nothing else but the record of the completion. -/
def setterEffect (c : Config) (pos : Fin 8) (b : Bool) (s t : State) : Prop :=
  t.port.getLsbD pos.val = b ∧
  (∀ i, i < 8 → i ≠ pos.val → t.port.getLsbD i = s.port.getLsbD i) ∧
  t = ((s.setLvl b).onDriver (·.afterWrite c t.port)).finish

/-- The frames of a list exchanged one after the other, everything else as it was. -/
def State.afterFrames (c : Config) (fs : List Frame) (s : State) : State :=
  fs.foldl (fun s f => s.afterExchange c f) s

/-- The busy bit the `n`-th 4-byte frame from here on receives, when it is a POLL_BUSY (R114). -/
def busyBitAt (c : Config) (d : Driver) (n : Nat) : Bool := (receivedByte c d (4 * n + 3)).getLsbD 0

/-- POLLCNT after one more poll: counted only when `POLL_LIMIT` is finite (R29, R171). -/
def pollsAfter (c : Config) (s : State) : Nat :=
  match c.pollLimit with
  | none => s.pollcnt
  | some _ => s.pollcnt + 1

/-- The limit test after one more poll (R134). -/
def limitHit (c : Config) (s : State) : Bool :=
  match c.pollLimit with
  | none => false
  | some n => decide (n ≤ s.pollcnt + 1)

/-- The block after one poll that is not yet judged. -/
def State.afterTurn (c : Config) (s : State) : State :=
  (s.afterPoll c).setPollcnt (pollsAfter c s)

/-- Two states that agree on everything except the registers reset leaves unspecified and no operation
reads before it writes them (R24, R41 to R43): the shifter's, the frames, PAGE, the latches, the
counters, BUSYF, MISO_L, and the record of results. -/
def State.sameVisible (s t : State) : Prop :=
  s.port = t.port ∧ s.trace = t.trace ∧ s.answers = t.answers ∧ s.freeReads = t.freeReads ∧
  s.phase = t.phase ∧ s.seq = t.seq ∧ s.cfg = t.cfg ∧ s.requests = t.requests

/-- What the last completed operation handed back. -/
def State.lastResult (s : State) : Option Result := s.results.getLast?

/-! ## Premises about the target (R61 to R64): a claim may assume them, the machine never does -/

/-- R63: the first `n` polls from frame `k` on answer busy. -/
def Target.busyFor (c : Config) (d : Driver) (k n : Nat) : Prop :=
  ∀ j, j < n → busyBitAt c d (k + j) = true

/-- R62: the enable frame of the first attempt of the SYNC that starts now is echoed. -/
def Target.echoesEnable (c : Config) (d : Driver) : Prop := echoesAt c d 0 = true

/-- R64: the READ_SIG, READ_LO or READ_HI frame that starts now returns `v`. -/
def Target.returns (c : Config) (d : Driver) (v : Byte) : Prop := receivedByte c d 3 = v

/-! ## The host's reference workflow (44_workflow.md, outside the block by 00_scope.md R4(d)) -/

/-- `FLASH_BYTES` (R5). -/
def flashBytes : Nat := 2048

/-- `block(I, p)`: 32 bytes, every index at or beyond the image's length filled with `0xFF` (R153). -/
def Workflow.block (image : List Byte) (p : Nat) : List Byte :=
  (List.range pageBytes).map fun i => image.getD (pageBytes * p + i) 0xFF#8

/-- The operations of the workflow after the image check (R151, R152, R154, R155), none for an image
that is too large. A host stops it after a SYNC that failed. DESIGN CHOICE (safe, log 24): whether the
check comes before or after SYNC is not stated (R151, 91_not_in_source.md N28, U19); it comes before
here, so an image over 2048 bytes has no operation at all, and no SYNC. The signature reads, which
R152 calls optional, are left out. -/
def Workflow.operations (image : List Byte) : Option (List Instr) :=
  if image.length ≤ flashBytes then
    some ([.sync, .erase]
      ++ (List.range ((image.length + (pageBytes - 1)) / pageBytes)).map
          (fun p => .programPage (Workflow.block image p) (BitVec.ofNat 8 p))
      ++ (List.range image.length).map (fun a => .readByte (BitVec.ofNat 16 a)))
  else none

end Sys2Proof.Machine
end

