-- ==== Sys2Proof/Certificates/Slice0/Obligations.lean ====
section
/-! DEFINITION. The statements for the provers. `s.ready c` is an idle block with the accepted
configuration `c`; `s.cfg = some c` alone is all a frame instruction needs. What MISO spells is
`received`, `receivedByte`, `responseFrame`, `echoesAt`, `busyBitAt` (Sys2Proof/Safety.lean): functions
of the environment's answers, which every statement quantifies over through the state; where a whole
next state is given, how the answers are used up in it is the model's input (log 3). -/

open Sys2Proof
open Sys2Proof.Machine

/-! ## Requests, decoding, encoding -/

/-- R130, R36: an idle block takes the next request and executes exactly the instruction it decodes
to, the request having left the queue. The queue of requests is the model's (logs 5, 6). -/
def Obligations.StepRunsIssuedInstruction : Prop :=
  ∀ (s : State) (r : Request) (rest : List Request) (i : Instr),
    s.seq = .idle → s.requests = r :: rest → decode r = .ok i →
      step s = exec i { s with requests := rest }

/-- R72, R83: words written out from the vectors V30 to V39b and the select codes decode to the
instructions they stand for. The operand bytes of a request are the model's format (log 5). -/
def Obligations.SpecWordsDecode : Prop :=
  decode (.frame 0xAC530000#32) = .ok .progEnable ∧
  decode (.frame 0xAC800000#32) = .ok .chipErase ∧
  decode (.frame 0xF0000000#32) = .ok .pollBusy ∧
  decode (.frame 0x30000200#32) = .ok (.readSig 2#2) ∧
  decode (.frame 0x4000039A#32) = .ok (.loadLo 3#4 0x9A#8) ∧
  decode (.frame 0x48000F1F#32) = .ok (.loadHi 15#4 0x1F#8) ∧
  decode (.frame 0x4C03F000#32) = .ok (.writePage 63#6) ∧
  decode (.frame 0x2003FF00#32) = .ok (.readLo 1023#15) ∧
  decode (.frame 0x287FFF00#32) = .ok (.readHi 32767#15) ∧
  decode (.host 10#4 [0x01#8, 0x25#8]) = .ok (.readByte 0x0125#16) ∧
  decode (.host 4#4 [0xAC#8, 0x53#8]) = .ok (.transfer [0xAC#8, 0x53#8])

/-- R71, R72, R83: no bit of an encoding is dropped, for every operand of every instruction. The
operand bytes of a host operation are the model's format (log 5). -/
def Obligations.DecodeEncodeRoundTrip : Prop := ∀ i : Instr, decode (encode i) = .ok i

/-- R72: "a frame is the instruction iff F & mask = match", row by row; and no word is two
instructions. -/
def Obligations.FrameWordIsInstructionIffRowMatches : Prop :=
  ∀ F : FrameWord,
    (decode (.frame F) = .ok .progEnable ↔ F &&& 0xFFFFFFFF#32 = 0xAC530000#32) ∧
    (decode (.frame F) = .ok .chipErase ↔ F &&& 0xFFFFFFFF#32 = 0xAC800000#32) ∧
    ((∃ idx, decode (.frame F) = .ok (.readSig idx)) ↔ F &&& 0xFFFFFCFF#32 = 0x30000000#32) ∧
    (decode (.frame F) = .ok .pollBusy ↔ F &&& 0xFFFFFFFF#32 = 0xF0000000#32) ∧
    ((∃ w d, decode (.frame F) = .ok (.loadLo w d)) ↔ F &&& 0xFFFFF000#32 = 0x40000000#32) ∧
    ((∃ w d, decode (.frame F) = .ok (.loadHi w d)) ↔ F &&& 0xFFFFF000#32 = 0x48000000#32) ∧
    ((∃ p, decode (.frame F) = .ok (.writePage p)) ↔ F &&& 0xFFFC0FFF#32 = 0x4C000000#32) ∧
    ((∃ a, decode (.frame F) = .ok (.readLo a)) ↔ F &&& 0xFF8000FF#32 = 0x20000000#32) ∧
    ((∃ a, decode (.frame F) = .ok (.readHi a)) ↔ F &&& 0xFF8000FF#32 = 0x28000000#32)

/-- R71: a word that is an instruction is that instruction's only encoding. -/
def Obligations.FrameEncodingUnique : Prop :=
  ∀ (F : FrameWord) (i : Instr), decode (.frame F) = .ok i → encode i = .frame F

/-- R80: a word that is the encoding of no instruction faults by name, never as a no-op: issued by
itself, and in a mock target that decodes the block's output; every other word the mock target takes.
That a frame word can be issued by itself is the model's (logs 6, 22), so is the mock target (log 23). -/
def Obligations.UndefinedFrameWordFaults : Prop :=
  (∀ (s : State) (F : FrameWord) (rest : List Request),
    s.seq = .idle → s.requests = .frame F :: rest → (∀ i, encode i ≠ .frame F) →
      step s = .fault (.undefinedFrame F)) ∧
  (∀ (t : Target.Device) (f : Frame),
    ((∀ i, encode i ≠ .frame (Frame.word f)) →
      t.accept f = .error (.undefinedFrame (Frame.word f))) ∧
    (∀ i, encode i = .frame (Frame.word f) → ∃ r, t.perform i = some r ∧ t.accept f = .ok r))

/-- R83 (decision D10 of the spec): the select codes 0 to 10 in the order of R82, each the code its
operation's encoding has and decodes from; 11 to 15 select nothing and are refused. The operand bytes
are the model's format (log 5). -/
def Obligations.OpselSelectsOperation : Prop :=
  (∀ b, ∃ o, encode (.setMosi b) = .host 0#4 o ∧ decode (.host 0#4 o) = .ok (.setMosi b)) ∧
  (∀ b, ∃ o, encode (.setSck b) = .host 1#4 o ∧ decode (.host 1#4 o) = .ok (.setSck b)) ∧
  (∀ b, ∃ o, encode (.setRst b) = .host 2#4 o ∧ decode (.host 2#4 o) = .ok (.setRst b)) ∧
  (encode .readMiso = .host 3#4 [] ∧ decode (.host 3#4 []) = .ok .readMiso) ∧
  (∀ out, encode (.transfer out) = .host 4#4 out ∧
    decode (.host 4#4 out) = .ok (.transfer out)) ∧
  (encode .sync = .host 5#4 [] ∧ decode (.host 5#4 []) = .ok .sync) ∧
  (∀ index, encode (.readSignature index) = .host 6#4 [index] ∧
    decode (.host 6#4 [index]) = .ok (.readSignature index)) ∧
  (encode .isBusy = .host 7#4 [] ∧ decode (.host 7#4 []) = .ok .isBusy) ∧
  (encode .erase = .host 8#4 [] ∧ decode (.host 8#4 []) = .ok .erase) ∧
  (∀ data page, encode (.programPage data page) = .host 9#4 (data ++ [page]) ∧
    decode (.host 9#4 (data ++ [page])) = .ok (.programPage data page)) ∧
  (∀ hi lo : Byte, encode (.readByte (hi ++ lo)) = .host 10#4 [hi, lo] ∧
    decode (.host 10#4 [hi, lo]) = .ok (.readByte (hi ++ lo))) ∧
  (∀ (s : State) (k : BitVec 4) (o : List Byte) (rest : List Request), 11 ≤ k.toNat →
    s.seq = .idle → s.requests = .host k o :: rest → step s = .refused (.badOpsel k))

/-- R176: the four refusals, each made when the request is issued, with no next state: (a) OPSEL 11
to 15, (b) a page that is not 32 bytes, (c) a configuration whose output bits coincide or whose bits
are outside 0..7, (d) an operation issued while another is running (decision D20 of the spec, log
20). -/
def Obligations.MalformedRequestsRefused : Prop :=
  (∀ (s : State) (k : BitVec 4) (o : List Byte) (rest : List Request), 11 ≤ k.toNat →
    s.seq = .idle → s.requests = .host k o :: rest → step s = .refused (.badOpsel k)) ∧
  (∀ (data : List Byte) (page : Byte) (s : State), data.length ≠ 32 →
    exec (.programPage data page) s = .refused (.pageLength data.length)) ∧
  (∀ (raw : RawConfig) (p : Byte) (i : Instr), i.wellFormed = true →
    (8 ≤ raw.mosiBit ∨ 8 ≤ raw.sckBit ∨ 8 ≤ raw.rstBit ∨ 8 ≤ raw.misoBit ∨
      raw.mosiBit = raw.sckBit ∨ raw.mosiBit = raw.rstBit ∨ raw.sckBit = raw.rstBit) →
    exec i (State.boot (Config.check raw) p) = .refused .badConfiguration) ∧
  (∀ (s : State) (c : Config) (i : Instr), s.cfg = some c → s.seq ≠ .idle →
    isOperation i = true → i.wellFormed = true → exec i s = .refused .operationRunning)

/-! ## Reset -/

/-- R42, R180: what reset leaves, for every configuration and every value of the port register; no
event; and the block waits for the host's first operation (decision D8 of the spec; logs 1, 7).
State.reset is one such start. -/
def Obligations.ResetLeavesBlockWaiting : Prop :=
  (∀ (cfg : Option Config) (p : Byte),
    (State.boot cfg p).phase = .unsynchronized ∧ (State.boot cfg p).seq = .idle ∧
    (State.boot cfg p).port = p ∧ (State.boot cfg p).trace = [] ∧ (State.boot cfg p).io = [] ∧
    (State.boot cfg p).requests = [] ∧
    step (State.boot cfg p) = .next (State.boot cfg p)) ∧
  State.reset = State.boot (some Config.platform) Config.portReset ∧
  Config.platform.pollLimit = none

/-! ## The Signal Driver -/

/-- R90 to R93: SET_MOSI, SET_SCK and SET_RST complete: the own bit is the operand, the seven others
are kept, one write, whether or not a bit changes. That the read half reads the block's own PORT is
decision D1 of the spec (log 14). That RESULT is unchanged after an operation without a value, and the
record of results, are the model's (log 10). -/
def Obligations.SettersWriteOwnBit : Prop :=
  ∀ (c : Config) (s : State) (b : Bool), s.ready c →
    (∃ t, exec (.setMosi b) s = .next t ∧ setterEffect c c.mosi b s t) ∧
    (∃ t, exec (.setSck b) s = .next t ∧ setterEffect c c.sck b s t) ∧
    (∃ t, exec (.setRst b) s = .next t ∧ setterEffect c c.rst b s t)

/-- R94: READ_MISO completes: one status read, the inverted bit handed back and kept in MISO_L, PORT
and the I/O space untouched, nothing else changed but the answer used up; a second call reads the
environment's next answer. How the answers are held and used up is the model's (log 3), so are the
request's format (log 5) and the record of results (log 10). -/
def Obligations.ReadMisoReturnsInvertedBit : Prop :=
  encode .readMiso = .host 3#4 [] ∧
  ∀ (c : Config) (s : State), s.ready c →
    ∃ t, exec .readMiso s = .next t ∧
      t.result = .bool (!(s.answer 0).getLsbD c.miso) ∧
      t.answer 0 = s.answer 1 ∧
      t = { s with
        misoL := !(s.answer 0).getLsbD c.miso
        trace := s.trace ++ [.read c.statusAddr (s.answer 0)]
        answers := s.answers.drop 1
        freeReads := s.freeReads + (1 - s.answers.length)
        result := .bool (!(s.answer 0).getLsbD c.miso)
        results := s.results ++ [.bool (!(s.answer 0).getLsbD c.miso)] }

/-- R96: for any sequence of setter calls each output ends at the argument of the last call to its
own setter, or where it was, and the five unused bits stay. -/
def Obligations.OutputsIndependent : Prop :=
  ∀ (c : Config) (calls : List (Pin × Bool)) (s : State), s.ready c →
    ∃ t, execAll (calls.map fun x => x.1.setter x.2) s = .next t ∧
      (∀ p : Pin, t.port.getLsbD (p.bit c).val =
        lastArgument p (s.port.getLsbD (p.bit c).val) calls) ∧
      sameUnused c t.port s.port

/-! ## The SPI Transfer Engine -/

/-- R100: SHIFT_BIT's four events in order, and its registers. -/
def Obligations.ShiftBitSamplesDrivesPulses : Prop :=
  ∀ (c : Config) (s : Shifter),
    let m := !(s.answer 0).getLsbD c.miso
    let p₁ := withBit c.mosi (s.txsr.getLsbD 7) s.port
    let p₂ := withBit c.sck true p₁
    let p₃ := withBit c.sck false p₂
    (shiftBit c s).trace = s.trace ++ [.read c.statusAddr (s.answer 0), .write c.dataAddr p₁,
      .write c.dataAddr p₂, .write c.dataAddr p₃] ∧
    (shiftBit c s).port = p₃ ∧
    (shiftBit c s).rxsr = (s.rxsr <<< 1) ||| (BitVec.ofBool m).setWidth 8 ∧
    (shiftBit c s).txsr = s.txsr <<< 1 ∧
    (shiftBit c s).misoL = m ∧
    (shiftBit c s).bitcnt = s.bitcnt + 1 ∧
    (shiftBit c s).byteidx = s.byteidx

/-- R101, R24: the byte SHIFT_BYTE receives has the k-th sample in bit 7 - k, whatever RXSR held; 32
events, 8 reads and 24 writes; the bits of the byte go out most significant first. -/
def Obligations.ShiftByteReceivesSamples : Prop :=
  ∀ (c : Config) (b : Byte) (s : Shifter),
    (∀ k, k < 8 → (shiftByte c b s).rxsr.getLsbD (7 - k) =
      !(s.answer k).getLsbD c.miso) ∧
    (shiftByte c b s).trace = s.trace ++ streamEvents c s.answer (bitsOf b) s.port ∧
    (streamEvents c s.answer (bitsOf b) s.port).length = 32 ∧
    countReads (streamEvents c s.answer (bitsOf b) s.port) = 8 ∧
    countWrites (streamEvents c s.answer (bitsOf b) s.port) = 24 ∧
    (s.port.getLsbD c.sck = false →
      mosiAtRises c s.port (streamEvents c s.answer (bitsOf b) s.port) =
        (List.range 8).map fun k => b.getLsbD (7 - k))

/-- R102: TRANSFER completes for every length: as many bytes back as out, byte `j` the one MISO
spells while byte `j` goes out, 32 events a byte and none between, and nothing else changed; of no
bytes it makes no event and changes no register of the engine or the pins. There is no upper bound
on the length (decision D7 of the spec). The operand bytes in the request are the model's format (log
5), how the answers are used up (log 3) and the record of results (log 10) are the model's, and that LVL
is unchanged by a transfer is its reading of R28 (log 11). -/
def Obligations.TransferReturnsAsManyBytes : Prop :=
  ∀ (c : Config) (out : List Byte) (s : State), s.ready c →
    encode (.transfer out) = .host 4#4 out ∧
    ∃ t, exec (.transfer out) s = .next t ∧
      t.result = .bytes (received c s.toDriver out.length) ∧
      (received c s.toDriver out.length).length = out.length ∧
      t.trace = s.trace ++ streamEvents c s.answer (bitStream out) s.port ∧
      (streamEvents c s.answer (bitStream out) s.port).length = 32 * out.length ∧
      (s.port.getLsbD c.sck = false →
        (mosiAtRises c s.port (streamEvents c s.answer (bitStream out) s.port)).length =
          8 * out.length) ∧
      (out = [] → t.toShifter = s.toShifter) ∧
      t = { s with
        toShifter := s.toShifter.afterTransfer c out
        result := .bytes (received c s.toDriver out.length)
        results := s.results ++ [.bytes (received c s.toDriver out.length)] }

/-- R104 (the spec's inference from R100 to R102): the pin-level laws of TRANSFER for N ≥ 1 with SCK
low on entry: the edges alternate, rising first, 8N of each; the bits on MOSI at the rising edges,
set up before them; where each sample lies among the events; the levels on return; RST never
written. -/
def Obligations.TransferPinLaws : Prop :=
  ∀ (c : Config) (out : List Byte) (s : State), s.ready c → out ≠ [] →
    s.port.getLsbD c.sck = false →
    ∃ t, exec (.transfer out) s = .next t ∧
      newEvents s t = streamEvents c s.answer (bitStream out) s.port ∧
      mosiAtRises c s.port (newEvents s t) = bitStream out ∧
      sckEdges c s.port (newEvents s t) = (List.replicate (8 * out.length) [true, false]).flatten ∧
      fallingEdges c s.port (newEvents s t) = 8 * out.length ∧
      dataBeforeClock c s.port (newEvents s t) = true ∧
      (bitStream out).length = 8 * out.length ∧
      t.port.getLsbD c.sck = false ∧
      (bitStream out).getLast? = some (t.port.getLsbD c.mosi) ∧
      t.port.getLsbD c.rst = s.port.getLsbD c.rst ∧
      sameUnused c t.port s.port ∧
      (∀ a v, Event.write a v ∈ newEvents s t → v.getLsbD c.rst = s.port.getLsbD c.rst)

/-- R105 (the spec's inference from R100): against a wire from MOSI to MISO the received stream is
the sent one delayed by a bit. -/
def Obligations.LoopbackDelaysByOneBit : Prop :=
  ∀ (c : Config) (out : List Byte) (s : State), s.ready c →
    loopedBack c s.port (streamEvents c s.answer (bitStream out) s.port) = true →
    ∃ t, exec (.transfer out) s = .next t ∧
      newEvents s t = streamEvents c s.answer (bitStream out) s.port ∧
      t.result = .bytes (delayed (s.port.getLsbD c.mosi) out)

/-- R106(a): entered with SCK high, TRANSFER loses its first rising edge; what the host gets back is
the same. -/
def Obligations.SckHighLosesFirstEdge : Prop :=
  ∀ (c : Config) (out : List Byte) (s : State), s.ready c → out ≠ [] →
    s.port.getLsbD c.sck = true →
    ∃ t, exec (.transfer out) s = .next t ∧
      mosiAtRises c s.port (newEvents s t) = (bitStream out).tail ∧
      (mosiAtRises c s.port (newEvents s t)).length = 8 * out.length - 1 ∧
      t.result = .bytes (received c s.toDriver out.length)

/-! ## The frame instructions -/

/-- R110: EXCHANGE of any frame: CMD, RSP, 32 reads and 96 writes, 32 rising edges that spell the
frame, SCK low and MOSI the last bit afterwards, RST and PHASE untouched. -/
def Obligations.ExchangeSendsFrame : Prop :=
  ∀ (c : Config) (f : Frame) (s : State),
    let t := exchange c f s
    t.cmd = f ∧ t.rsp = responseFrame c s.toDriver ∧
    countReads (newEvents s t) = 32 ∧ countWrites (newEvents s t) = 96 ∧
    (newEvents s t).length = 128 ∧
    (s.port.getLsbD c.sck = false →
      mosiAtRises c s.port (newEvents s t) = bitStream [f.b0, f.b1, f.b2, f.b3]) ∧
    t.port.getLsbD c.sck = false ∧ t.port.getLsbD c.mosi = f.b3.getLsbD 0 ∧
    t.port.getLsbD c.rst = s.port.getLsbD c.rst ∧ sameUnused c t.port s.port ∧
    t.phase = s.phase

/-- R111: PROG_ENABLE by itself (log 6): its frame, and the echo test reads all of RSP[2]. That LVL is
unchanged by a frame is the model's reading of R28 (log 11). -/
def Obligations.ProgEnableExchanges : Prop :=
  encode .progEnable = .frame 0xAC530000#32 ∧
  ∀ (c : Config) (s : State), s.cfg = some c →
    ∃ t, exec .progEnable s = .next t ∧
      t = s.afterExchange c ⟨0xAC#8, 0x53#8, 0x00#8, 0x00#8⟩ ∧
      (echoOk t.rsp = true ↔ receivedByte c s.toDriver 2 = 0x53#8)

/-- R112: CHIP_ERASE by itself (log 6): its frame, nothing extracted. That LVL is unchanged by a frame
is the model's reading of R28 (log 11). -/
def Obligations.ChipEraseExchanges : Prop :=
  encode .chipErase = .frame 0xAC800000#32 ∧
  ∀ (c : Config) (s : State), s.cfg = some c →
    exec .chipErase s = .next (s.afterExchange c ⟨0xAC#8, 0x80#8, 0x00#8, 0x00#8⟩)

/-- R113: READ_SIG by itself (log 6) for every operand byte: masked to two bits in the field and in
the frame sent. That LVL and SIGIDX are unchanged by a frame is the model's reading of R28 (log 11). -/
def Obligations.ReadSigExchanges : Prop :=
  ∀ (c : Config) (index : Byte) (s : State), s.cfg = some c →
    exec (.readSig (index.setWidth 2)) s =
      .next (s.afterExchange c ⟨0x30#8, 0x00#8, index &&& 0x03#8, 0x00#8⟩) ∧
    valueOf (s.afterExchange c ⟨0x30#8, 0x00#8, index &&& 0x03#8, 0x00#8⟩).rsp =
      receivedByte c s.toDriver 3

/-- R114: POLL_BUSY by itself (log 6): its frame, and BUSYF is bit 0 of RSP[3] alone. That LVL is
unchanged by a frame is the model's reading of R28 (log 11). -/
def Obligations.PollBusySetsBusyFlag : Prop :=
  encode .pollBusy = .frame 0xF0000000#32 ∧
  ∀ (c : Config) (s : State), s.cfg = some c →
    exec .pollBusy s =
      .next { s.afterExchange c ⟨0xF0#8, 0x00#8, 0x00#8, 0x00#8⟩ with
        busyf := (receivedByte c s.toDriver 3).getLsbD 0 }

/-- R116, R117: LOAD_LO for every even byte index of a page, LOAD_HI for every odd one, and every
data byte; the odd index has the word offset of the even one below it. By themselves they are the
model's (log 6); the zero byte f[1] is decision D6 of the spec (log 16); that LVL and PAGE are
unchanged by a frame is the model's reading of R27 and R28 (log 11). -/
def Obligations.LoadExchanges : Prop :=
  ∀ (c : Config) (i d : Byte) (s : State), s.cfg = some c → i.toNat < 32 →
    (i.getLsbD 0 = false →
      exec (.loadLo ((i >>> 1).setWidth 4) d) s =
        .next (s.afterExchange c ⟨0x40#8, 0x00#8, i >>> 1, d⟩)) ∧
    (i.getLsbD 0 = true →
      exec (.loadHi ((i >>> 1).setWidth 4) d) s =
        .next (s.afterExchange c ⟨0x48#8, 0x00#8, i >>> 1, d⟩) ∧
      (i - 1#8) >>> 1 = i >>> 1)

/-- R118: WRITE_PAGE for every page index byte: bits 5:0 are encoded and sent, bits 7:6 dropped. The
zero byte f[3] is decision D6 of the spec (log 16). By itself it is the model's (log 6); that LVL and
PAGEIDX are unchanged by a frame is the model's reading of R28 (log 11). -/
def Obligations.WritePageExchanges : Prop :=
  ∀ (c : Config) (page : Byte) (s : State), s.cfg = some c →
    exec (.writePage (page.setWidth 6)) s =
      .next (s.afterExchange c
        ⟨0x4C#8, (page >>> 4) &&& 0x03#8, (page <<< 4) &&& 0xF0#8, 0x00#8⟩)

/-- R119, R120: READ_LO for every even 16-bit byte address, READ_HI for every odd one; the value is
all eight bits of RSP[3]. The zero byte f[3] is decision D6 of the spec (log 16). By themselves they
are the model's (log 6); that LVL and ADDR are unchanged by a frame is the model's reading of R28 (log
11). -/
def Obligations.ReadExchanges : Prop :=
  ∀ (c : Config) (a : FlashAddr) (s : State), s.cfg = some c →
    (a.getLsbD 0 = false →
      exec (.readLo ((a >>> 1).setWidth 15)) s =
        .next (s.afterExchange c ⟨0x20#8, (((a >>> 1) >>> 8) &&& 0xFF#16).setWidth 8,
          ((a >>> 1) &&& 0xFF#16).setWidth 8, 0x00#8⟩)) ∧
    (a.getLsbD 0 = true →
      exec (.readHi ((a >>> 1).setWidth 15)) s =
        .next (s.afterExchange c ⟨0x28#8, (((a >>> 1) >>> 8) &&& 0xFF#16).setWidth 8,
          ((a >>> 1) &&& 0xFF#16).setWidth 8, 0x00#8⟩)) ∧
    ∀ f : Frame, valueOf (s.afterExchange c f).rsp = receivedByte c s.toDriver 3

/-- R8, R71, R121(d): the frame a frame instruction sends is its encoding, whatever the state. -/
def Obligations.FrameSentIsItsEncoding : Prop :=
  ∀ (i : Instr) (F : FrameWord) (s t : State), encode i = .frame F → exec i s = .next t →
    t.cmd.b0 ++ t.cmd.b1 ++ t.cmd.b2 ++ t.cmd.b3 = F

/-- R121(b), (c): the first byte of every frame is one of eight, the last is 0x00 except in a load,
so MOSI is left low by every frame but a load of an odd data byte. -/
def Obligations.FrameSetShape : Prop :=
  ∀ (c : Config) (i : Instr) (s t : State), s.cfg = some c → isOperation i = false →
    exec i s = .next t →
    t.cmd.b0 ∈ [0x20#8, 0x28#8, 0x30#8, 0x40#8, 0x48#8, 0x4C#8, 0xAC#8, 0xF0#8] ∧
    ((∀ w d, i ≠ .loadLo w d ∧ i ≠ .loadHi w d) →
      t.cmd.b3 = 0x00#8 ∧ t.port.getLsbD c.mosi = false) ∧
    (∀ w d, i = .loadLo w d ∨ i = .loadHi w d → t.port.getLsbD c.mosi = d.getLsbD 0)

/-- R55: the frames the formatter composes for the load, the commit and the read of byte `k` of page
`p` name one address. -/
def Obligations.LoadCommitReadAgree : Prop :=
  ∀ (p k : Nat) (d : Byte), p < 64 → k < 32 →
    let a : FlashAddr := BitVec.ofNat 16 (p * 32 + k)
    let load := if k % 2 = 0 then fmtLoadLo (BitVec.ofNat 8 k) d else fmtLoadHi (BitVec.ofNat 8 k) d
    let commit := fmtWritePage (BitVec.ofNat 8 p)
    let read := if byteInWord a then fmtReadHi a else fmtReadLo a
    load.b2.toNat = (wordOffset a).toNat ∧
    load.b0.getLsbD 3 = byteInWord a ∧
    256 * commit.b1.toNat + commit.b2.toNat = (wordAddress (BitVec.ofNat 16 (p * 32))).toNat ∧
    256 * read.b1.toNat + read.b2.toNat = (wordAddress a).toNat ∧
    (wordAddress a).toNat = p * 16 + k / 2 ∧
    read.b0.getLsbD 3 = decide (k % 2 = 1) ∧
    (pageIndex a).toNat = p ∧ (byteIndex a).toNat = k

/-- R56, R64, R80: a simulated device takes the frames the formatter composes for a page, its 32 loads in
order and its commit, without a fault, and then answers the READ frame of each byte's address with that
byte. A statement about the formatter and the simulated device of the source's properties, not about a
real target: the device is the model's, never busy, never disabled and without a bound (log 23). -/
def Obligations.DeviceReadsBackPage : Prop :=
  ∀ (t : Target.Device) (data : List Byte) (p k : Nat), data.length = 32 → p < 64 → k < 32 →
    let a : FlashAddr := BitVec.ofNat 16 (p * 32 + k)
    let loads := (List.range 32).map fun i =>
      if i % 2 = 0 then fmtLoadLo (BitVec.ofNat 8 i) (data.getD i 0#8)
      else fmtLoadHi (BitVec.ofNat 8 i) (data.getD i 0#8)
    ∃ u, Target.Device.acceptAll (loads ++ [fmtWritePage (BitVec.ofNat 8 p)]) t = .ok u ∧
      u.accept (if byteInWord a then fmtReadHi a else fmtReadLo a) =
        .ok (u, some (data.getD k 0#8))

/-! ## The ISP operations -/

/-- R131 (ATTEMPT counts completed attempts, log 9): SYNC completes with `success` at the first
attempt whose third response byte is 0x53, after 134 events an attempt, with SCK low, reset
released, MOSI low. That LVL is unchanged by SYNC is the model's reading of R28 (log 11), the record of
results is the model's (log 10). -/
def Obligations.SyncSucceedsAtFirstEcho : Prop :=
  ∀ (c : Config) (k : Nat) (s : State), s.ready c → k < 3 →
    (∀ j, j < k → receivedByte c s.toDriver (4 * j + 2) ≠ 0x53#8) →
    receivedByte c s.toDriver (4 * k + 2) = 0x53#8 →
    ∃ t, exec .sync s = .next t ∧
      t = { State.afterAttempts c (k + 1) { s with attempt := 0 } with
        phase := .synchronized
        result := .success
        results := s.results ++ [.success] } ∧
      t.trace.length = s.trace.length + 134 * (k + 1) ∧
      t.port.getLsbD c.sck = false ∧ t.port.getLsbD c.rst = false ∧
      t.port.getLsbD c.mosi = false ∧ sameUnused c t.port s.port

/-- R131, R161, R168: SYNC ends in SynchronizationFailure after the third attempt that is not
echoed, and the block is idle again with SCK low, reset released, MOSI low. ATTEMPT counts completed
attempts (log 9); that LVL is unchanged by SYNC is the model's reading of R28 (log 11), the record of
results is the model's (log 10). -/
def Obligations.SyncFailsAfterThreeAttempts : Prop :=
  ∀ (c : Config) (s : State), s.ready c →
    (∀ j, j < 3 → receivedByte c s.toDriver (4 * j + 2) ≠ 0x53#8) →
    ∃ t, exec .sync s = .next t ∧
      t = { State.afterAttempts c 3 { s with attempt := 0 } with
        phase := .syncFailed
        result := .failure
        results := s.results ++ [.failure] } ∧
      t.trace.length = s.trace.length + 402 ∧ t.seq = .idle ∧
      t.port.getLsbD c.sck = false ∧ t.port.getLsbD c.rst = false ∧
      t.port.getLsbD c.mosi = false ∧ sameUnused c t.port s.port

/-- R84, R131, R185: the events of one SYNC attempt, in order: the three writes of the reset pulse
with their three waits, then the frame. A wait is an event without duration (log 17). -/
def Obligations.SyncAttemptEvents : Prop :=
  ∀ (c : Config) (s : State),
    let p₁ := withBit c.sck false s.port
    let p₂ := withBit c.rst true p₁
    let p₃ := withBit c.rst false p₂
    (syncAttempt c s).trace = s.trace ++
      [.write c.dataAddr p₁, .wait 1, .write c.dataAddr p₂, .wait 1, .write c.dataAddr p₃,
        .wait 50]
      ++ streamEvents c s.answer (bitStream [0xAC#8, 0x53#8, 0x00#8, 0x00#8]) p₃

/-- R132: READ_SIGNATURE completes for every operand byte: one READ_SIG frame of 128 events, the
last response byte handed back. The operand's byte in the request is the model's format (log 5), that
LVL is unchanged its reading of R28 (log 11), the record of results the model's (log 10). -/
def Obligations.ReadSignatureReturnsByte : Prop :=
  ∀ (c : Config) (index : Byte) (s : State), s.ready c →
    encode (.readSignature index) = .host 6#4 [index] ∧
    (frameEvents c [⟨0x30#8, 0x00#8, index &&& 0x03#8, 0x00#8⟩] s.toDriver).length = 128 ∧
    exec (.readSignature index) s =
      .next { s.afterExchange c ⟨0x30#8, 0x00#8, index &&& 0x03#8, 0x00#8⟩ with
        sigidx := index
        result := .byte (receivedByte c s.toDriver 3)
        results := s.results ++ [.byte (receivedByte c s.toDriver 3)] }

/-- R133: IS_BUSY completes: one POLL_BUSY frame of 128 events, bit 0 of the last response byte in
BUSYF and handed back. The request is the model's format (log 5), that LVL is unchanged its reading of
R28 (log 11), the record of results the model's (log 10). -/
def Obligations.IsBusyReturnsLowBit : Prop :=
  ∀ (c : Config) (s : State), s.ready c →
    encode .isBusy = .host 7#4 [] ∧
    (frameEvents c [⟨0xF0#8, 0x00#8, 0x00#8, 0x00#8⟩] s.toDriver).length = 128 ∧
    exec .isBusy s =
      .next { s.afterExchange c ⟨0xF0#8, 0x00#8, 0x00#8, 0x00#8⟩ with
        busyf := (receivedByte c s.toDriver 3).getLsbD 0
        result := .bool ((receivedByte c s.toDriver 3).getLsbD 0)
        results := s.results ++ [.bool ((receivedByte c s.toDriver 3).getLsbD 0)] }

/-- R137: READ_BYTE completes for every address, even or odd: one READ_LO or READ_HI frame, the last
response byte handed back. The operand's two bytes in the request are the model's format (log 5), that
LVL is unchanged its reading of R28 (log 11), the record of results the model's (log 10). -/
def Obligations.ReadByteReturnsByte : Prop :=
  ∀ (c : Config) (a : FlashAddr) (s : State), s.ready c →
    (∃ o, encode (.readByte a) = .host 10#4 o) ∧
    (∀ f : Frame, (frameEvents c [f] s.toDriver).length = 128) ∧
    exec (.readByte a) s =
      .next { s.afterExchange c
          ⟨0x20#8 ||| (((a &&& 1#16) <<< 3).setWidth 8), (((a >>> 1) >>> 8) &&& 0xFF#16).setWidth 8,
            ((a >>> 1) &&& 0xFF#16).setWidth 8, 0x00#8⟩ with
        addr := a
        result := .byte (receivedByte c s.toDriver 3)
        results := s.results ++ [.byte (receivedByte c s.toDriver 3)] }

/-- R135: ERASE completes when its first poll answers not busy: the erase frame, one poll. POLLCNT
is counted only when POLL_LIMIT is finite (log 9). That RESULT is unchanged after an operation without
a value, and the record of results, are the model's (log 10); that LVL is unchanged is its reading of
R28 (log 11). -/
def Obligations.EraseCompletesWhenReady : Prop :=
  ∀ (c : Config) (s : State), s.ready c → busyBitAt c s.toDriver 1 = false →
    ∃ t, exec .erase s = .next t ∧
      t.trace = s.trace ++
        frameEvents c [⟨0xAC#8, 0x80#8, 0x00#8, 0x00#8⟩, pollFrame] s.toDriver ∧
      t = { (s.afterExchange c ⟨0xAC#8, 0x80#8, 0x00#8, 0x00#8⟩).afterExchange c pollFrame with
        pollcnt := match c.pollLimit with
          | none => 0
          | some _ => 1
        busyf := false
        results := s.results ++ [.none] }

/-- R135, R134, R162: ERASE whose first poll answers busy: with a limit of at most one poll it ends
in PollTimeout, else it goes on polling, one poll a step (logs 4, 9). The record of results is the
model's (log 10). -/
def Obligations.EraseWaitsWhileBusy : Prop :=
  ∀ (c : Config) (s : State), s.ready c → busyBitAt c s.toDriver 1 = true →
    ∃ t, exec .erase s = .next t ∧ t.busyf = true ∧
      t.trace = s.trace ++
        frameEvents c [⟨0xAC#8, 0x80#8, 0x00#8, 0x00#8⟩, pollFrame] s.toDriver ∧
      (c.pollLimit = none → t.seq = .erasePolling ∧ t.results = s.results) ∧
      (∀ n, c.pollLimit = some n → 1 < n →
        t.seq = .erasePolling ∧ t.pollcnt = 1 ∧ t.results = s.results) ∧
      (∀ n, c.pollLimit = some n → n ≤ 1 → t.seq = .idle ∧ t.result = .pollTimeout ∧
        t.results = s.results ++ [.pollTimeout])

/-- R136: PROGRAM_PAGE completes when its first poll answers not busy: 32 loads in ascending order
alternating 0x40 and 0x48, the commit, one poll, nothing between (counters as in log 9). That RESULT is
unchanged after an operation without a value, and the record of results, are the model's (log 10); that
LVL is unchanged is its reading of R28 (log 11). -/
def Obligations.ProgramPageCompletesWhenReady : Prop :=
  ∀ (c : Config) (data : List Byte) (page : Byte) (s : State), s.ready c → data.length = 32 →
    busyBitAt c s.toDriver 33 = false →
    ∃ t, exec (.programPage data page) s = .next t ∧
      t.trace = s.trace ++ frameEvents c
        ((List.range 32).map (fun i => (⟨if i % 2 = 0 then 0x40#8 else 0x48#8, 0x00#8,
            BitVec.ofNat 8 (i / 2), data.getD i 0#8⟩ : Frame)) ++
          [⟨0x4C#8, (page >>> 4) &&& 0x03#8, (page <<< 4) &&& 0xF0#8, 0x00#8⟩, pollFrame])
        s.toDriver ∧
      t.trace.length = s.trace.length + 128 * 34 ∧
      t = { (State.afterFrames c (pageFrames data page) s).afterExchange c pollFrame with
        page := data
        pageidx := page
        loadidx := 32
        pollcnt := match c.pollLimit with
          | none => 0
          | some _ => 1
        busyf := false
        results := s.results ++ [.none] }

/-- R136, R134, R162: PROGRAM_PAGE whose first poll answers busy: as ERASE (logs 4, 9). The
record of results is the model's (log 10). -/
def Obligations.ProgramPageWaitsWhileBusy : Prop :=
  ∀ (c : Config) (data : List Byte) (page : Byte) (s : State), s.ready c → data.length = 32 →
    busyBitAt c s.toDriver 33 = true →
    ∃ t, exec (.programPage data page) s = .next t ∧ t.busyf = true ∧ t.page = data ∧
      t.trace = s.trace ++ frameEvents c (pageFrames data page ++ [pollFrame]) s.toDriver ∧
      (c.pollLimit = none → t.seq = .pagePolling ∧ t.results = s.results) ∧
      (∀ n, c.pollLimit = some n → 1 < n →
        t.seq = .pagePolling ∧ t.pollcnt = 1 ∧ t.results = s.results) ∧
      (∀ n, c.pollLimit = some n → n ≤ 1 → t.seq = .idle ∧ t.result = .pollTimeout ∧
        t.results = s.results ++ [.pollTimeout])

/-- R134, R30, R40: one turn of the busy-poll spin is one poll and the whole next state is this: the
POLL_BUSY frame exchanged, BUSYF its busy bit, POLLCNT counted with a finite limit (log 9); not busy ends
the operation, and is tested before the limit; a busy answer at the limit raises PollTimeout; else the
spin goes on. So PHASE, RST and the operand latches are as they were. That one poll is one step is the
model's (log 4), so is that RESULT is unchanged where no value is handed back (log 10) and its reading
of R28 that LVL is unchanged (log 11). -/
def Obligations.PollTurnJudgesAnswer : Prop :=
  ∀ (c : Config) (s : State), s.polling c →
    let u : State := { s.afterExchange c ⟨0xF0#8, 0x00#8, 0x00#8, 0x00#8⟩ with
      busyf := busyBitAt c s.toDriver 0
      pollcnt := match c.pollLimit with
        | none => s.pollcnt
        | some _ => s.pollcnt + 1 }
    ∃ t, step s = .next t ∧
      t.trace = s.trace ++ frameEvents c [pollFrame] s.toDriver ∧
      t.busyf = busyBitAt c s.toDriver 0 ∧
      t.phase = s.phase ∧ t.port.getLsbD c.rst = s.port.getLsbD c.rst ∧
      t.port.getLsbD c.sck = false ∧ t.port.getLsbD c.mosi = false ∧ sameUnused c t.port s.port ∧
      (busyBitAt c s.toDriver 0 = false →
        t = { u with seq := .idle, results := s.results ++ [.none] }) ∧
      (busyBitAt c s.toDriver 0 = true → c.pollLimit = none → t = u) ∧
      (∀ n, busyBitAt c s.toDriver 0 = true → c.pollLimit = some n → s.pollcnt + 1 < n → t = u) ∧
      (∀ n, busyBitAt c s.toDriver 0 = true → c.pollLimit = some n → n ≤ s.pollcnt + 1 →
        t = { u with
          seq := .idle
          result := .pollTimeout
          results := s.results ++ [.pollTimeout] })

/-- R140, R189: with no limit a target that never clears busy keeps the block polling for ever:
after any number `n` of steps it is still polling, `n` frames later (one poll a step: log 4), and
nothing is recorded (log 10). -/
def Obligations.UnboundedSpinHangs : Prop :=
  ∀ (c : Config) (n : Nat) (s : State), s.polling c → c.pollLimit = none →
    Target.busyFor c s.toDriver 0 n →
    ∃ t, Sys2Proof.core.run n s = .next t ∧ t.seq = s.seq ∧ t.results = s.results ∧
      t.trace.length = s.trace.length + 128 * n

/-- R134, R140: the spin ends with the first poll that answers not busy, if the limit is not reached
before. It counts the model's steps, one poll a step (log 4); the record of results is the model's (log
10). -/
def Obligations.SpinEndsAtFirstReadyPoll : Prop :=
  ∀ (c : Config) (n : Nat) (s : State), s.polling c → Target.busyFor c s.toDriver 0 n →
    busyBitAt c s.toDriver n = false →
    (∀ l, c.pollLimit = some l → s.pollcnt + n < l) →
    ∃ t, Sys2Proof.core.run (n + 1) s = .next t ∧ t.seq = .idle ∧ t.busyf = false ∧
      t.results = s.results ++ [.none] ∧ t.trace.length = s.trace.length + 128 * (n + 1)

/-- R162: ERASE with POLL_LIMIT = n ≥ 1 on a target that stays busy ends in PollTimeout after
exactly n polls: one step issues it and makes the first, n - 1 more make the others (log 4). The record
of results is the model's (log 10). -/
def Obligations.PollTimeoutAfterLimit : Prop :=
  ∀ (c : Config) (n : Nat) (s : State) (rest : List Request), s.ready c →
    s.requests = encode .erase :: rest → c.pollLimit = some (n + 1) →
    Target.busyFor c s.toDriver 1 (n + 1) →
    ∃ t, Sys2Proof.core.run (n + 1) s = .next t ∧ t.seq = .idle ∧ t.result = .pollTimeout ∧
      t.busyf = true ∧ t.results = s.results ++ [.pollTimeout] ∧
      t.trace.length = s.trace.length + 128 * (n + 2)

/-! ## The whole machine -/

/-- R20, R25, R27, R29: the invariant holds at every start of a session. That PAGE is 32 bytes and the
counters are in range there rests on the values the model gives registers that R42 leaves unspecified
(log 2), the form of the I/O space on the model's record of it (log 8). -/
def Obligations.ResetMeetsInvariant : Prop :=
  State.reset.Inv ∧ ∀ (cfg : Option Config) (p : Byte), (State.boot cfg p).Inv

/-- R20, R25, R27, R29: every step keeps the invariant, from every state that meets it: the I/O
space stays canonical and holds PORT where it was written (log 8), PAGE stays 32 bytes, the counters
stay in range. -/
def Obligations.StepKeepsInvariant : Prop :=
  ∀ s t : State, s.Inv → step s = .next t → t.Inv

/-- R21, R51, R52, R53: every step only appends to the trace; it writes only DATA_ADDR, with the
five unused bits as they were, and reads only STATUS_ADDR; PORT keeps its unused bits. -/
def Obligations.StepMakesOnlyAllowedEvents : Prop :=
  ∀ (c : Config) (s t : State), s.cfg = some c → step s = .next t →
    (∃ evs, t.trace = s.trace ++ evs ∧ ∀ e ∈ evs, e.allowed c s.port) ∧ sameUnused c t.port s.port

/-- R20, R52, R53: no instruction and no step changes what the I/O space holds at any address but
DATA_ADDR; an instruction that writes leaves PORT there; READ_MISO and TRANSFER of no bytes store
nothing. The record of the I/O space is the model's (log 8). -/
def Obligations.StoresOnlyAtDataAddr : Prop :=
  (∀ (c : Config) (s t : State), s.cfg = some c → step s = .next t →
    ∀ a, a ≠ c.dataAddr → t.io.read a = s.io.read a) ∧
  (∀ (c : Config) (i : Instr) (s t : State), s.cfg = some c → exec i s = .next t →
    (∀ a, a ≠ c.dataAddr → t.io.read a = s.io.read a) ∧
    (i = .readMiso ∨ i = .transfer [] → ∀ a, t.io.read a = s.io.read a) ∧
    (i ≠ .readMiso → i ≠ .transfer [] → t.io.read c.dataAddr = some t.port))

/-- R142: no step changes a parameter, and exactly the request it takes leaves the queue (log 5). -/
def Obligations.StepKeepsParameters : Prop :=
  ∀ s t : State, step s = .next t →
    t.cfg = s.cfg ∧
    (s.seq = .idle → t.requests = s.requests.tail) ∧ (s.seq ≠ .idle → t.requests = s.requests)

/-- R30, R110, R138: PHASE is written by SYNC only, and then records its outcome; no later poll of
ERASE or PROGRAM_PAGE, which is a step of its own (log 4), writes it. -/
def Obligations.OnlySyncWritesPhase : Prop :=
  (∀ (i : Instr) (s t : State), exec i s = .next t →
    (i ≠ .sync → t.phase = s.phase) ∧
    (i = .sync → (t.phase = .synchronized ∧ t.result = .success) ∨
      (t.phase = .syncFailed ∧ t.result = .failure))) ∧
  (∀ s t : State, s.seq ≠ .idle → step s = .next t → t.phase = s.phase)

/-- R40, R104(e), R110: only SET_RST and SYNC write the RST bit; every other instruction's writes
carry it as it was, and so do those of every later poll, a step of its own (log 4). -/
def Obligations.OnlySyncAndSetRstWriteRst : Prop :=
  (∀ (c : Config) (i : Instr) (s t : State), s.cfg = some c → exec i s = .next t →
    i ≠ .sync → (∀ b, i ≠ .setRst b) →
    t.port.getLsbD c.rst = s.port.getLsbD c.rst ∧
    ∀ a v, Event.write a v ∈ newEvents s t → v.getLsbD c.rst = s.port.getLsbD c.rst) ∧
  (∀ (c : Config) (s t : State), s.polling c → step s = .next t →
    t.port.getLsbD c.rst = s.port.getLsbD c.rst ∧
    ∀ a v, Event.write a v ∈ newEvents s t → v.getLsbD c.rst = s.port.getLsbD c.rst)

/-- R182: entered with SCK low, every instruction and every later poll (log 4) keeps data before
clock: MOSI changes only while SCK is low. -/
def Obligations.DataBeforeClockKept : Prop :=
  (∀ (c : Config) (i : Instr) (s t : State), s.cfg = some c → s.port.getLsbD c.sck = false →
    exec i s = .next t → dataBeforeClock c s.port (newEvents s t) = true) ∧
  (∀ (c : Config) (s t : State), s.polling c → s.port.getLsbD c.sck = false →
    step s = .next t → dataBeforeClock c s.port (newEvents s t) = true)

/-- R183: SCK is low after every instruction that found it low, but SET_SCK(true), and after every
later poll (log 4), whatever it found. -/
def Obligations.SckLowKept : Prop :=
  (∀ (c : Config) (i : Instr) (s t : State), s.cfg = some c → s.port.getLsbD c.sck = false →
    i ≠ .setSck true → exec i s = .next t → t.port.getLsbD c.sck = false) ∧
  (∀ (c : Config) (s t : State), s.polling c → step s = .next t → t.port.getLsbD c.sck = false)

/-- R130, decision D11 of the spec (log 21): no instruction reads PHASE: from a state with another
PHASE it does the same and ends with that PHASE, SYNC with its own; nor does a later poll, a step of its
own (log 4). -/
def Obligations.PhaseNeverRead : Prop :=
  (∀ (i : Instr) (s t : State) (p : Phase), exec i s = .next t →
    exec i { s with phase := p } =
      .next { t with phase := if i = .sync then t.phase else p }) ∧
  (∀ (s t : State) (p : Phase), s.seq ≠ .idle → step s = .next t →
    step { s with phase := p } = .next { t with phase := p })

/-- R37: the trace is never read (it is kept in State as a record, log 25): an instruction appends
the same events to any other trace, and all else is the same; so does a later poll, a step of its own
(log 4). -/
def Obligations.TraceNeverRead : Prop :=
  (∀ (i : Instr) (s t : State) (tr : List Event), exec i s = .next t →
    exec i (s.withTrace tr) = .next (t.withTrace (tr ++ newEvents s t))) ∧
  (∀ (s t : State) (tr : List Event), s.seq ≠ .idle → step s = .next t →
    step (s.withTrace tr) = .next (t.withTrace (tr ++ newEvents s t)))

/-- R24, R41, R43: no register that reset leaves unspecified, but PORT, can be observed: two states
that differ in those registers only give the same events and hand back the same results. An operation
that goes on polling leaves the same POLLCNT, and from there every later poll, a step of its own (log
4), keeps the two alike to the end. The results compared are the model's record (log 10). -/
def Obligations.LeftoversNeverObserved : Prop :=
  (∀ (i : Instr) (s₁ s₂ t₁ : State), s₁.sameVisible s₂ → exec i s₁ = .next t₁ →
    ∃ t₂, exec i s₂ = .next t₂ ∧ t₁.sameVisible t₂ ∧
      ((isOperation i = true ∧ t₁.seq = .idle) → t₁.lastResult = t₂.lastResult) ∧
      ((isOperation i = true ∧ t₁.seq ≠ .idle) → t₁.pollcnt = t₂.pollcnt)) ∧
  (∀ s₁ s₂ t₁ : State, s₁.sameVisible s₂ → s₁.pollcnt = s₂.pollcnt → s₁.seq ≠ .idle →
    step s₁ = .next t₁ →
    ∃ t₂, step s₂ = .next t₂ ∧ t₁.sameVisible t₂ ∧ t₁.pollcnt = t₂.pollcnt ∧
      (t₁.seq = .idle → t₁.lastResult = t₂.lastResult))

/-- R32, R130, R138, R160: a host operation that completes hands back exactly one result, and only
SYNC, and ERASE and PROGRAM_PAGE with a finite POLL_LIMIT, can hand back an error; a later poll, a step
of its own (log 4), hands back exactly one result where it ends the operation and none where it does
not. The record of results is the model's (log 10). -/
def Obligations.OneResultPerOperation : Prop :=
  (∀ (i : Instr) (s t : State), isOperation i = true → exec i s = .next t →
    (t.seq = .idle → ∃ r, t.results = s.results ++ [r] ∧
      (r = .failure → i = .sync) ∧
      (r = .pollTimeout → (i = .erase ∨ ∃ d p, i = .programPage d p) ∧
        ∃ c n, s.cfg = some c ∧ c.pollLimit = some n)) ∧
    (t.seq ≠ .idle → t.results = s.results ∧ (i = .erase ∨ ∃ d p, i = .programPage d p))) ∧
  (∀ s t : State, s.seq ≠ .idle → step s = .next t →
    (t.seq = .idle → t.results = s.results ++ [.none] ∨
      (t.results = s.results ++ [.pollTimeout] ∧ ∃ c n, s.cfg = some c ∧ c.pollLimit = some n)) ∧
    (t.seq ≠ .idle → t.seq = s.seq ∧ t.results = s.results))

/-- R188 (decision D15 of the spec, log 12): a session restarted after an operation was stopped
anywhere inside a step: PHASE Unsynchronized, idle, and the five unused bits of PORT as they were.
-/
def Obligations.InterruptedKeepsUnusedBits : Prop :=
  ∀ (c : Config) (s t : State) (k : Nat), s.cfg = some c → step s = .next t →
    (s.interrupted t k).phase = .unsynchronized ∧ (s.interrupted t k).seq = .idle ∧
    (s.interrupted t k).cfg = s.cfg ∧
    sameUnused c (s.interrupted t k).port s.port

/-- R188 (decision D15 of the spec, logs 12, 21): after an outside stop SYNC is the only permitted next
operation; and wherever the operation was stopped, a session whose host goes on so completes that SYNC:
PHASE records its outcome, SCK is low, reset is released, MOSI is low, the five unused bits are those
from before, and the block is idle with the requests that follow. That the duty is the host's and not a
refusal of the block is the model's reading (log 21); the record of results is the model's (log 10). -/
def Obligations.StoppedSessionResumesWithSync : Prop :=
  (∀ i : Instr, permittedAfterStop i = true ↔ i = .sync) ∧
  (∀ (c : Config) (s t : State) (k : Nat) (r : Request) (rest : List Request), s.cfg = some c →
    step s = .next t → restartPermitted (r :: rest) = true →
    ∃ u, step (s.restarted t k (r :: rest)) = .next u ∧
      ((u.phase = .synchronized ∧ u.results = [.success]) ∨
        (u.phase = .syncFailed ∧ u.results = [.failure])) ∧
      u.seq = .idle ∧ u.requests = rest ∧ u.cfg = s.cfg ∧
      u.port.getLsbD c.sck = false ∧ u.port.getLsbD c.rst = false ∧
      u.port.getLsbD c.mosi = false ∧ sameUnused c u.port s.port)

/-- R111, R113, R114: the three frames the sequencer extracts something from, inside whatever operation:
the bytes composed are the encoding, CMD holds them, RSP what MISO spells, the events are those of the
frame; the echo test reads all of `RSP[2]`, the value is all of `RSP[3]` for every operand byte, and
BUSYF is bit 0 of `RSP[3]` and written by POLL_BUSY alone; none writes PHASE or RST. -/
def Obligations.FramesExtract : Prop :=
  encode .progEnable = .frame 0xAC530000#32 ∧
  encode .pollBusy = .frame 0xF0000000#32 ∧
  (∀ index : Byte, encode (.readSig (index.setWidth 2)) =
    .frame (0x30#8 ++ 0x00#8 ++ (index &&& 0x03#8) ++ 0x00#8)) ∧
  ∀ (c : Config) (index : Byte) (s : State),
    (let t := progEnable c s
     t.cmd = ⟨0xAC#8, 0x53#8, 0x00#8, 0x00#8⟩ ∧ t.rsp = responseFrame c s.toDriver ∧
     t.trace = s.trace ++ frameEvents c [⟨0xAC#8, 0x53#8, 0x00#8, 0x00#8⟩] s.toDriver ∧
     (echoOk t.rsp = true ↔ receivedByte c s.toDriver 2 = 0x53#8) ∧
     t.busyf = s.busyf ∧ t.phase = s.phase ∧
     t.port.getLsbD c.rst = s.port.getLsbD c.rst) ∧
    (let t := readSig c index s
     t.cmd = ⟨0x30#8, 0x00#8, index &&& 0x03#8, 0x00#8⟩ ∧ t.rsp = responseFrame c s.toDriver ∧
     t.trace = s.trace ++ frameEvents c [⟨0x30#8, 0x00#8, index &&& 0x03#8, 0x00#8⟩] s.toDriver ∧
     valueOf t.rsp = receivedByte c s.toDriver 3 ∧
     t.busyf = s.busyf ∧ t.phase = s.phase ∧
     t.port.getLsbD c.rst = s.port.getLsbD c.rst) ∧
    (let t := pollBusy c s
     t.cmd = ⟨0xF0#8, 0x00#8, 0x00#8, 0x00#8⟩ ∧ t.rsp = responseFrame c s.toDriver ∧
     t.trace = s.trace ++ frameEvents c [⟨0xF0#8, 0x00#8, 0x00#8, 0x00#8⟩] s.toDriver ∧
     t.busyf = (receivedByte c s.toDriver 3).getLsbD 0 ∧ t.phase = s.phase ∧
     t.port.getLsbD c.rst = s.port.getLsbD c.rst)
end

