-- ==== Sys2Proof/Laws/Decode.lean ====
section
/-! SUPPORT. The frame decoder: the rows of R72 exclude one another, a word that matches a row is that
row's instruction, and a word that is an instruction matches its row (30_encoding.md R72). -/

namespace Sys2Proof

/-- Two rows whose values differ in a bit both masks keep match no word together. -/
theorem rows_exclude {m v m' v' : FrameWord} (h : (v ^^^ v') &&& (m &&& m') ≠ 0#32) (F : FrameWord)
    (h1 : F &&& m = v) : F &&& m' ≠ v' := by
  rintro rfl
  subst h1
  apply h
  apply BitVec.eq_of_getLsbD_eq
  intro i hi
  simp
  cases F.getLsbD i <;> cases m.getLsbD i <;> cases m'.getLsbD i <;> simp

/-- A word that matches the `k`-th row is the instruction of that row. -/
theorem decodeFrame_of_row {F : FrameWord} {r : FrameRow} (k : Nat) (hk : frameRows[k]? = some r)
    (h : F &&& r.mask = r.value) : decodeFrame F = .ok (r.build F) := by
  have hk9 : k < 9 := (List.getElem?_eq_some_iff.1 hk).1
  have hf : frameRows.find? (fun r => r.matches F) = some r := by
    unfold frameRows at hk ⊢
    simp only [List.find?, FrameRow.matches]
    interval_cases k <;> (simp at hk; subst hk; simp only at h)
    all_goals
      repeat' split
      all_goals first
        | rfl
        | (rename_i h'; simp only [beq_iff_eq] at h'
           exact absurd h' (rows_exclude (by decide) F h))
        | (simp only [beq_eq_false_iff_ne] at *; contradiction)
  simp [decodeFrame, hf]

/-- A word that is an instruction matches that instruction's row. -/
theorem decodeFrame_ok {F : FrameWord} {i : Instr} (h : decodeFrame F = .ok i) :
    ∃ r : FrameRow, r ∈ frameRows ∧ F &&& r.mask = r.value ∧ r.build F = i := by
  unfold decodeFrame at h
  split at h
  · next r hr =>
    have h1 := List.find?_some hr
    exact ⟨r, List.mem_of_find?_eq_some hr, by simpa [FrameRow.matches] using h1, by simpa using h⟩
  · cases h

end Sys2Proof
end

