-- ==== Sys2Proof/Laws/Memory.lean ====
section
/-! SUPPORT. The laws of the I/O space: a read after a write, and the canonical form. -/

namespace Sys2Proof.Machine

open Sys2Proof

@[simp] theorem Memory.read_nil (a : Nat) : Memory.read [] a = none := rfl

/-- A read after a write to the same address gives the byte written. -/
@[simp] theorem Memory.read_write_same (m : Memory) (a : Nat) (v : Byte) :
    (m.write a v).read a = some v := by
  induction m with
  | nil => simp [Memory.write, Memory.read]
  | cons x m ih =>
    obtain ⟨b, w⟩ := x
    unfold Memory.write
    split
    · simp [Memory.read]
    · split
      · simp [Memory.read]
      · next h => simp only [Memory.read, h, if_false, ih]

/-- A write leaves every other address alone. -/
theorem Memory.read_write_other (m : Memory) {a x : Nat} (v : Byte) (h : x ≠ a) :
    (m.write a v).read x = m.read x := by
  induction m with
  | nil => simp [Memory.write, Memory.read, h]
  | cons y m ih =>
    obtain ⟨b, w⟩ := y
    unfold Memory.write
    split
    · simp [Memory.read, h]
    · split
      · next hb => subst hb; simp [Memory.read, h]
      · simp [Memory.read, ih]

/-- The second of two writes to one address is the one that counts. -/
@[simp] theorem Memory.write_write (m : Memory) (a : Nat) (v w : Byte) :
    (m.write a v).write a w = m.write a w := by
  induction m with
  | nil => simp [Memory.write]
  | cons y m ih =>
    obtain ⟨b, u⟩ := y
    by_cases h : a < b
    · simp [Memory.write, h]
    · by_cases e : a = b
      · subst e; simp [Memory.write]
      · simp [Memory.write, h, e, ih]

/-- Every address of a written memory is the one written or was there before. -/
theorem Memory.mem_write (m : Memory) (a : Nat) (v : Byte) (x : Host.Cell) (hx : x ∈ m.write a v) :
    x.1 = a ∨ x ∈ m := by
  induction m with
  | nil => simp [Memory.write] at hx; exact .inl (by rw [hx])
  | cons y m ih =>
    obtain ⟨b, u⟩ := y
    unfold Memory.write at hx
    split at hx
    · rcases List.mem_cons.1 hx with rfl | h
      · exact .inl rfl
      · exact .inr h
    · split at hx
      · rcases List.mem_cons.1 hx with rfl | h
        · exact .inl rfl
        · exact .inr (List.mem_cons_of_mem _ h)
      · rcases List.mem_cons.1 hx with rfl | h
        · exact .inr (List.mem_cons_self)
        · exact (ih h).imp id (List.mem_cons_of_mem _)

/-- A write keeps the canonical form. -/
theorem Memory.wf_write {m : Memory} (a : Nat) (v : Byte) (h : m.wf) : (m.write a v).wf := by
  induction m with
  | nil => simp [Memory.write]
  | cons y m ih =>
    obtain ⟨b, u⟩ := y
    have hm := List.pairwise_cons.1 h
    unfold Memory.write
    split
    · next hab =>
      refine List.pairwise_cons.2 ⟨fun x hx => ?_, h⟩
      rcases List.mem_cons.1 hx with rfl | hx
      · exact hab
      · exact lt_trans hab (hm.1 x hx)
    · split
      · next e => subst e; exact List.pairwise_cons.2 ⟨hm.1, hm.2⟩
      · next h1 h2 =>
        refine List.pairwise_cons.2 ⟨fun x hx => ?_, ih hm.2⟩
        rcases Memory.mem_write m a v x hx with e | hx
        · show b < x.1
          omega
        · exact hm.1 x hx

end Sys2Proof.Machine
end

