-- ==== Sys2Proof/Laws/Driver.lean ====
section
/-! SUPPORT. The laws of the Signal Driver: SetBit changes its own bit and no other, and what each
driver action does in full. -/

namespace Sys2Proof.Machine

open Sys2Proof

/-- SetBit's byte: the bit named is `b`, the seven others are as before (R90). -/
theorem withBit_getLsbD (pos : Fin 8) (b : Bool) (old : Byte) (i : Nat) (hi : i < 8) :
    (withBit pos b old).getLsbD i = if i = pos.val then b else old.getLsbD i := by
  have hp := pos.isLt
  by_cases e : i = pos.val
  · subst e
    cases b <;> simp [withBit]
  · cases b
    · simp [withBit, hi, e]
      intro _
      rcases Nat.lt_or_ge i pos.val with h | h
      · exact .inl h
      · right; omega
    · simp [withBit, hi, e]
      rcases Nat.lt_or_ge i pos.val with h | h
      · simp [h]
      · have : i - pos.val ≠ 0 := by omega
        simp [this]

theorem withBit_own (pos : Fin 8) (b : Bool) (old : Byte) :
    (withBit pos b old).getLsbD pos.val = b := by
  rw [withBit_getLsbD _ _ _ _ pos.isLt, if_pos rfl]

theorem withBit_other {pos q : Fin 8} (b : Bool) (old : Byte) (h : q ≠ pos) :
    (withBit pos b old).getLsbD q.val = old.getLsbD q.val := by
  rw [withBit_getLsbD _ _ _ _ q.isLt, if_neg (fun e => h (Fin.ext e))]

/-- Setting a bit twice. -/
@[simp] theorem withBit_withBit (pos : Fin 8) (a b : Bool) (old : Byte) :
    withBit pos b (withBit pos a old) = withBit pos b old := by
  apply BitVec.eq_of_getLsbD_eq
  intro i hi
  simp only [withBit_getLsbD _ _ _ _ hi]
  split <;> rfl

/-- Two different bits can be set in either order. -/
theorem withBit_comm {p q : Fin 8} (h : p ≠ q) (a b : Bool) (old : Byte) :
    withBit p a (withBit q b old) = withBit q b (withBit p a old) := by
  apply BitVec.eq_of_getLsbD_eq
  intro i hi
  simp only [withBit_getLsbD _ _ _ _ hi]
  by_cases e1 : i = p.val
  · by_cases e2 : i = q.val
    · exact absurd (Fin.ext (e1.symm.trans e2)) h
    · simp [e1, show p.val ≠ q.val from fun e => h (Fin.ext e)]
  · simp [e1]

/-- Setting a bit to the level it has changes nothing. -/
theorem withBit_self (p : Fin 8) (old : Byte) : withBit p (old.getLsbD p.val) old = old := by
  apply BitVec.eq_of_getLsbD_eq
  intro i hi
  rw [withBit_getLsbD _ _ _ _ hi]
  split
  · next e => rw [e]
  · rfl

/-- SetBit in full (R90): PORT, the platform register and one event, nothing else. -/
theorem Driver.setBit_eq (c : Config) (pos : Fin 8) (b : Bool) (d : Driver) :
    d.setBit c pos b = d.afterWrite c (withBit pos b d.port) := rfl

/-- READ_MISO in full (R94): the level of the coming answer; one answer used, one event, MISO_L. -/
theorem Driver.readMiso_eq (c : Config) (d : Driver) :
    d.readMiso c = (sampleAt c d 0,
      { d with
        misoL := sampleAt c d 0
        trace := d.trace ++ [.read c.statusAddr (d.answer 0)]
        answers := d.answers.drop 1
        freeReads := d.freeReads + (1 - d.answers.length) }) := by
  unfold Driver.readMiso Driver.memRead Driver.useAnswer sampleAt
  cases h : d.answers <;> simp

/-- The answers to come are unchanged by what uses none. -/
theorem Driver.answer_congr {d e : Driver} (ha : e.answers = d.answers)
    (hf : e.freeReads = d.freeReads) (n : Nat) : e.answer n = d.answer n := by
  simp [Driver.answer, ha, hf]

/-- After `k` answers have been used the `n`-th to come is the one that was `n + k`-th. -/
theorem Driver.answer_drop {d e : Driver} (k : Nat) (ha : e.answers = d.answers.drop k)
    (hf : e.freeReads = d.freeReads + (k - d.answers.length)) (n : Nat) :
    e.answer n = d.answer (k + n) := by
  simp only [Driver.answer, ha, hf, List.getElem?_drop, List.length_drop]
  split
  · rfl
  · next h =>
    rw [List.getElem?_eq_none_iff] at h
    congr 1
    omega

end Sys2Proof.Machine
end

