-- ==== Sys2Proof/Laws/Shift.lean ====
section
/-! SUPPORT. The SPI Transfer Engine in closed form: what a bit, a byte and a transfer of any length
leave in the driver and the shifter (R100 to R102). -/

namespace Sys2Proof.Machine

open Sys2Proof

/-- Only the last bit driven is left in PORT. -/
@[simp] theorem afterBit_afterBit (c : Config) (p : Byte) (a b : Bool) :
    afterBit c (afterBit c p a) b = afterBit c p b := by
  simp only [afterBit]
  rw [withBit_comm c.mosi_ne_sck b false (withBit c.mosi a p), withBit_withBit, withBit_withBit]

theorem streamPort_append (c : Config) (l₁ l₂ : List Bool) (p : Byte) :
    streamPort c (l₁ ++ l₂) p = streamPort c l₂ (streamPort c l₁ p) := by
  rcases List.eq_nil_or_concat l₂ with rfl | ⟨l, b, rfl⟩
  · simp [streamPort]
  · have h : afterBit c (streamPort c l₁ p) b = afterBit c p b := by
      unfold streamPort
      split
      · rfl
      · exact afterBit_afterBit c p _ b
    rw [List.concat_eq_append, ← List.append_assoc]
    simp only [streamPort, List.getLast?_concat] at h ⊢
    exact h.symm

theorem streamPort_cons (c : Config) (b : Bool) (l : List Bool) (p : Byte) :
    streamPort c (b :: l) p = streamPort c l (afterBit c p b) :=
  streamPort_append c [b] l p

theorem streamEvents_append (c : Config) (ans : Nat → Byte) (l₁ l₂ : List Bool) (p : Byte) :
    streamEvents c ans (l₁ ++ l₂) p =
      streamEvents c ans l₁ p ++
        streamEvents c (fun n => ans (l₁.length + n)) l₂ (streamPort c l₁ p) := by
  induction l₁ generalizing ans p with
  | nil => simp [streamEvents, streamPort]
  | cons b l₁ ih =>
    simp only [List.cons_append, streamEvents, ih, streamPort_cons, List.append_assoc,
      List.length_cons]
    congr 3
    funext n
    congr 1
    omega

theorem streamEvents_length (c : Config) (ans : Nat → Byte) (l : List Bool) (p : Byte) :
    (streamEvents c ans l p).length = 4 * l.length := by
  induction l generalizing ans p with
  | nil => rfl
  | cons b l ih => simp only [streamEvents, bitEvents, List.length_append, ih]; simp; omega

@[simp] theorem Driver.afterStream_nil (c : Config) (d : Driver) : d.afterStream c [] = d := by
  simp [Driver.afterStream]

theorem Driver.afterStream_port (c : Config) (l : List Bool) (d : Driver) :
    (d.afterStream c l).port = streamPort c l d.port := by
  unfold Driver.afterStream
  split
  · next h => subst h; rfl
  · rfl

theorem Driver.afterStream_trace (c : Config) (l : List Bool) (d : Driver) :
    (d.afterStream c l).trace = d.trace ++ streamEvents c d.answer l d.port := by
  unfold Driver.afterStream
  split
  · next h => subst h; simp [streamEvents]
  · rfl

theorem Driver.afterStream_answer (c : Config) (l : List Bool) (d : Driver) (n : Nat) :
    (d.afterStream c l).answer n = d.answer (l.length + n) := by
  unfold Driver.afterStream
  split
  · next h => subst h; simp
  · exact Driver.answer_drop l.length rfl rfl n

theorem sampleAt_afterStream (c : Config) (l : List Bool) (d : Driver) (n : Nat) :
    sampleAt c (d.afterStream c l) n = sampleAt c d (l.length + n) := by
  simp [sampleAt, Driver.afterStream_answer]

/-- Two streams with nothing between them are one stream (R102). -/
theorem Driver.afterStream_append (c : Config) (l₁ l₂ : List Bool) (d : Driver) :
    d.afterStream c (l₁ ++ l₂) = (d.afterStream c l₁).afterStream c l₂ := by
  by_cases h₁ : l₁ = []
  · subst h₁; simp
  by_cases h₂ : l₂ = []
  · subst h₂; simp
  have hp := List.length_pos_iff.2 h₂
  have hd := Driver.afterStream_answer c l₁ d
  have hs := sampleAt_afterStream c l₁ d
  have e : (d.afterStream c l₁).answer = fun n => d.answer (l₁.length + n) := funext hd
  rw [Driver.afterStream, if_neg (by simp [h₁]),
    Driver.afterStream.eq_1 c l₂ (d.afterStream c l₁), if_neg h₂, e, hs]
  simp only [Driver.afterStream, if_neg h₁, Driver.mk.injEq, streamPort_append,
    streamEvents_append, List.append_assoc, Memory.write_write, List.length_append,
    List.drop_drop, List.length_drop, true_and]
  refine ⟨?_, ?_⟩
  · congr 1; omega
  · omega

/-- SHIFT_BIT in full (R100). -/
theorem shiftBit_eq (c : Config) (s : Shifter) :
    shiftBit c s =
      { toDriver := s.toDriver.afterStream c [s.txsr.getLsbD 7]
        txsr := s.txsr <<< 1
        rxsr := (s.rxsr <<< 1) ||| (BitVec.ofBool (sampleAt c s.toDriver 0)).setWidth 8
        bitcnt := s.bitcnt + 1
        byteidx := s.byteidx } := by
  simp only [shiftBit, Shifter.sample, Shifter.drive, Shifter.pulse, Shifter.onDriver,
    Driver.readMiso_eq, Driver.setMosi, Driver.setSck, Driver.setBit_eq, Driver.afterWrite,
    Driver.afterStream, streamPort, streamEvents, bitEvents, afterBit]
  simp

/-- The eight samples of a byte position, folded in most significant bit first, are the byte MISO
spells, whatever RXSR held before (R24, R101). -/
theorem fold_samples (r : Byte) (m : Nat → Bool) :
    ((((((((((((((((r <<< 1) ||| (BitVec.ofBool (m 0)).setWidth 8) <<< 1)
      ||| (BitVec.ofBool (m 1)).setWidth 8) <<< 1) ||| (BitVec.ofBool (m 2)).setWidth 8) <<< 1)
      ||| (BitVec.ofBool (m 3)).setWidth 8) <<< 1) ||| (BitVec.ofBool (m 4)).setWidth 8) <<< 1)
      ||| (BitVec.ofBool (m 5)).setWidth 8) <<< 1) ||| (BitVec.ofBool (m 6)).setWidth 8) <<< 1)
      ||| (BitVec.ofBool (m 7)).setWidth 8) = byteOfBits m := by
  apply BitVec.eq_of_getLsbD_eq
  intro i hi
  interval_cases i <;> simp [byteOfBits, BitVec.ofBoolListBE, BitVec.getElem_cons]

/-- SHIFT_BYTE in full (R101). -/
theorem shiftByte_eq (c : Config) (b : Byte) (s : Shifter) :
    shiftByte c b s =
      { toDriver := s.toDriver.afterStream c (bitsOf b)
        txsr := 0#8
        rxsr := receivedByte c s.toDriver 0
        bitcnt := 8
        byteidx := s.byteidx } := by
  have hb : bitsOf b = [b.getLsbD 7] ++ ([b.getLsbD 6] ++ ([b.getLsbD 5] ++ ([b.getLsbD 4] ++
      ([b.getLsbD 3] ++ ([b.getLsbD 2] ++ ([b.getLsbD 1] ++ [b.getLsbD 0])))))) := rfl
  rw [hb]
  simp only [shiftByte, shiftBits, shiftBit_eq, Driver.afterStream_append, sampleAt_afterStream,
    List.length_cons, List.length_nil, receivedByte, ← fold_samples s.rxsr]
  simp

@[simp] theorem bitsOf_length (b : Byte) : (bitsOf b).length = 8 := rfl

theorem bitStream_cons (b : Byte) (bs : List Byte) : bitStream (b :: bs) = bitsOf b ++ bitStream bs :=
  rfl

theorem bitStream_append (l₁ l₂ : List Byte) :
    bitStream (l₁ ++ l₂) = bitStream l₁ ++ bitStream l₂ := by
  simp [bitStream]

@[simp] theorem bitStream_length (bs : List Byte) : (bitStream bs).length = 8 * bs.length := by
  induction bs with
  | nil => rfl
  | cons b bs ih => rw [bitStream_cons, List.length_append, ih]; simp; omega

theorem receivedByte_afterStream (c : Config) (l : List Byte) (d : Driver) (j : Nat) :
    receivedByte c (d.afterStream c (bitStream l)) j = receivedByte c d (l.length + j) := by
  simp only [receivedByte, sampleAt_afterStream, bitStream_length]
  congr 1
  funext k
  congr 1
  omega

theorem received_length (c : Config) (d : Driver) (n : Nat) : (received c d n).length = n := by
  simp [received]

theorem received_cons (c : Config) (b : Byte) (d : Driver) (n : Nat) :
    received c d (n + 1) =
      receivedByte c d 0 :: received c (d.afterStream c (bitsOf b)) n := by
  have h := receivedByte_afterStream c [b] d
  simp only [bitStream, List.flatMap_cons, List.flatMap_nil, List.append_nil] at h
  simp only [received, List.range_succ_eq_map, List.map_cons, List.map_map]
  congr 1
  apply List.map_congr_left
  intro j _
  rw [h, Function.comp_apply, List.length_singleton, Nat.succ_eq_add_one, Nat.add_comm]

/-- TRANSFER from a byte position on, in full. -/
theorem transferFrom_eq (c : Config) (out : List Byte) (j : Nat) (s : Shifter) :
    transferFrom c j out s =
      (received c s.toDriver out.length,
        if out = [] then s else
          { toDriver := s.toDriver.afterStream c (bitStream out)
            txsr := 0#8
            rxsr := receivedByte c s.toDriver (out.length - 1)
            bitcnt := 8
            byteidx := j + (out.length - 1) }) := by
  induction out generalizing j s with
  | nil => simp [transferFrom, received]
  | cons b out ih =>
    simp only [transferFrom, ih, shiftByte_eq, List.length_cons]
    rw [← received_cons c b s.toDriver out.length]
    simp only [reduceCtorEq, if_false]
    split
    · next h => subst h; simp [bitStream]
    · next h =>
      have hp := List.length_pos_iff.2 h
      have hr := receivedByte_afterStream c [b] s.toDriver (out.length - 1)
      simp only [bitStream, List.flatMap_cons, List.flatMap_nil, List.append_nil,
        List.length_singleton] at hr
      rw [bitStream_cons, Driver.afterStream_append, hr]
      simp only [Prod.mk.injEq, Shifter.mk.injEq, true_and]
      refine ⟨?_, ?_⟩
      · congr 1; omega
      · omega

/-- TRANSFER in full (R102): as many bytes come back as go out, and the state is the closed form. -/
theorem transfer_eq (c : Config) (out : List Byte) (s : Shifter) :
    transfer c out s = (received c s.toDriver out.length, s.afterTransfer c out) := by
  simp [transfer, transferFrom_eq, Shifter.afterTransfer]

end Sys2Proof.Machine
end

