-- ==== Sys2Proof/Laws/State.lean ====
section
/-! SUPPORT. One lemma per field per update of the state: what each named update writes, and that it
leaves every other field alone. They are tagged simp, so that no proof unfolds a record update. Each
proof opens the state first: simp then rewrites with the lemma, and the kernel is not left to compare
two evaluated states. -/

namespace Sys2Proof.Machine

open Sys2Proof

/-! ### State.setLvl -/

@[simp] theorem State.setLvl_toShifter (b : Bool) (s : State) :
    (s.setLvl b).toShifter = s.toShifter := by cases s; rfl

@[simp] theorem State.setLvl_cmd (b : Bool) (s : State) : (s.setLvl b).cmd = s.cmd := by
  cases s; rfl

@[simp] theorem State.setLvl_rsp (b : Bool) (s : State) : (s.setLvl b).rsp = s.rsp := by
  cases s; rfl

@[simp] theorem State.setLvl_page (b : Bool) (s : State) : (s.setLvl b).page = s.page := by
  cases s; rfl

@[simp] theorem State.setLvl_sigidx (b : Bool) (s : State) : (s.setLvl b).sigidx = s.sigidx := by
  cases s; rfl

@[simp] theorem State.setLvl_pageidx (b : Bool) (s : State) : (s.setLvl b).pageidx = s.pageidx := by
  cases s; rfl

@[simp] theorem State.setLvl_addr (b : Bool) (s : State) : (s.setLvl b).addr = s.addr := by
  cases s; rfl

@[simp] theorem State.setLvl_lvl (b : Bool) (s : State) : (s.setLvl b).lvl = b := by
  cases s; rfl

@[simp] theorem State.setLvl_attempt (b : Bool) (s : State) : (s.setLvl b).attempt = s.attempt := by
  cases s; rfl

@[simp] theorem State.setLvl_loadidx (b : Bool) (s : State) : (s.setLvl b).loadidx = s.loadidx := by
  cases s; rfl

@[simp] theorem State.setLvl_pollcnt (b : Bool) (s : State) : (s.setLvl b).pollcnt = s.pollcnt := by
  cases s; rfl

@[simp] theorem State.setLvl_phase (b : Bool) (s : State) : (s.setLvl b).phase = s.phase := by
  cases s; rfl

@[simp] theorem State.setLvl_busyf (b : Bool) (s : State) : (s.setLvl b).busyf = s.busyf := by
  cases s; rfl

@[simp] theorem State.setLvl_result (b : Bool) (s : State) : (s.setLvl b).result = s.result := by
  cases s; rfl

@[simp] theorem State.setLvl_results (b : Bool) (s : State) : (s.setLvl b).results = s.results := by
  cases s; rfl

@[simp] theorem State.setLvl_seq (b : Bool) (s : State) : (s.setLvl b).seq = s.seq := by
  cases s; rfl

@[simp] theorem State.setLvl_cfg (b : Bool) (s : State) : (s.setLvl b).cfg = s.cfg := by
  cases s; rfl

@[simp] theorem State.setLvl_requests (b : Bool) (s : State) : (s.setLvl b).requests = s.requests := by
  cases s; rfl

/-! ### State.setSigidx -/

@[simp] theorem State.setSigidx_toShifter (i : Byte) (s : State) :
    (s.setSigidx i).toShifter = s.toShifter := by cases s; rfl

@[simp] theorem State.setSigidx_cmd (i : Byte) (s : State) : (s.setSigidx i).cmd = s.cmd := by
  cases s; rfl

@[simp] theorem State.setSigidx_rsp (i : Byte) (s : State) : (s.setSigidx i).rsp = s.rsp := by
  cases s; rfl

@[simp] theorem State.setSigidx_page (i : Byte) (s : State) : (s.setSigidx i).page = s.page := by
  cases s; rfl

@[simp] theorem State.setSigidx_sigidx (i : Byte) (s : State) : (s.setSigidx i).sigidx = i := by
  cases s; rfl

@[simp] theorem State.setSigidx_pageidx (i : Byte) (s : State) : (s.setSigidx i).pageidx = s.pageidx := by
  cases s; rfl

@[simp] theorem State.setSigidx_addr (i : Byte) (s : State) : (s.setSigidx i).addr = s.addr := by
  cases s; rfl

@[simp] theorem State.setSigidx_lvl (i : Byte) (s : State) : (s.setSigidx i).lvl = s.lvl := by
  cases s; rfl

@[simp] theorem State.setSigidx_attempt (i : Byte) (s : State) : (s.setSigidx i).attempt = s.attempt := by
  cases s; rfl

@[simp] theorem State.setSigidx_loadidx (i : Byte) (s : State) : (s.setSigidx i).loadidx = s.loadidx := by
  cases s; rfl

@[simp] theorem State.setSigidx_pollcnt (i : Byte) (s : State) : (s.setSigidx i).pollcnt = s.pollcnt := by
  cases s; rfl

@[simp] theorem State.setSigidx_phase (i : Byte) (s : State) : (s.setSigidx i).phase = s.phase := by
  cases s; rfl

@[simp] theorem State.setSigidx_busyf (i : Byte) (s : State) : (s.setSigidx i).busyf = s.busyf := by
  cases s; rfl

@[simp] theorem State.setSigidx_result (i : Byte) (s : State) : (s.setSigidx i).result = s.result := by
  cases s; rfl

@[simp] theorem State.setSigidx_results (i : Byte) (s : State) : (s.setSigidx i).results = s.results := by
  cases s; rfl

@[simp] theorem State.setSigidx_seq (i : Byte) (s : State) : (s.setSigidx i).seq = s.seq := by
  cases s; rfl

@[simp] theorem State.setSigidx_cfg (i : Byte) (s : State) : (s.setSigidx i).cfg = s.cfg := by
  cases s; rfl

@[simp] theorem State.setSigidx_requests (i : Byte) (s : State) : (s.setSigidx i).requests = s.requests := by
  cases s; rfl

/-! ### State.setAddr -/

@[simp] theorem State.setAddr_toShifter (a : FlashAddr) (s : State) :
    (s.setAddr a).toShifter = s.toShifter := by cases s; rfl

@[simp] theorem State.setAddr_cmd (a : FlashAddr) (s : State) : (s.setAddr a).cmd = s.cmd := by
  cases s; rfl

@[simp] theorem State.setAddr_rsp (a : FlashAddr) (s : State) : (s.setAddr a).rsp = s.rsp := by
  cases s; rfl

@[simp] theorem State.setAddr_page (a : FlashAddr) (s : State) : (s.setAddr a).page = s.page := by
  cases s; rfl

@[simp] theorem State.setAddr_sigidx (a : FlashAddr) (s : State) : (s.setAddr a).sigidx = s.sigidx := by
  cases s; rfl

@[simp] theorem State.setAddr_pageidx (a : FlashAddr) (s : State) : (s.setAddr a).pageidx = s.pageidx := by
  cases s; rfl

@[simp] theorem State.setAddr_addr (a : FlashAddr) (s : State) : (s.setAddr a).addr = a := by
  cases s; rfl

@[simp] theorem State.setAddr_lvl (a : FlashAddr) (s : State) : (s.setAddr a).lvl = s.lvl := by
  cases s; rfl

@[simp] theorem State.setAddr_attempt (a : FlashAddr) (s : State) : (s.setAddr a).attempt = s.attempt := by
  cases s; rfl

@[simp] theorem State.setAddr_loadidx (a : FlashAddr) (s : State) : (s.setAddr a).loadidx = s.loadidx := by
  cases s; rfl

@[simp] theorem State.setAddr_pollcnt (a : FlashAddr) (s : State) : (s.setAddr a).pollcnt = s.pollcnt := by
  cases s; rfl

@[simp] theorem State.setAddr_phase (a : FlashAddr) (s : State) : (s.setAddr a).phase = s.phase := by
  cases s; rfl

@[simp] theorem State.setAddr_busyf (a : FlashAddr) (s : State) : (s.setAddr a).busyf = s.busyf := by
  cases s; rfl

@[simp] theorem State.setAddr_result (a : FlashAddr) (s : State) : (s.setAddr a).result = s.result := by
  cases s; rfl

@[simp] theorem State.setAddr_results (a : FlashAddr) (s : State) : (s.setAddr a).results = s.results := by
  cases s; rfl

@[simp] theorem State.setAddr_seq (a : FlashAddr) (s : State) : (s.setAddr a).seq = s.seq := by
  cases s; rfl

@[simp] theorem State.setAddr_cfg (a : FlashAddr) (s : State) : (s.setAddr a).cfg = s.cfg := by
  cases s; rfl

@[simp] theorem State.setAddr_requests (a : FlashAddr) (s : State) : (s.setAddr a).requests = s.requests := by
  cases s; rfl

/-! ### State.setPage -/

@[simp] theorem State.setPage_toShifter (l : List Byte) (p : Byte) (s : State) :
    (s.setPage l p).toShifter = s.toShifter := by cases s; rfl

@[simp] theorem State.setPage_cmd (l : List Byte) (p : Byte) (s : State) : (s.setPage l p).cmd = s.cmd := by
  cases s; rfl

@[simp] theorem State.setPage_rsp (l : List Byte) (p : Byte) (s : State) : (s.setPage l p).rsp = s.rsp := by
  cases s; rfl

@[simp] theorem State.setPage_page (l : List Byte) (p : Byte) (s : State) : (s.setPage l p).page = l := by
  cases s; rfl

@[simp] theorem State.setPage_sigidx (l : List Byte) (p : Byte) (s : State) : (s.setPage l p).sigidx = s.sigidx := by
  cases s; rfl

@[simp] theorem State.setPage_pageidx (l : List Byte) (p : Byte) (s : State) : (s.setPage l p).pageidx = p := by
  cases s; rfl

@[simp] theorem State.setPage_addr (l : List Byte) (p : Byte) (s : State) : (s.setPage l p).addr = s.addr := by
  cases s; rfl

@[simp] theorem State.setPage_lvl (l : List Byte) (p : Byte) (s : State) : (s.setPage l p).lvl = s.lvl := by
  cases s; rfl

@[simp] theorem State.setPage_attempt (l : List Byte) (p : Byte) (s : State) : (s.setPage l p).attempt = s.attempt := by
  cases s; rfl

@[simp] theorem State.setPage_loadidx (l : List Byte) (p : Byte) (s : State) : (s.setPage l p).loadidx = s.loadidx := by
  cases s; rfl

@[simp] theorem State.setPage_pollcnt (l : List Byte) (p : Byte) (s : State) : (s.setPage l p).pollcnt = s.pollcnt := by
  cases s; rfl

@[simp] theorem State.setPage_phase (l : List Byte) (p : Byte) (s : State) : (s.setPage l p).phase = s.phase := by
  cases s; rfl

@[simp] theorem State.setPage_busyf (l : List Byte) (p : Byte) (s : State) : (s.setPage l p).busyf = s.busyf := by
  cases s; rfl

@[simp] theorem State.setPage_result (l : List Byte) (p : Byte) (s : State) : (s.setPage l p).result = s.result := by
  cases s; rfl

@[simp] theorem State.setPage_results (l : List Byte) (p : Byte) (s : State) : (s.setPage l p).results = s.results := by
  cases s; rfl

@[simp] theorem State.setPage_seq (l : List Byte) (p : Byte) (s : State) : (s.setPage l p).seq = s.seq := by
  cases s; rfl

@[simp] theorem State.setPage_cfg (l : List Byte) (p : Byte) (s : State) : (s.setPage l p).cfg = s.cfg := by
  cases s; rfl

@[simp] theorem State.setPage_requests (l : List Byte) (p : Byte) (s : State) : (s.setPage l p).requests = s.requests := by
  cases s; rfl

/-! ### State.setAttempt -/

@[simp] theorem State.setAttempt_toShifter (n : Nat) (s : State) :
    (s.setAttempt n).toShifter = s.toShifter := by cases s; rfl

@[simp] theorem State.setAttempt_cmd (n : Nat) (s : State) : (s.setAttempt n).cmd = s.cmd := by
  cases s; rfl

@[simp] theorem State.setAttempt_rsp (n : Nat) (s : State) : (s.setAttempt n).rsp = s.rsp := by
  cases s; rfl

@[simp] theorem State.setAttempt_page (n : Nat) (s : State) : (s.setAttempt n).page = s.page := by
  cases s; rfl

@[simp] theorem State.setAttempt_sigidx (n : Nat) (s : State) : (s.setAttempt n).sigidx = s.sigidx := by
  cases s; rfl

@[simp] theorem State.setAttempt_pageidx (n : Nat) (s : State) : (s.setAttempt n).pageidx = s.pageidx := by
  cases s; rfl

@[simp] theorem State.setAttempt_addr (n : Nat) (s : State) : (s.setAttempt n).addr = s.addr := by
  cases s; rfl

@[simp] theorem State.setAttempt_lvl (n : Nat) (s : State) : (s.setAttempt n).lvl = s.lvl := by
  cases s; rfl

@[simp] theorem State.setAttempt_attempt (n : Nat) (s : State) : (s.setAttempt n).attempt = n := by
  cases s; rfl

@[simp] theorem State.setAttempt_loadidx (n : Nat) (s : State) : (s.setAttempt n).loadidx = s.loadidx := by
  cases s; rfl

@[simp] theorem State.setAttempt_pollcnt (n : Nat) (s : State) : (s.setAttempt n).pollcnt = s.pollcnt := by
  cases s; rfl

@[simp] theorem State.setAttempt_phase (n : Nat) (s : State) : (s.setAttempt n).phase = s.phase := by
  cases s; rfl

@[simp] theorem State.setAttempt_busyf (n : Nat) (s : State) : (s.setAttempt n).busyf = s.busyf := by
  cases s; rfl

@[simp] theorem State.setAttempt_result (n : Nat) (s : State) : (s.setAttempt n).result = s.result := by
  cases s; rfl

@[simp] theorem State.setAttempt_results (n : Nat) (s : State) : (s.setAttempt n).results = s.results := by
  cases s; rfl

@[simp] theorem State.setAttempt_seq (n : Nat) (s : State) : (s.setAttempt n).seq = s.seq := by
  cases s; rfl

@[simp] theorem State.setAttempt_cfg (n : Nat) (s : State) : (s.setAttempt n).cfg = s.cfg := by
  cases s; rfl

@[simp] theorem State.setAttempt_requests (n : Nat) (s : State) : (s.setAttempt n).requests = s.requests := by
  cases s; rfl

/-! ### State.setLoadidx -/

@[simp] theorem State.setLoadidx_toShifter (n : Nat) (s : State) :
    (s.setLoadidx n).toShifter = s.toShifter := by cases s; rfl

@[simp] theorem State.setLoadidx_cmd (n : Nat) (s : State) : (s.setLoadidx n).cmd = s.cmd := by
  cases s; rfl

@[simp] theorem State.setLoadidx_rsp (n : Nat) (s : State) : (s.setLoadidx n).rsp = s.rsp := by
  cases s; rfl

@[simp] theorem State.setLoadidx_page (n : Nat) (s : State) : (s.setLoadidx n).page = s.page := by
  cases s; rfl

@[simp] theorem State.setLoadidx_sigidx (n : Nat) (s : State) : (s.setLoadidx n).sigidx = s.sigidx := by
  cases s; rfl

@[simp] theorem State.setLoadidx_pageidx (n : Nat) (s : State) : (s.setLoadidx n).pageidx = s.pageidx := by
  cases s; rfl

@[simp] theorem State.setLoadidx_addr (n : Nat) (s : State) : (s.setLoadidx n).addr = s.addr := by
  cases s; rfl

@[simp] theorem State.setLoadidx_lvl (n : Nat) (s : State) : (s.setLoadidx n).lvl = s.lvl := by
  cases s; rfl

@[simp] theorem State.setLoadidx_attempt (n : Nat) (s : State) : (s.setLoadidx n).attempt = s.attempt := by
  cases s; rfl

@[simp] theorem State.setLoadidx_loadidx (n : Nat) (s : State) : (s.setLoadidx n).loadidx = n := by
  cases s; rfl

@[simp] theorem State.setLoadidx_pollcnt (n : Nat) (s : State) : (s.setLoadidx n).pollcnt = s.pollcnt := by
  cases s; rfl

@[simp] theorem State.setLoadidx_phase (n : Nat) (s : State) : (s.setLoadidx n).phase = s.phase := by
  cases s; rfl

@[simp] theorem State.setLoadidx_busyf (n : Nat) (s : State) : (s.setLoadidx n).busyf = s.busyf := by
  cases s; rfl

@[simp] theorem State.setLoadidx_result (n : Nat) (s : State) : (s.setLoadidx n).result = s.result := by
  cases s; rfl

@[simp] theorem State.setLoadidx_results (n : Nat) (s : State) : (s.setLoadidx n).results = s.results := by
  cases s; rfl

@[simp] theorem State.setLoadidx_seq (n : Nat) (s : State) : (s.setLoadidx n).seq = s.seq := by
  cases s; rfl

@[simp] theorem State.setLoadidx_cfg (n : Nat) (s : State) : (s.setLoadidx n).cfg = s.cfg := by
  cases s; rfl

@[simp] theorem State.setLoadidx_requests (n : Nat) (s : State) : (s.setLoadidx n).requests = s.requests := by
  cases s; rfl

/-! ### State.setPollcnt -/

@[simp] theorem State.setPollcnt_toShifter (n : Nat) (s : State) :
    (s.setPollcnt n).toShifter = s.toShifter := by cases s; rfl

@[simp] theorem State.setPollcnt_cmd (n : Nat) (s : State) : (s.setPollcnt n).cmd = s.cmd := by
  cases s; rfl

@[simp] theorem State.setPollcnt_rsp (n : Nat) (s : State) : (s.setPollcnt n).rsp = s.rsp := by
  cases s; rfl

@[simp] theorem State.setPollcnt_page (n : Nat) (s : State) : (s.setPollcnt n).page = s.page := by
  cases s; rfl

@[simp] theorem State.setPollcnt_sigidx (n : Nat) (s : State) : (s.setPollcnt n).sigidx = s.sigidx := by
  cases s; rfl

@[simp] theorem State.setPollcnt_pageidx (n : Nat) (s : State) : (s.setPollcnt n).pageidx = s.pageidx := by
  cases s; rfl

@[simp] theorem State.setPollcnt_addr (n : Nat) (s : State) : (s.setPollcnt n).addr = s.addr := by
  cases s; rfl

@[simp] theorem State.setPollcnt_lvl (n : Nat) (s : State) : (s.setPollcnt n).lvl = s.lvl := by
  cases s; rfl

@[simp] theorem State.setPollcnt_attempt (n : Nat) (s : State) : (s.setPollcnt n).attempt = s.attempt := by
  cases s; rfl

@[simp] theorem State.setPollcnt_loadidx (n : Nat) (s : State) : (s.setPollcnt n).loadidx = s.loadidx := by
  cases s; rfl

@[simp] theorem State.setPollcnt_pollcnt (n : Nat) (s : State) : (s.setPollcnt n).pollcnt = n := by
  cases s; rfl

@[simp] theorem State.setPollcnt_phase (n : Nat) (s : State) : (s.setPollcnt n).phase = s.phase := by
  cases s; rfl

@[simp] theorem State.setPollcnt_busyf (n : Nat) (s : State) : (s.setPollcnt n).busyf = s.busyf := by
  cases s; rfl

@[simp] theorem State.setPollcnt_result (n : Nat) (s : State) : (s.setPollcnt n).result = s.result := by
  cases s; rfl

@[simp] theorem State.setPollcnt_results (n : Nat) (s : State) : (s.setPollcnt n).results = s.results := by
  cases s; rfl

@[simp] theorem State.setPollcnt_seq (n : Nat) (s : State) : (s.setPollcnt n).seq = s.seq := by
  cases s; rfl

@[simp] theorem State.setPollcnt_cfg (n : Nat) (s : State) : (s.setPollcnt n).cfg = s.cfg := by
  cases s; rfl

@[simp] theorem State.setPollcnt_requests (n : Nat) (s : State) : (s.setPollcnt n).requests = s.requests := by
  cases s; rfl

/-! ### State.setBusyf -/

@[simp] theorem State.setBusyf_toShifter (b : Bool) (s : State) :
    (s.setBusyf b).toShifter = s.toShifter := by cases s; rfl

@[simp] theorem State.setBusyf_cmd (b : Bool) (s : State) : (s.setBusyf b).cmd = s.cmd := by
  cases s; rfl

@[simp] theorem State.setBusyf_rsp (b : Bool) (s : State) : (s.setBusyf b).rsp = s.rsp := by
  cases s; rfl

@[simp] theorem State.setBusyf_page (b : Bool) (s : State) : (s.setBusyf b).page = s.page := by
  cases s; rfl

@[simp] theorem State.setBusyf_sigidx (b : Bool) (s : State) : (s.setBusyf b).sigidx = s.sigidx := by
  cases s; rfl

@[simp] theorem State.setBusyf_pageidx (b : Bool) (s : State) : (s.setBusyf b).pageidx = s.pageidx := by
  cases s; rfl

@[simp] theorem State.setBusyf_addr (b : Bool) (s : State) : (s.setBusyf b).addr = s.addr := by
  cases s; rfl

@[simp] theorem State.setBusyf_lvl (b : Bool) (s : State) : (s.setBusyf b).lvl = s.lvl := by
  cases s; rfl

@[simp] theorem State.setBusyf_attempt (b : Bool) (s : State) : (s.setBusyf b).attempt = s.attempt := by
  cases s; rfl

@[simp] theorem State.setBusyf_loadidx (b : Bool) (s : State) : (s.setBusyf b).loadidx = s.loadidx := by
  cases s; rfl

@[simp] theorem State.setBusyf_pollcnt (b : Bool) (s : State) : (s.setBusyf b).pollcnt = s.pollcnt := by
  cases s; rfl

@[simp] theorem State.setBusyf_phase (b : Bool) (s : State) : (s.setBusyf b).phase = s.phase := by
  cases s; rfl

@[simp] theorem State.setBusyf_busyf (b : Bool) (s : State) : (s.setBusyf b).busyf = b := by
  cases s; rfl

@[simp] theorem State.setBusyf_result (b : Bool) (s : State) : (s.setBusyf b).result = s.result := by
  cases s; rfl

@[simp] theorem State.setBusyf_results (b : Bool) (s : State) : (s.setBusyf b).results = s.results := by
  cases s; rfl

@[simp] theorem State.setBusyf_seq (b : Bool) (s : State) : (s.setBusyf b).seq = s.seq := by
  cases s; rfl

@[simp] theorem State.setBusyf_cfg (b : Bool) (s : State) : (s.setBusyf b).cfg = s.cfg := by
  cases s; rfl

@[simp] theorem State.setBusyf_requests (b : Bool) (s : State) : (s.setBusyf b).requests = s.requests := by
  cases s; rfl

/-! ### State.setPhase -/

@[simp] theorem State.setPhase_toShifter (p : Phase) (s : State) :
    (s.setPhase p).toShifter = s.toShifter := by cases s; rfl

@[simp] theorem State.setPhase_cmd (p : Phase) (s : State) : (s.setPhase p).cmd = s.cmd := by
  cases s; rfl

@[simp] theorem State.setPhase_rsp (p : Phase) (s : State) : (s.setPhase p).rsp = s.rsp := by
  cases s; rfl

@[simp] theorem State.setPhase_page (p : Phase) (s : State) : (s.setPhase p).page = s.page := by
  cases s; rfl

@[simp] theorem State.setPhase_sigidx (p : Phase) (s : State) : (s.setPhase p).sigidx = s.sigidx := by
  cases s; rfl

@[simp] theorem State.setPhase_pageidx (p : Phase) (s : State) : (s.setPhase p).pageidx = s.pageidx := by
  cases s; rfl

@[simp] theorem State.setPhase_addr (p : Phase) (s : State) : (s.setPhase p).addr = s.addr := by
  cases s; rfl

@[simp] theorem State.setPhase_lvl (p : Phase) (s : State) : (s.setPhase p).lvl = s.lvl := by
  cases s; rfl

@[simp] theorem State.setPhase_attempt (p : Phase) (s : State) : (s.setPhase p).attempt = s.attempt := by
  cases s; rfl

@[simp] theorem State.setPhase_loadidx (p : Phase) (s : State) : (s.setPhase p).loadidx = s.loadidx := by
  cases s; rfl

@[simp] theorem State.setPhase_pollcnt (p : Phase) (s : State) : (s.setPhase p).pollcnt = s.pollcnt := by
  cases s; rfl

@[simp] theorem State.setPhase_phase (p : Phase) (s : State) : (s.setPhase p).phase = p := by
  cases s; rfl

@[simp] theorem State.setPhase_busyf (p : Phase) (s : State) : (s.setPhase p).busyf = s.busyf := by
  cases s; rfl

@[simp] theorem State.setPhase_result (p : Phase) (s : State) : (s.setPhase p).result = s.result := by
  cases s; rfl

@[simp] theorem State.setPhase_results (p : Phase) (s : State) : (s.setPhase p).results = s.results := by
  cases s; rfl

@[simp] theorem State.setPhase_seq (p : Phase) (s : State) : (s.setPhase p).seq = s.seq := by
  cases s; rfl

@[simp] theorem State.setPhase_cfg (p : Phase) (s : State) : (s.setPhase p).cfg = s.cfg := by
  cases s; rfl

@[simp] theorem State.setPhase_requests (p : Phase) (s : State) : (s.setPhase p).requests = s.requests := by
  cases s; rfl

/-! ### State.setSeq -/

@[simp] theorem State.setSeq_toShifter (q : Seq) (s : State) :
    (s.setSeq q).toShifter = s.toShifter := by cases s; rfl

@[simp] theorem State.setSeq_cmd (q : Seq) (s : State) : (s.setSeq q).cmd = s.cmd := by
  cases s; rfl

@[simp] theorem State.setSeq_rsp (q : Seq) (s : State) : (s.setSeq q).rsp = s.rsp := by
  cases s; rfl

@[simp] theorem State.setSeq_page (q : Seq) (s : State) : (s.setSeq q).page = s.page := by
  cases s; rfl

@[simp] theorem State.setSeq_sigidx (q : Seq) (s : State) : (s.setSeq q).sigidx = s.sigidx := by
  cases s; rfl

@[simp] theorem State.setSeq_pageidx (q : Seq) (s : State) : (s.setSeq q).pageidx = s.pageidx := by
  cases s; rfl

@[simp] theorem State.setSeq_addr (q : Seq) (s : State) : (s.setSeq q).addr = s.addr := by
  cases s; rfl

@[simp] theorem State.setSeq_lvl (q : Seq) (s : State) : (s.setSeq q).lvl = s.lvl := by
  cases s; rfl

@[simp] theorem State.setSeq_attempt (q : Seq) (s : State) : (s.setSeq q).attempt = s.attempt := by
  cases s; rfl

@[simp] theorem State.setSeq_loadidx (q : Seq) (s : State) : (s.setSeq q).loadidx = s.loadidx := by
  cases s; rfl

@[simp] theorem State.setSeq_pollcnt (q : Seq) (s : State) : (s.setSeq q).pollcnt = s.pollcnt := by
  cases s; rfl

@[simp] theorem State.setSeq_phase (q : Seq) (s : State) : (s.setSeq q).phase = s.phase := by
  cases s; rfl

@[simp] theorem State.setSeq_busyf (q : Seq) (s : State) : (s.setSeq q).busyf = s.busyf := by
  cases s; rfl

@[simp] theorem State.setSeq_result (q : Seq) (s : State) : (s.setSeq q).result = s.result := by
  cases s; rfl

@[simp] theorem State.setSeq_results (q : Seq) (s : State) : (s.setSeq q).results = s.results := by
  cases s; rfl

@[simp] theorem State.setSeq_seq (q : Seq) (s : State) : (s.setSeq q).seq = q := by
  cases s; rfl

@[simp] theorem State.setSeq_cfg (q : Seq) (s : State) : (s.setSeq q).cfg = s.cfg := by
  cases s; rfl

@[simp] theorem State.setSeq_requests (q : Seq) (s : State) : (s.setSeq q).requests = s.requests := by
  cases s; rfl

/-! ### State.setRequests -/

@[simp] theorem State.setRequests_toShifter (l : List Request) (s : State) :
    (s.setRequests l).toShifter = s.toShifter := by cases s; rfl

@[simp] theorem State.setRequests_cmd (l : List Request) (s : State) : (s.setRequests l).cmd = s.cmd := by
  cases s; rfl

@[simp] theorem State.setRequests_rsp (l : List Request) (s : State) : (s.setRequests l).rsp = s.rsp := by
  cases s; rfl

@[simp] theorem State.setRequests_page (l : List Request) (s : State) : (s.setRequests l).page = s.page := by
  cases s; rfl

@[simp] theorem State.setRequests_sigidx (l : List Request) (s : State) : (s.setRequests l).sigidx = s.sigidx := by
  cases s; rfl

@[simp] theorem State.setRequests_pageidx (l : List Request) (s : State) : (s.setRequests l).pageidx = s.pageidx := by
  cases s; rfl

@[simp] theorem State.setRequests_addr (l : List Request) (s : State) : (s.setRequests l).addr = s.addr := by
  cases s; rfl

@[simp] theorem State.setRequests_lvl (l : List Request) (s : State) : (s.setRequests l).lvl = s.lvl := by
  cases s; rfl

@[simp] theorem State.setRequests_attempt (l : List Request) (s : State) : (s.setRequests l).attempt = s.attempt := by
  cases s; rfl

@[simp] theorem State.setRequests_loadidx (l : List Request) (s : State) : (s.setRequests l).loadidx = s.loadidx := by
  cases s; rfl

@[simp] theorem State.setRequests_pollcnt (l : List Request) (s : State) : (s.setRequests l).pollcnt = s.pollcnt := by
  cases s; rfl

@[simp] theorem State.setRequests_phase (l : List Request) (s : State) : (s.setRequests l).phase = s.phase := by
  cases s; rfl

@[simp] theorem State.setRequests_busyf (l : List Request) (s : State) : (s.setRequests l).busyf = s.busyf := by
  cases s; rfl

@[simp] theorem State.setRequests_result (l : List Request) (s : State) : (s.setRequests l).result = s.result := by
  cases s; rfl

@[simp] theorem State.setRequests_results (l : List Request) (s : State) : (s.setRequests l).results = s.results := by
  cases s; rfl

@[simp] theorem State.setRequests_seq (l : List Request) (s : State) : (s.setRequests l).seq = s.seq := by
  cases s; rfl

@[simp] theorem State.setRequests_cfg (l : List Request) (s : State) : (s.setRequests l).cfg = s.cfg := by
  cases s; rfl

@[simp] theorem State.setRequests_requests (l : List Request) (s : State) : (s.setRequests l).requests = l := by
  cases s; rfl

/-! ### State.onDriver -/

@[simp] theorem State.onDriver_toDriver (f : Driver → Driver) (s : State) :
    (s.onDriver f).toDriver = f s.toDriver := by cases s; rfl

@[simp] theorem State.onDriver_txsr (f : Driver → Driver) (s : State) : (s.onDriver f).txsr = s.txsr := by
  cases s; rfl

@[simp] theorem State.onDriver_rxsr (f : Driver → Driver) (s : State) : (s.onDriver f).rxsr = s.rxsr := by
  cases s; rfl

@[simp] theorem State.onDriver_bitcnt (f : Driver → Driver) (s : State) : (s.onDriver f).bitcnt = s.bitcnt := by
  cases s; rfl

@[simp] theorem State.onDriver_byteidx (f : Driver → Driver) (s : State) : (s.onDriver f).byteidx = s.byteidx := by
  cases s; rfl

@[simp] theorem State.onDriver_cmd (f : Driver → Driver) (s : State) : (s.onDriver f).cmd = s.cmd := by
  cases s; rfl

@[simp] theorem State.onDriver_rsp (f : Driver → Driver) (s : State) : (s.onDriver f).rsp = s.rsp := by
  cases s; rfl

@[simp] theorem State.onDriver_page (f : Driver → Driver) (s : State) : (s.onDriver f).page = s.page := by
  cases s; rfl

@[simp] theorem State.onDriver_sigidx (f : Driver → Driver) (s : State) : (s.onDriver f).sigidx = s.sigidx := by
  cases s; rfl

@[simp] theorem State.onDriver_pageidx (f : Driver → Driver) (s : State) : (s.onDriver f).pageidx = s.pageidx := by
  cases s; rfl

@[simp] theorem State.onDriver_addr (f : Driver → Driver) (s : State) : (s.onDriver f).addr = s.addr := by
  cases s; rfl

@[simp] theorem State.onDriver_lvl (f : Driver → Driver) (s : State) : (s.onDriver f).lvl = s.lvl := by
  cases s; rfl

@[simp] theorem State.onDriver_attempt (f : Driver → Driver) (s : State) : (s.onDriver f).attempt = s.attempt := by
  cases s; rfl

@[simp] theorem State.onDriver_loadidx (f : Driver → Driver) (s : State) : (s.onDriver f).loadidx = s.loadidx := by
  cases s; rfl

@[simp] theorem State.onDriver_pollcnt (f : Driver → Driver) (s : State) : (s.onDriver f).pollcnt = s.pollcnt := by
  cases s; rfl

@[simp] theorem State.onDriver_phase (f : Driver → Driver) (s : State) : (s.onDriver f).phase = s.phase := by
  cases s; rfl

@[simp] theorem State.onDriver_busyf (f : Driver → Driver) (s : State) : (s.onDriver f).busyf = s.busyf := by
  cases s; rfl

@[simp] theorem State.onDriver_result (f : Driver → Driver) (s : State) : (s.onDriver f).result = s.result := by
  cases s; rfl

@[simp] theorem State.onDriver_results (f : Driver → Driver) (s : State) : (s.onDriver f).results = s.results := by
  cases s; rfl

@[simp] theorem State.onDriver_seq (f : Driver → Driver) (s : State) : (s.onDriver f).seq = s.seq := by
  cases s; rfl

@[simp] theorem State.onDriver_cfg (f : Driver → Driver) (s : State) : (s.onDriver f).cfg = s.cfg := by
  cases s; rfl

@[simp] theorem State.onDriver_requests (f : Driver → Driver) (s : State) : (s.onDriver f).requests = s.requests := by
  cases s; rfl

/-! ### State.finish -/

@[simp] theorem State.finish_toShifter (s : State) :
    s.finish.toShifter = s.toShifter := by cases s; rfl

@[simp] theorem State.finish_cmd (s : State) : s.finish.cmd = s.cmd := by
  cases s; rfl

@[simp] theorem State.finish_rsp (s : State) : s.finish.rsp = s.rsp := by
  cases s; rfl

@[simp] theorem State.finish_page (s : State) : s.finish.page = s.page := by
  cases s; rfl

@[simp] theorem State.finish_sigidx (s : State) : s.finish.sigidx = s.sigidx := by
  cases s; rfl

@[simp] theorem State.finish_pageidx (s : State) : s.finish.pageidx = s.pageidx := by
  cases s; rfl

@[simp] theorem State.finish_addr (s : State) : s.finish.addr = s.addr := by
  cases s; rfl

@[simp] theorem State.finish_lvl (s : State) : s.finish.lvl = s.lvl := by
  cases s; rfl

@[simp] theorem State.finish_attempt (s : State) : s.finish.attempt = s.attempt := by
  cases s; rfl

@[simp] theorem State.finish_loadidx (s : State) : s.finish.loadidx = s.loadidx := by
  cases s; rfl

@[simp] theorem State.finish_pollcnt (s : State) : s.finish.pollcnt = s.pollcnt := by
  cases s; rfl

@[simp] theorem State.finish_phase (s : State) : s.finish.phase = s.phase := by
  cases s; rfl

@[simp] theorem State.finish_busyf (s : State) : s.finish.busyf = s.busyf := by
  cases s; rfl

@[simp] theorem State.finish_result (s : State) : s.finish.result = s.result := by
  cases s; rfl

@[simp] theorem State.finish_results (s : State) : s.finish.results = s.results ++ [.none] := by
  cases s; rfl

@[simp] theorem State.finish_seq (s : State) : s.finish.seq = .idle := by
  cases s; rfl

@[simp] theorem State.finish_cfg (s : State) : s.finish.cfg = s.cfg := by
  cases s; rfl

@[simp] theorem State.finish_requests (s : State) : s.finish.requests = s.requests := by
  cases s; rfl

/-! ### State.handBack -/

@[simp] theorem State.handBack_toShifter (r : Result) (s : State) :
    (s.handBack r).toShifter = s.toShifter := by cases s; rfl

@[simp] theorem State.handBack_cmd (r : Result) (s : State) : (s.handBack r).cmd = s.cmd := by
  cases s; rfl

@[simp] theorem State.handBack_rsp (r : Result) (s : State) : (s.handBack r).rsp = s.rsp := by
  cases s; rfl

@[simp] theorem State.handBack_page (r : Result) (s : State) : (s.handBack r).page = s.page := by
  cases s; rfl

@[simp] theorem State.handBack_sigidx (r : Result) (s : State) : (s.handBack r).sigidx = s.sigidx := by
  cases s; rfl

@[simp] theorem State.handBack_pageidx (r : Result) (s : State) : (s.handBack r).pageidx = s.pageidx := by
  cases s; rfl

@[simp] theorem State.handBack_addr (r : Result) (s : State) : (s.handBack r).addr = s.addr := by
  cases s; rfl

@[simp] theorem State.handBack_lvl (r : Result) (s : State) : (s.handBack r).lvl = s.lvl := by
  cases s; rfl

@[simp] theorem State.handBack_attempt (r : Result) (s : State) : (s.handBack r).attempt = s.attempt := by
  cases s; rfl

@[simp] theorem State.handBack_loadidx (r : Result) (s : State) : (s.handBack r).loadidx = s.loadidx := by
  cases s; rfl

@[simp] theorem State.handBack_pollcnt (r : Result) (s : State) : (s.handBack r).pollcnt = s.pollcnt := by
  cases s; rfl

@[simp] theorem State.handBack_phase (r : Result) (s : State) : (s.handBack r).phase = s.phase := by
  cases s; rfl

@[simp] theorem State.handBack_busyf (r : Result) (s : State) : (s.handBack r).busyf = s.busyf := by
  cases s; rfl

@[simp] theorem State.handBack_result (r : Result) (s : State) : (s.handBack r).result = r := by
  cases s; rfl

@[simp] theorem State.handBack_results (r : Result) (s : State) : (s.handBack r).results = s.results ++ [r] := by
  cases s; rfl

@[simp] theorem State.handBack_seq (r : Result) (s : State) : (s.handBack r).seq = .idle := by
  cases s; rfl

@[simp] theorem State.handBack_cfg (r : Result) (s : State) : (s.handBack r).cfg = s.cfg := by
  cases s; rfl

@[simp] theorem State.handBack_requests (r : Result) (s : State) : (s.handBack r).requests = s.requests := by
  cases s; rfl

end Sys2Proof.Machine
end

