-- ==== Sys2Proof/Laws/Frames.lean ====
section
/-! SUPPORT. EXCHANGE in closed form (R110), alone and in sequence, and what the formatter composes. -/

namespace Sys2Proof.Machine

open Sys2Proof

theorem Frame.ofList_received (c : Config) (d : Driver) :
    Frame.ofList (received c d 4) = responseFrame c d := rfl

/-- EXCHANGE in full (R110). -/
theorem exchange_eq (c : Config) (f : Frame) (s : State) : exchange c f s = s.afterExchange c f := by
  simp only [exchange, transfer_eq]
  rfl

/-- POLL_BUSY in full (R114). -/
theorem pollBusy_eq (c : Config) (s : State) : pollBusy c s = s.afterPoll c := by
  simp only [pollBusy, exchange_eq]
  rfl

/-- The shifter after an exchange: the frame's four bytes have been transferred. -/
theorem State.afterExchange_toShifter (c : Config) (f : Frame) (s : State) :
    (s.afterExchange c f).toShifter = s.toShifter.afterTransfer c (Frame.toList f) := by
  cases s; rfl

/-- The driver after an exchange: the frame's 32 bits have been streamed. -/
theorem State.afterExchange_driver (c : Config) (f : Frame) (s : State) :
    (s.afterExchange c f).toDriver = s.toDriver.afterStream c (bitStream (Frame.toList f)) := by
  rw [State.afterExchange_toShifter, Shifter.afterTransfer, if_neg (by simp [Frame.toList])]

/-- The response of the exchange is what MISO spelled while it ran. -/
@[simp] theorem State.afterExchange_rsp (c : Config) (f : Frame) (s : State) :
    (s.afterExchange c f).rsp = responseFrame c s.toDriver := by cases s; rfl

@[simp] theorem State.afterExchange_cmd (c : Config) (f : Frame) (s : State) :
    (s.afterExchange c f).cmd = f := by cases s; rfl

/-! EXCHANGE leaves everything else of layer 3 alone (R40, R110). -/

@[simp] theorem State.afterExchange_page (c : Config) (f : Frame) (s : State) :
    (s.afterExchange c f).page = s.page := by cases s; rfl

@[simp] theorem State.afterExchange_sigidx (c : Config) (f : Frame) (s : State) :
    (s.afterExchange c f).sigidx = s.sigidx := by cases s; rfl

@[simp] theorem State.afterExchange_pageidx (c : Config) (f : Frame) (s : State) :
    (s.afterExchange c f).pageidx = s.pageidx := by cases s; rfl

@[simp] theorem State.afterExchange_addr (c : Config) (f : Frame) (s : State) :
    (s.afterExchange c f).addr = s.addr := by cases s; rfl

@[simp] theorem State.afterExchange_lvl (c : Config) (f : Frame) (s : State) :
    (s.afterExchange c f).lvl = s.lvl := by cases s; rfl

@[simp] theorem State.afterExchange_attempt (c : Config) (f : Frame) (s : State) :
    (s.afterExchange c f).attempt = s.attempt := by cases s; rfl

@[simp] theorem State.afterExchange_loadidx (c : Config) (f : Frame) (s : State) :
    (s.afterExchange c f).loadidx = s.loadidx := by cases s; rfl

@[simp] theorem State.afterExchange_pollcnt (c : Config) (f : Frame) (s : State) :
    (s.afterExchange c f).pollcnt = s.pollcnt := by cases s; rfl

@[simp] theorem State.afterExchange_phase (c : Config) (f : Frame) (s : State) :
    (s.afterExchange c f).phase = s.phase := by cases s; rfl

@[simp] theorem State.afterExchange_busyf (c : Config) (f : Frame) (s : State) :
    (s.afterExchange c f).busyf = s.busyf := by cases s; rfl

@[simp] theorem State.afterExchange_result (c : Config) (f : Frame) (s : State) :
    (s.afterExchange c f).result = s.result := by cases s; rfl

@[simp] theorem State.afterExchange_results (c : Config) (f : Frame) (s : State) :
    (s.afterExchange c f).results = s.results := by cases s; rfl

@[simp] theorem State.afterExchange_seq (c : Config) (f : Frame) (s : State) :
    (s.afterExchange c f).seq = s.seq := by cases s; rfl

@[simp] theorem State.afterExchange_cfg (c : Config) (f : Frame) (s : State) :
    (s.afterExchange c f).cfg = s.cfg := by cases s; rfl

@[simp] theorem State.afterExchange_requests (c : Config) (f : Frame) (s : State) :
    (s.afterExchange c f).requests = s.requests := by cases s; rfl

/-- The bits of a frame are never none. -/
theorem bitStream_frame_ne (f : Frame) : bitStream (Frame.toList f) ≠ [] := by
  simp [bitStream, Frame.toList, bitsOf]

/-- The last bit a frame leaves on MOSI is bit 0 of its last byte (R104(d), R110). -/
theorem streamPort_frame (c : Config) (f : Frame) (p : Byte) :
    streamPort c (bitStream (Frame.toList f)) p = afterBit c p (f.b3.getLsbD 0) := rfl

@[simp] theorem State.afterFrames_nil (c : Config) (s : State) : s.afterFrames c [] = s := rfl

theorem State.afterFrames_cons (c : Config) (f : Frame) (fs : List Frame) (s : State) :
    s.afterFrames c (f :: fs) = (s.afterExchange c f).afterFrames c fs := by
  simp only [State.afterFrames, List.foldl_cons]

theorem State.afterFrames_append (c : Config) (fs gs : List Frame) (s : State) :
    s.afterFrames c (fs ++ gs) = (s.afterFrames c fs).afterFrames c gs := by
  simp only [State.afterFrames, List.foldl_append]

theorem State.afterFrames_singleton (c : Config) (f : Frame) (s : State) :
    s.afterFrames c [f] = s.afterExchange c f := by
  rw [State.afterFrames_cons, State.afterFrames_nil]

/-- Frames sent one after the other: the driver sees one stream of their bytes. -/
theorem State.afterFrames_driver (c : Config) (fs : List Frame) (s : State) :
    (s.afterFrames c fs).toDriver = s.toDriver.afterStream c (bitStream (frameBytes fs)) := by
  induction fs generalizing s with
  | nil => simp [frameBytes, bitStream]
  | cons f fs ih =>
    rw [State.afterFrames_cons, ih, State.afterExchange_driver, ← Driver.afterStream_append,
      ← bitStream_append]
    rfl

theorem frameBytes_length (fs : List Frame) : (frameBytes fs).length = 4 * fs.length := by
  induction fs with
  | nil => rfl
  | cons f fs ih => simp [frameBytes, Frame.toList] at ih ⊢; omega

/-- The bits the frames after some others will receive are those MISO spells further on. -/
theorem busyBitAt_afterFrames (c : Config) (fs : List Frame) (s : State) (n : Nat) :
    busyBitAt c (s.afterFrames c fs).toDriver n = busyBitAt c s.toDriver (fs.length + n) := by
  rw [State.afterFrames_driver, busyBitAt, receivedByte_afterStream, frameBytes_length, busyBitAt]
  congr 2
  omega

/-! A list of frames leaves everything else of layer 3 alone (R40, R110). -/

@[simp] theorem State.afterFrames_page (c : Config) (fs : List Frame) (s : State) :
    (s.afterFrames c fs).page = s.page := by
  induction fs generalizing s with
  | nil => rfl
  | cons f fs ih => rw [State.afterFrames_cons, ih, State.afterExchange_page]

@[simp] theorem State.afterFrames_sigidx (c : Config) (fs : List Frame) (s : State) :
    (s.afterFrames c fs).sigidx = s.sigidx := by
  induction fs generalizing s with
  | nil => rfl
  | cons f fs ih => rw [State.afterFrames_cons, ih, State.afterExchange_sigidx]

@[simp] theorem State.afterFrames_pageidx (c : Config) (fs : List Frame) (s : State) :
    (s.afterFrames c fs).pageidx = s.pageidx := by
  induction fs generalizing s with
  | nil => rfl
  | cons f fs ih => rw [State.afterFrames_cons, ih, State.afterExchange_pageidx]

@[simp] theorem State.afterFrames_addr (c : Config) (fs : List Frame) (s : State) :
    (s.afterFrames c fs).addr = s.addr := by
  induction fs generalizing s with
  | nil => rfl
  | cons f fs ih => rw [State.afterFrames_cons, ih, State.afterExchange_addr]

@[simp] theorem State.afterFrames_lvl (c : Config) (fs : List Frame) (s : State) :
    (s.afterFrames c fs).lvl = s.lvl := by
  induction fs generalizing s with
  | nil => rfl
  | cons f fs ih => rw [State.afterFrames_cons, ih, State.afterExchange_lvl]

@[simp] theorem State.afterFrames_attempt (c : Config) (fs : List Frame) (s : State) :
    (s.afterFrames c fs).attempt = s.attempt := by
  induction fs generalizing s with
  | nil => rfl
  | cons f fs ih => rw [State.afterFrames_cons, ih, State.afterExchange_attempt]

@[simp] theorem State.afterFrames_loadidx (c : Config) (fs : List Frame) (s : State) :
    (s.afterFrames c fs).loadidx = s.loadidx := by
  induction fs generalizing s with
  | nil => rfl
  | cons f fs ih => rw [State.afterFrames_cons, ih, State.afterExchange_loadidx]

@[simp] theorem State.afterFrames_pollcnt (c : Config) (fs : List Frame) (s : State) :
    (s.afterFrames c fs).pollcnt = s.pollcnt := by
  induction fs generalizing s with
  | nil => rfl
  | cons f fs ih => rw [State.afterFrames_cons, ih, State.afterExchange_pollcnt]

@[simp] theorem State.afterFrames_phase (c : Config) (fs : List Frame) (s : State) :
    (s.afterFrames c fs).phase = s.phase := by
  induction fs generalizing s with
  | nil => rfl
  | cons f fs ih => rw [State.afterFrames_cons, ih, State.afterExchange_phase]

@[simp] theorem State.afterFrames_busyf (c : Config) (fs : List Frame) (s : State) :
    (s.afterFrames c fs).busyf = s.busyf := by
  induction fs generalizing s with
  | nil => rfl
  | cons f fs ih => rw [State.afterFrames_cons, ih, State.afterExchange_busyf]

@[simp] theorem State.afterFrames_result (c : Config) (fs : List Frame) (s : State) :
    (s.afterFrames c fs).result = s.result := by
  induction fs generalizing s with
  | nil => rfl
  | cons f fs ih => rw [State.afterFrames_cons, ih, State.afterExchange_result]

@[simp] theorem State.afterFrames_results (c : Config) (fs : List Frame) (s : State) :
    (s.afterFrames c fs).results = s.results := by
  induction fs generalizing s with
  | nil => rfl
  | cons f fs ih => rw [State.afterFrames_cons, ih, State.afterExchange_results]

@[simp] theorem State.afterFrames_seq (c : Config) (fs : List Frame) (s : State) :
    (s.afterFrames c fs).seq = s.seq := by
  induction fs generalizing s with
  | nil => rfl
  | cons f fs ih => rw [State.afterFrames_cons, ih, State.afterExchange_seq]

@[simp] theorem State.afterFrames_cfg (c : Config) (fs : List Frame) (s : State) :
    (s.afterFrames c fs).cfg = s.cfg := by
  induction fs generalizing s with
  | nil => rfl
  | cons f fs ih => rw [State.afterFrames_cons, ih, State.afterExchange_cfg]

@[simp] theorem State.afterFrames_requests (c : Config) (fs : List Frame) (s : State) :
    (s.afterFrames c fs).requests = s.requests := by
  induction fs generalizing s with
  | nil => rfl
  | cons f fs ih => rw [State.afterFrames_cons, ih, State.afterExchange_requests]

end Sys2Proof.Machine
end

