-- ==== Sys2Proof/Laws/Isp.lean ====
section
/-! SUPPORT. The sequencer's shared operations in closed form (R131, R134, R136). -/

namespace Sys2Proof.Machine

open Sys2Proof

/-- The reset pulse in full (R131). -/
theorem resetPulse_eq (c : Config) (d : Driver) : resetPulse c d = d.afterReset c := by
  simp only [resetPulse, Driver.setSck, Driver.setRst, Driver.setBit_eq, Driver.afterWrite,
    Driver.wait, Driver.afterReset, pulseEvents, afterPulse, sckLowMs, rstPulseMs, rstSettleMs,
    Memory.write_write, withBit_withBit, List.append_assoc]
  rfl

/-- One synchronization attempt in full (R131). -/
theorem syncAttempt_eq (c : Config) (s : State) : syncAttempt c s = s.afterAttempt c := by
  simp only [syncAttempt, progEnable, exchange_eq, State.onDriver, resetPulse_eq]
  rfl

/-- The echo test of an attempt reads the third byte MISO spells in it (R111). -/
theorem echoOk_afterAttempt (c : Config) (s : State) :
    echoOk (s.afterAttempt c).rsp = echoesAt c s.toDriver 0 := rfl

/-- An attempt uses 32 answers: the attempts after it look 4 bytes further on. -/
theorem echoesAt_afterAttempt (c : Config) (s : State) (k : Nat) :
    echoesAt c (s.afterAttempt c).toDriver k = echoesAt c s.toDriver (k + 1) := by
  have h := receivedByte_afterStream c
    (Frame.toList enableFrame) (s.toDriver.afterReset c) (4 * k + 2)
  simp only [echoesAt]
  rw [show (s.afterAttempt c).toDriver = (s.toDriver.afterReset c).afterStream c
    (bitStream (Frame.toList enableFrame)) from rfl, h]
  have e : ∀ j, receivedByte c (s.toDriver.afterReset c) j = receivedByte c s.toDriver j :=
    fun j => rfl
  rw [e]
  congr 2
  simp [Frame.toList, enableFrame]
  omega

/-- A SYNC with `n` attempts left whose first echo comes in attempt `k`: it ends there (R131). -/
theorem syncLoop_success (c : Config) (n k : Nat) (s : State) (hk : k < n)
    (hno : ∀ j < k, echoesAt c s.toDriver j = false) (hyes : echoesAt c s.toDriver k = true) :
    syncLoop c n s =
      ((s.afterAttempts c (k + 1)).setPhase .synchronized).handBack .success := by
  induction k generalizing n s with
  | zero =>
    obtain ⟨n, rfl⟩ : ∃ m, n = m + 1 := ⟨n - 1, by omega⟩
    simp only [syncLoop, syncAttempt_eq, echoOk_afterAttempt, hyes, if_true]
    rfl
  | succ k ih =>
    obtain ⟨n, rfl⟩ : ∃ m, n = m + 1 := ⟨n - 1, by omega⟩
    simp only [syncLoop, syncAttempt_eq, echoOk_afterAttempt, hno 0 (by omega)]
    rw [if_neg (by decide), ih n _ (by omega)
      (fun j hj => by rw [echoesAt_afterAttempt]; exact hno (j + 1) (by omega))
      (by rw [echoesAt_afterAttempt]; exact hyes)]
    rfl

/-- A SYNC with `n` attempts left none of which is echoed raises SynchronizationFailure (R131). -/
theorem syncLoop_failure (c : Config) (n : Nat) (s : State)
    (hno : ∀ j < n, echoesAt c s.toDriver j = false) :
    syncLoop c n s = (s.afterAttempts c n).raise .synchronizationFailure := by
  induction n generalizing s with
  | zero => rfl
  | succ n ih =>
    simp only [syncLoop, syncAttempt_eq, echoOk_afterAttempt, hno 0 (by omega)]
    rw [if_neg (by decide), ih _ (fun j hj => by
      rw [echoesAt_afterAttempt]; exact hno (j + 1) (by omega))]
    rfl

/-- POLLCNT after a poll (R29, R171). -/
theorem countPoll_eq (c : Config) (s : State) : countPoll c s = s.setPollcnt (pollsAfter c s) := by
  unfold countPoll pollsAfter
  cases c.pollLimit <;> rfl

/-- Everything one turn of the busy-poll spin can do (R134). -/
theorem pollTurn_eq (c : Config) (w : Seq) (s : State) :
    pollTurn c w s =
      if busyBitAt c s.toDriver 0 then
        if limitHit c s then (s.afterTurn c).raise .pollTimeout else (s.afterTurn c).setSeq w
      else (s.afterTurn c).finish := by
  have hl : pollLimitReached c (s.afterTurn c) = limitHit c s := by
    unfold pollLimitReached limitHit State.afterTurn pollsAfter
    cases c.pollLimit <;> rfl
  rw [← hl]
  simp only [pollTurn, pollBusy_eq, countPoll_eq]
  rfl

/-- LOADIDX and the frames do not meet. -/
theorem setLoadidx_afterExchange (c : Config) (f : Frame) (n : Nat) (s : State) :
    (s.setLoadidx n).afterExchange c f = (s.afterExchange c f).setLoadidx n := by
  cases s; rfl

theorem setLoadidx_setLoadidx (m n : Nat) (s : State) :
    (s.setLoadidx m).setLoadidx n = s.setLoadidx n := by
  cases s; rfl

/-- The load of one byte in full (R136). -/
theorem loadByte_eq (c : Config) (i : Nat) (hi : i < 256) (s : State) :
    loadByte c i s = (s.afterExchange c (loadFrame s.page i)).setLoadidx (i + 1) := by
  have hs : (BitVec.ofNat 8 i : Byte) >>> 1 = BitVec.ofNat 8 (i / 2) := by
    apply BitVec.eq_of_toNat_eq
    simp [BitVec.toNat_ushiftRight, Nat.shiftRight_eq_div_pow]
    omega
  unfold loadByte loadFrame
  by_cases h : i % 2 = 0
  · simp only [h, if_true, loadLo, exchange_eq, fmtLoadLo, hs]; rfl
  · simp only [h, if_false, loadHi, exchange_eq, fmtLoadHi, hs]; rfl

/-- The loads of the first `n` bytes in full: the frames in order, LOADIDX at the end `n`. -/
theorem loadBytes_eq (c : Config) (n : Nat) (hn : n ≤ 256) (s : State) :
    (List.range n).foldl (fun s i => loadByte c i s) s =
      (s.afterFrames c ((List.range n).map (loadFrame s.page))).setLoadidx
        (if n = 0 then s.loadidx else n) := by
  induction n with
  | zero => rfl
  | succ n ih =>
    rw [List.range_succ, List.foldl_append, ih (by omega), List.map_append,
      State.afterFrames_append, List.foldl_cons, List.foldl_nil, loadByte_eq c n (by omega),
      State.setLoadidx_page, State.afterFrames_page, if_neg (Nat.succ_ne_zero n), List.map_cons,
      List.map_nil, State.afterFrames_singleton, setLoadidx_afterExchange, setLoadidx_setLoadidx]

/-- The 32 loads in full (R136). -/
theorem loadPage_eq (c : Config) (s : State) :
    loadPage c s =
      (s.afterFrames c ((List.range pageBytes).map (loadFrame s.page))).setLoadidx pageBytes :=
  loadBytes_eq c 32 (by decide) s

end Sys2Proof.Machine
end

