-- ==== Sys2Proof/Laws/Exec.lean ====
section
/-! SUPPORT. When an instruction answers a next state, and every meaning's next state in closed form. -/

namespace Sys2Proof.Machine

open Sys2Proof

/-- A host operation that has its effect was issued to an idle block with a configuration. -/
theorem issue_next {s t : State} {f : Config → State → State} (h : s.issue f = .next t) :
    ∃ c, s.cfg = some c ∧ s.seq = .idle ∧ t = f c s := by
  unfold State.issue at h
  split at h
  · cases h
  · next c hc =>
    split at h
    · next hs => cases h; exact ⟨c, hc, hs, rfl⟩
    · cases h

/-- A frame that is exchanged was so with a configuration. -/
theorem emit_next {s t : State} {f : Config → State → State} (h : s.emit f = .next t) :
    ∃ c, s.cfg = some c ∧ t = f c s := by
  unfold State.emit at h
  split at h
  · cases h
  · next c hc => cases h; exact ⟨c, hc, rfl⟩

/-- An idle block with a configuration executes what it is issued. -/
theorem issue_ready {s : State} {c : Config} (f : Config → State → State) (h : s.ready c) :
    s.issue f = .next (f c s) := by
  simp [State.issue, h.1, h.2]

/-- A block with a configuration exchanges any frame. -/
theorem emit_some {s : State} {c : Config} (f : Config → State → State) (h : s.cfg = some c) :
    s.emit f = .next (f c s) := by
  simp [State.emit, h]

/-- READ_BYTE's frame as the source words it: the low address bit in bit 3 of byte 0 (R77, R137). -/
def fmtRead (a : FlashAddr) : Frame :=
  ⟨0x20#8 ||| ((BitVec.ofBool (a.getLsbD 0)).setWidth 8 <<< 3),
    ((a >>> 1 >>> 8) &&& 0xFF#16).setWidth 8, ((a >>> 1) &&& 0xFF#16).setWidth 8, 0x00#8⟩

theorem fmtRead_eq (a : FlashAddr) :
    (if byteInWord a then fmtReadHi a else fmtReadLo a) = fmtRead a := by
  unfold byteInWord fmtReadHi fmtReadLo fmtRead highPart lowPart wordAddress
  cases h : a.getLsbD 0 <;> simp

/-- PROGRAM_PAGE in full (R136): the 33 frames, then the first turn of the busy-poll spin. -/
theorem programPage_eq (c : Config) (data : List Byte) (page : Byte) (s : State) :
    programPage c data page s =
      pollTurn c .pagePolling
        ((((s.setPage data page).afterFrames c (pageFrames data page)).setLoadidx pageBytes).setPollcnt
          0) := by
  have hf : fmtWritePage page = commitFrame page := rfl
  simp only [programPage, waitReady, loadPage_eq, writePage, exchange_eq, pageFrames,
    State.afterFrames_append, State.afterFrames_singleton, State.setPage_page,
    State.setLoadidx_pageidx, State.afterFrames_pageidx, State.setPage_pageidx, hf,
    setLoadidx_afterExchange]

/-! ## The twenty meanings, each with its effect in closed form -/

theorem exec_progEnable (s : State) :
    exec .progEnable s = s.emit fun c s => s.afterExchange c fmtProgEnable := by
  have h : progEnable = fun c s => s.afterExchange c fmtProgEnable := by
    funext c s; exact exchange_eq c _ s
  simp only [exec, execProgEnable, h]

theorem exec_chipErase (s : State) :
    exec .chipErase s = s.emit fun c s => s.afterExchange c fmtChipErase := by
  have h : chipErase = fun c s => s.afterExchange c fmtChipErase := by
    funext c s; exact exchange_eq c _ s
  simp only [exec, execChipErase, h]

theorem exec_readSig (idx : BitVec 2) (s : State) :
    exec (.readSig idx) s = s.emit fun c s => s.afterExchange c (fmtReadSig (0#6 ++ idx)) := by
  simp only [exec, execReadSig, readSig, exchange_eq]

theorem exec_pollBusy (s : State) :
    exec .pollBusy s = s.emit fun c s => s.afterPoll c := by
  have h : pollBusy = fun c s => s.afterPoll c := by
    funext c s; exact pollBusy_eq c s
  simp only [exec, execPollBusy, h]

theorem exec_loadLo (woff : BitVec 4) (data : Byte) (s : State) :
    exec (.loadLo woff data) s =
      s.emit fun c s => s.afterExchange c (fmtLoadLo (evenIndex woff) data) := by
  simp only [exec, execLoadLo, loadLo, exchange_eq]

theorem exec_loadHi (woff : BitVec 4) (data : Byte) (s : State) :
    exec (.loadHi woff data) s =
      s.emit fun c s => s.afterExchange c (fmtLoadHi (oddIndex woff) data) := by
  simp only [exec, execLoadHi, loadHi, exchange_eq]

theorem exec_writePage (pidx : BitVec 6) (s : State) :
    exec (.writePage pidx) s = s.emit fun c s => s.afterExchange c (fmtWritePage (0#2 ++ pidx)) := by
  simp only [exec, execWritePage, writePage, exchange_eq]

theorem exec_readLo (wa : BitVec 15) (s : State) :
    exec (.readLo wa) s = s.emit fun c s => s.afterExchange c (fmtReadLo (evenAddress wa)) := by
  simp only [exec, execReadLo, readLo, exchange_eq]

theorem exec_readHi (wa : BitVec 15) (s : State) :
    exec (.readHi wa) s = s.emit fun c s => s.afterExchange c (fmtReadHi (oddAddress wa)) := by
  simp only [exec, execReadHi, readHi, exchange_eq]

theorem exec_setMosi (b : Bool) (s : State) :
    exec (.setMosi b) s =
      s.issue fun c s => ((s.setLvl b).onDriver (·.setBit c c.mosi b)).finish := rfl

theorem exec_setSck (b : Bool) (s : State) :
    exec (.setSck b) s =
      s.issue fun c s => ((s.setLvl b).onDriver (·.setBit c c.sck b)).finish := rfl

theorem exec_setRst (b : Bool) (s : State) :
    exec (.setRst b) s =
      s.issue fun c s => ((s.setLvl b).onDriver (·.setBit c c.rst b)).finish := rfl

theorem exec_readMiso (s : State) :
    exec .readMiso s = s.issue fun c s =>
      (s.onDriver fun d => (d.readMiso c).2).handBack (.bool (sampleAt c s.toDriver 0)) := rfl

theorem exec_transfer (out : List Byte) (s : State) :
    exec (.transfer out) s = s.issue fun c s =>
      { s with toShifter := s.toShifter.afterTransfer c out }.handBack
        (.bytes (received c s.toDriver out.length)) := by
  simp only [exec, execTransfer, transfer_eq]

theorem exec_sync (s : State) :
    exec .sync s = s.issue fun c s => syncLoop c syncAttempts (s.setAttempt 0) := rfl

theorem exec_readSignature (index : Byte) (s : State) :
    exec (.readSignature index) s = s.issue fun c s =>
      ((s.setSigidx index).afterExchange c (fmtReadSig index)).handBack
        (.byte (receivedByte c s.toDriver 3)) := by
  simp only [exec, execReadSignature, readSig, exchange_eq]
  rfl

theorem exec_isBusy (s : State) :
    exec .isBusy s = s.issue fun c s =>
      (s.afterPoll c).handBack (.bool (busyBitAt c s.toDriver 0)) := by
  simp only [exec, execIsBusy, pollBusy_eq]
  rfl

theorem exec_erase (s : State) :
    exec .erase s = s.issue fun c s =>
      pollTurn c .erasePolling ((s.afterExchange c fmtChipErase).setPollcnt 0) := by
  simp only [exec, execErase, waitReady, chipErase, exchange_eq]

theorem exec_programPage (data : List Byte) (page : Byte) (s : State) :
    exec (.programPage data page) s =
      if data.length = pageBytes then s.issue fun c s =>
        pollTurn c .pagePolling
          ((((s.setPage data page).afterFrames c (pageFrames data page)).setLoadidx
            pageBytes).setPollcnt 0)
      else .refused (.pageLength data.length) := by
  simp only [exec, execProgramPage, programPage_eq]

theorem exec_readByte (address : FlashAddr) (s : State) :
    exec (.readByte address) s = s.issue fun c s =>
      ((s.setAddr address).afterExchange c (fmtRead address)).handBack
        (.byte (receivedByte c s.toDriver 3)) := by
  simp only [exec, execReadByte, readHi, readLo, exchange_eq, ← fmtRead_eq]
  cases byteInWord address <;> rfl

end Sys2Proof.Machine
end

