-- ==== Sys2Proof/Laws/Moves.lean ====
section
/-! SUPPORT. Everything an instruction can do to the Signal Driver: a sequence of writes of one output
bit, status reads and waits. Whole-machine rules about PORT, the I/O space and the trace follow from it
by one induction each. -/

namespace Sys2Proof.Machine

open Sys2Proof

/-- `e` is reached from `d` by Signal Driver actions whose written bits all satisfy `P`. -/
inductive Driver.Moves (c : Config) (P : Fin 8 → Prop) (d : Driver) : Driver → Prop where
  | refl : Driver.Moves c P d d
  | write {e : Driver} (pos : Fin 8) (b : Bool) (hp : P pos) (h : Driver.Moves c P d e) :
      Driver.Moves c P d (e.setBit c pos b)
  | read {e : Driver} (h : Driver.Moves c P d e) : Driver.Moves c P d (e.readMiso c).2
  | wait {e : Driver} (ms : Nat) (h : Driver.Moves c P d e) : Driver.Moves c P d (e.wait ms)

theorem Driver.Moves.trans {c : Config} {P : Fin 8 → Prop} {d e f : Driver}
    (h₁ : Driver.Moves c P d e) (h₂ : Driver.Moves c P e f) : Driver.Moves c P d f := by
  induction h₂ with
  | refl => exact h₁
  | write pos b hp _ ih => exact ih.write pos b hp
  | read _ ih => exact ih.read
  | wait ms _ ih => exact ih.wait ms

theorem Driver.Moves.mono {c : Config} {P Q : Fin 8 → Prop} {d e : Driver}
    (h : Driver.Moves c P d e) (hpq : ∀ p, P p → Q p) : Driver.Moves c Q d e := by
  induction h with
  | refl => exact .refl
  | write pos b hp _ ih => exact ih.write pos b (hpq _ hp)
  | read _ ih => exact ih.read
  | wait ms _ ih => exact ih.wait ms

/-- The bits a transfer writes (R40). -/
def isClockOrData (c : Config) (p : Fin 8) : Prop := p = c.mosi ∨ p = c.sck

/-- The bits any operation writes (R21). -/
def isOutput (c : Config) (p : Fin 8) : Prop := p = c.mosi ∨ p = c.sck ∨ p = c.rst

theorem shiftBit_moves (c : Config) (s : Shifter) :
    Driver.Moves c (isClockOrData c) s.toDriver (shiftBit c s).toDriver := by
  have h0 : Driver.Moves c (isClockOrData c) s.toDriver s.toDriver := .refl
  have h1 := h0.read
  have h2 := h1.write c.mosi (s.txsr.getLsbD 7) (.inl rfl)
  have h3 := h2.write c.sck true (.inr rfl)
  exact h3.write c.sck false (.inr rfl)

theorem shiftBits_moves (c : Config) (n : Nat) (s : Shifter) :
    Driver.Moves c (isClockOrData c) s.toDriver (shiftBits c n s).toDriver := by
  induction n generalizing s with
  | zero => exact .refl
  | succ n ih => exact (shiftBit_moves c s).trans (ih _)

theorem transferFrom_moves (c : Config) (out : List Byte) (j : Nat) (s : Shifter) :
    Driver.Moves c (isClockOrData c) s.toDriver (transferFrom c j out s).2.toDriver := by
  induction out generalizing j s with
  | nil => exact .refl
  | cons b out ih =>
    have h := shiftBits_moves c 8 { s with byteidx := j, txsr := b, bitcnt := 0 }
    exact Driver.Moves.trans h (ih (j + 1) _)

theorem afterStream_moves (c : Config) (out : List Byte) (s : Shifter) :
    Driver.Moves c (isClockOrData c) s.toDriver (s.toDriver.afterStream c (bitStream out)) := by
  have h := transferFrom_moves c out 0 s
  rw [transferFrom_eq] at h
  split at h
  · next e => subst e; simpa [bitStream] using h
  · exact h

theorem afterTransfer_moves (c : Config) (out : List Byte) (s : Shifter) :
    Driver.Moves c (isClockOrData c) s.toDriver (s.afterTransfer c out).toDriver := by
  unfold Shifter.afterTransfer
  split
  · exact .refl
  · exact afterStream_moves c out s

theorem afterExchange_moves (c : Config) (f : Frame) (s : State) :
    Driver.Moves c (isClockOrData c) s.toDriver (s.afterExchange c f).toDriver := by
  rw [State.afterExchange_driver]
  exact afterStream_moves c _ s.toShifter

theorem afterFrames_moves (c : Config) (fs : List Frame) (s : State) :
    Driver.Moves c (isClockOrData c) s.toDriver (s.afterFrames c fs).toDriver := by
  rw [State.afterFrames_driver]
  exact afterStream_moves c _ s.toShifter

theorem resetPulse_moves (c : Config) (d : Driver) :
    Driver.Moves c (isOutput c) d (resetPulse c d) := by
  have h0 : Driver.Moves c (isOutput c) d d := .refl
  have h1 := (h0.write c.sck false (.inr (.inl rfl))).wait sckLowMs
  have h2 := (h1.write c.rst true (.inr (.inr rfl))).wait rstPulseMs
  exact (h2.write c.rst false (.inr (.inr rfl))).wait rstSettleMs

theorem isClockOrData.output {c : Config} {p : Fin 8} (h : isClockOrData c p) : isOutput c p :=
  h.imp id .inl

theorem afterAttempt_moves (c : Config) (s : State) :
    Driver.Moves c (isOutput c) s.toDriver (s.afterAttempt c).toDriver := by
  have h := resetPulse_moves c s.toDriver
  rw [resetPulse_eq] at h
  exact h.trans ((afterExchange_moves c enableFrame
    (s.onDriver (·.afterReset c))).mono
      fun _ => isClockOrData.output)

theorem syncLoop_moves (c : Config) (n : Nat) (s : State) :
    Driver.Moves c (isOutput c) s.toDriver (syncLoop c n s).toDriver := by
  induction n generalizing s with
  | zero => exact .refl
  | succ n ih =>
    have h := afterAttempt_moves c s
    simp only [syncLoop, syncAttempt_eq]
    split
    · exact h
    · exact h.trans (ih _)

theorem pollTurn_driver (c : Config) (w : Seq) (s : State) :
    (pollTurn c w s).toDriver = s.toDriver.afterStream c (bitStream (Frame.toList pollFrame)) := by
  have h := State.afterExchange_driver c pollFrame s
  rw [pollTurn_eq]
  split
  · split
    · simpa [State.raise, State.afterTurn, State.afterPoll] using h
    · simpa [State.afterTurn, State.afterPoll] using h
  · simpa [State.afterTurn, State.afterPoll] using h

theorem pollTurn_moves (c : Config) (w : Seq) (s : State) :
    Driver.Moves c (isClockOrData c) s.toDriver (pollTurn c w s).toDriver := by
  rw [pollTurn_driver]
  exact afterStream_moves c _ s.toShifter

/-- The bits an instruction may write: its own for a setter, MOSI and SCK for what transfers, all
three for SYNC (R40). -/
def writtenBits (c : Config) : Instr → Fin 8 → Prop
  | .setMosi _, p => p = c.mosi
  | .setSck _, p => p = c.sck
  | .setRst _, p => p = c.rst
  | .readMiso, _ => False
  | .sync, p => isOutput c p
  | .transfer _, p | .progEnable, p | .chipErase, p | .readSig _, p | .pollBusy, p
  | .loadLo _ _, p | .loadHi _ _, p | .writePage _, p | .readLo _, p | .readHi _, p
  | .readSignature _, p | .isBusy, p | .erase, p | .programPage _ _, p | .readByte _, p =>
    isClockOrData c p

/-- Everything an instruction does to the driver is moves of its own bits. -/
theorem exec_moves {i : Instr} {s t : State} (h : exec i s = .next t) :
    ∃ c, s.cfg = some c ∧ Driver.Moves c (writtenBits c i) s.toDriver t.toDriver := by
  have h0 : ∀ c P, Driver.Moves c P s.toDriver s.toDriver := fun c P => .refl
  cases i with
  | progEnable =>
    rw [exec_progEnable] at h
    obtain ⟨c, hc, rfl⟩ := emit_next h
    exact ⟨c, hc, afterExchange_moves c _ s⟩
  | chipErase =>
    rw [exec_chipErase] at h
    obtain ⟨c, hc, rfl⟩ := emit_next h
    exact ⟨c, hc, afterExchange_moves c _ s⟩
  | readSig =>
    rw [exec_readSig] at h
    obtain ⟨c, hc, rfl⟩ := emit_next h
    exact ⟨c, hc, afterExchange_moves c _ s⟩
  | pollBusy =>
    rw [exec_pollBusy] at h
    obtain ⟨c, hc, rfl⟩ := emit_next h
    exact ⟨c, hc, afterExchange_moves c _ s⟩
  | loadLo =>
    rw [exec_loadLo] at h
    obtain ⟨c, hc, rfl⟩ := emit_next h
    exact ⟨c, hc, afterExchange_moves c _ s⟩
  | loadHi =>
    rw [exec_loadHi] at h
    obtain ⟨c, hc, rfl⟩ := emit_next h
    exact ⟨c, hc, afterExchange_moves c _ s⟩
  | writePage =>
    rw [exec_writePage] at h
    obtain ⟨c, hc, rfl⟩ := emit_next h
    exact ⟨c, hc, afterExchange_moves c _ s⟩
  | readLo =>
    rw [exec_readLo] at h
    obtain ⟨c, hc, rfl⟩ := emit_next h
    exact ⟨c, hc, afterExchange_moves c _ s⟩
  | readHi =>
    rw [exec_readHi] at h
    obtain ⟨c, hc, rfl⟩ := emit_next h
    exact ⟨c, hc, afterExchange_moves c _ s⟩
  | setMosi b =>
    rw [exec_setMosi] at h
    obtain ⟨c, hc, -, rfl⟩ := issue_next h
    exact ⟨c, hc, (h0 c _).write c.mosi b rfl⟩
  | setSck b =>
    rw [exec_setSck] at h
    obtain ⟨c, hc, -, rfl⟩ := issue_next h
    exact ⟨c, hc, (h0 c _).write c.sck b rfl⟩
  | setRst b =>
    rw [exec_setRst] at h
    obtain ⟨c, hc, -, rfl⟩ := issue_next h
    exact ⟨c, hc, (h0 c _).write c.rst b rfl⟩
  | readMiso =>
    rw [exec_readMiso] at h
    obtain ⟨c, hc, -, rfl⟩ := issue_next h
    exact ⟨c, hc, (h0 c _).read⟩
  | transfer out =>
    rw [exec_transfer] at h
    obtain ⟨c, hc, -, rfl⟩ := issue_next h
    refine ⟨c, hc, ?_⟩
    change Driver.Moves c (isClockOrData c) s.toDriver _
    simpa using afterTransfer_moves c out s.toShifter
  | sync =>
    rw [exec_sync] at h
    obtain ⟨c, hc, -, rfl⟩ := issue_next h
    refine ⟨c, hc, ?_⟩
    change Driver.Moves c (isOutput c) s.toDriver _
    simpa using syncLoop_moves c syncAttempts (s.setAttempt 0)
  | readSignature index =>
    rw [exec_readSignature] at h
    obtain ⟨c, hc, -, rfl⟩ := issue_next h
    refine ⟨c, hc, ?_⟩
    change Driver.Moves c (isClockOrData c) s.toDriver _
    simpa using afterExchange_moves c (fmtReadSig index) (s.setSigidx index)
  | isBusy =>
    rw [exec_isBusy] at h
    obtain ⟨c, hc, -, rfl⟩ := issue_next h
    refine ⟨c, hc, ?_⟩
    change Driver.Moves c (isClockOrData c) s.toDriver _
    simpa [State.afterPoll] using afterExchange_moves c pollFrame s
  | erase =>
    rw [exec_erase] at h
    obtain ⟨c, hc, -, rfl⟩ := issue_next h
    have h1 := afterExchange_moves c fmtChipErase s
    have h2 := pollTurn_moves c .erasePolling ((s.afterExchange c fmtChipErase).setPollcnt 0)
    rw [State.setPollcnt_toShifter] at h2
    exact ⟨c, hc, h1.trans h2⟩
  | programPage data page =>
    rw [exec_programPage] at h
    split at h
    · obtain ⟨c, hc, -, rfl⟩ := issue_next h
      have h1 := afterFrames_moves c (pageFrames data page) (s.setPage data page)
      have h2 := pollTurn_moves c .pagePolling ((((s.setPage data page).afterFrames c
        (pageFrames data page)).setLoadidx pageBytes).setPollcnt 0)
      rw [State.setPollcnt_toShifter, State.setLoadidx_toShifter] at h2
      rw [State.setPage_toShifter] at h1
      exact ⟨c, hc, h1.trans h2⟩
    · cases h
  | readByte address =>
    rw [exec_readByte] at h
    obtain ⟨c, hc, -, rfl⟩ := issue_next h
    refine ⟨c, hc, ?_⟩
    change Driver.Moves c (isClockOrData c) s.toDriver _
    simpa using afterExchange_moves c (fmtRead address) (s.setAddr address)

/-- What a step can be: waiting for the host, running the host's next request, or one more poll. -/
theorem step_cases {s t : State} (h : step s = .next t) :
    (s.seq = .idle ∧ s.requests = [] ∧ t = s) ∨
    (∃ r rest i, s.seq = .idle ∧ s.requests = r :: rest ∧ decode r = .ok i ∧
      exec i (s.setRequests rest) = .next t) ∨
    (∃ c, s.seq ≠ .idle ∧ s.cfg = some c ∧ t = pollTurn c s.seq s) := by
  unfold step at h
  split at h
  · next hs =>
    unfold takeRequest at h
    split at h
    · next hr => cases h; exact .inl ⟨hs, hr, rfl⟩
    · next r rest hr =>
      split at h
      · next i hi => exact .inr (.inl ⟨r, rest, i, hs, hr, hi, h⟩)
      · next e he => cases e <;> simp [rejected] at h
  · next hs =>
    obtain ⟨c, hc, rfl⟩ := emit_next h
    exact .inr (.inr ⟨c, by simp [hs], hc, rfl⟩)
  · next hs =>
    obtain ⟨c, hc, rfl⟩ := emit_next h
    exact .inr (.inr ⟨c, by simp [hs], hc, rfl⟩)

/-- Everything a step does to the driver is moves of the three outputs. -/
theorem step_moves {s t : State} (h : step s = .next t) :
    t.toDriver = s.toDriver ∨
      ∃ c, s.cfg = some c ∧ Driver.Moves c (isOutput c) s.toDriver t.toDriver := by
  rcases step_cases h with ⟨-, -, rfl⟩ | ⟨r, rest, i, -, -, -, he⟩ | ⟨c, -, hc, rfl⟩
  · exact .inl rfl
  · obtain ⟨c, hc, hm⟩ := exec_moves he
    refine .inr ⟨c, hc, hm.mono fun p hp => ?_⟩
    cases i <;> simp only [writtenBits, isOutput, isClockOrData] at hp ⊢ <;> tauto
  · exact .inr ⟨c, hc, (pollTurn_moves c _ s).mono fun _ => isClockOrData.output⟩

end Sys2Proof.Machine
end

