-- ==== Sys2Proof/Laws/PerInstr.lean ====
section
/-! SUPPORT. Per instruction: the encoding of every instruction lies in its own row of the table, with the
row's `match` and `mask` (30_encoding.md R72) or its `OPSEL` (R83). -/

namespace Sys2Proof.Laws.TableRow

open Sys2Proof

/-- The row of spec/opcode_table.json an instruction belongs to, as a property of its encoding. -/
def Statement (i : Instr) : Prop :=
  let inRow (mask value : FrameWord) : Prop := ∃ F, encode i = .frame F ∧ F &&& mask = value
  let selects (k : BitVec 4) : Prop := ∃ operands, encode i = .host k operands
  match i with
  | .progEnable => inRow 0xFFFFFFFF#32 0xAC530000#32
  | .chipErase => inRow 0xFFFFFFFF#32 0xAC800000#32
  | .readSig _ => inRow 0xFFFFFCFF#32 0x30000000#32
  | .pollBusy => inRow 0xFFFFFFFF#32 0xF0000000#32
  | .loadLo _ _ => inRow 0xFFFFF000#32 0x40000000#32
  | .loadHi _ _ => inRow 0xFFFFF000#32 0x48000000#32
  | .writePage _ => inRow 0xFFFC0FFF#32 0x4C000000#32
  | .readLo _ => inRow 0xFF8000FF#32 0x20000000#32
  | .readHi _ => inRow 0xFF8000FF#32 0x28000000#32
  | .setMosi _ => selects 0#4
  | .setSck _ => selects 1#4
  | .setRst _ => selects 2#4
  | .readMiso => selects 3#4
  | .transfer _ => selects 4#4
  | .sync => selects 5#4
  | .readSignature _ => selects 6#4
  | .isBusy => selects 7#4
  | .erase => selects 8#4
  | .programPage _ _ => selects 9#4
  | .readByte _ => selects 10#4

/-- A masked word equals a value if it does bit by bit. -/
theorem masked_eq {F mask value : FrameWord}
    (h : ∀ i : Fin 32, (F.getLsbD i && mask.getLsbD i) = value.getLsbD i) : F &&& mask = value := by
  apply BitVec.eq_of_getLsbD_eq
  intro i hi
  rw [BitVec.getLsbD_and]
  exact h ⟨i, hi⟩

theorem progEnable : Statement .progEnable := ⟨_, rfl, by decide⟩

theorem chipErase : Statement .chipErase := ⟨_, rfl, by decide⟩

theorem readSig (idx : BitVec 2) : Statement (.readSig idx) :=
  ⟨_, rfl, masked_eq fun i => by
    simp only [BitVec.getLsbD_append]; fin_cases i <;> simp⟩

theorem pollBusy : Statement .pollBusy := ⟨_, rfl, by decide⟩

theorem loadLo (woff : BitVec 4) (data : Byte) : Statement (.loadLo woff data) :=
  ⟨_, rfl, masked_eq fun i => by
    simp only [BitVec.getLsbD_append]; fin_cases i <;> simp⟩

theorem loadHi (woff : BitVec 4) (data : Byte) : Statement (.loadHi woff data) :=
  ⟨_, rfl, masked_eq fun i => by
    simp only [BitVec.getLsbD_append]; fin_cases i <;> simp⟩

theorem writePage (pidx : BitVec 6) : Statement (.writePage pidx) :=
  ⟨_, rfl, masked_eq fun i => by
    simp only [BitVec.getLsbD_append]; fin_cases i <;> simp⟩

theorem readLo (wa : BitVec 15) : Statement (.readLo wa) :=
  ⟨_, rfl, masked_eq fun i => by
    simp only [BitVec.getLsbD_append]; fin_cases i <;> simp⟩

theorem readHi (wa : BitVec 15) : Statement (.readHi wa) :=
  ⟨_, rfl, masked_eq fun i => by
    simp only [BitVec.getLsbD_append]; fin_cases i <;> simp⟩

theorem setMosi (b : Bool) : Statement (.setMosi b) := ⟨_, rfl⟩

theorem setSck (b : Bool) : Statement (.setSck b) := ⟨_, rfl⟩

theorem setRst (b : Bool) : Statement (.setRst b) := ⟨_, rfl⟩

theorem readMiso : Statement .readMiso := ⟨_, rfl⟩

theorem transfer (out : List Byte) : Statement (.transfer out) := ⟨_, rfl⟩

theorem sync : Statement .sync := ⟨_, rfl⟩

theorem readSignature (index : Byte) : Statement (.readSignature index) := ⟨_, rfl⟩

theorem isBusy : Statement .isBusy := ⟨_, rfl⟩

theorem erase : Statement .erase := ⟨_, rfl⟩

theorem programPage (data : List Byte) (page : Byte) : Statement (.programPage data page) :=
  ⟨_, rfl⟩

theorem readByte (address : FlashAddr) : Statement (.readByte address) := ⟨_, rfl⟩

end Sys2Proof.Laws.TableRow
end

