-- ==== Sys2Proof/Laws/Target.lean ====
section
/-! SUPPORT. Everything the mock target can do with a frame (30_encoding.md R80). -/

namespace Sys2Proof.Machine

open Sys2Proof

/-- The decoder of frames reads frame instructions only, and each has an effect on the device. -/
theorem perform_of_decode {F : FrameWord} {i : Instr} (t : Target.Device)
    (h : decodeFrame F = .ok i) : ∃ r, t.perform i = some r := by
  obtain ⟨row, hrow, -, rfl⟩ := decodeFrame_ok h
  simp only [frameRows, List.mem_cons, List.not_mem_nil, or_false] at hrow
  rcases hrow with rfl | rfl | rfl | rfl | rfl | rfl | rfl | rfl | rfl <;> exact ⟨_, rfl⟩

/-- A word that is an instruction has that instruction's effect. -/
theorem accept_of_decode {t : Target.Device} {f : Frame} {i : Instr}
    {r : Target.Device × Option Byte} (h : decodeFrame (Frame.word f) = .ok i)
    (hp : t.perform i = some r) : t.accept f = .ok r := by
  simp only [Target.Device.accept, h, hp]

/-- A word that is no instruction is a fault, never a no-op. -/
theorem accept_of_error {t : Target.Device} {f : Frame} {e : DecodeError}
    (h : decodeFrame (Frame.word f) = .error e) :
    t.accept f = .error (.undefinedFrame (Frame.word f)) := by
  simp only [Target.Device.accept, h]

/-- A frame the device takes, then the others. -/
theorem acceptAll_cons {t : Target.Device} {f : Frame} {fs : List Frame}
    {r : Target.Device × Option Byte} (h : t.accept f = .ok r) :
    Target.Device.acceptAll (f :: fs) t = Target.Device.acceptAll fs r.1 := by
  simp only [Target.Device.acceptAll, h]

/-- Frames the device takes all of, then the others. -/
theorem acceptAll_append {t u : Target.Device} {fs : List Frame} (gs : List Frame)
    (h : Target.Device.acceptAll fs t = .ok u) :
    Target.Device.acceptAll (fs ++ gs) t = Target.Device.acceptAll gs u := by
  induction fs generalizing t with
  | nil => cases h; rfl
  | cons f fs ih =>
    simp only [Target.Device.acceptAll, List.cons_append] at h ⊢
    split at h
    · cases h
    · exact ih h

end Sys2Proof.Machine
end

