-- ==== Sys2Proof/Laws/Wire.lean ====
section
/-! SUPPORT. What a transfer does on the wire: the rising and falling edges of its events, the levels it
leaves, and the bits of PORT it does not touch (41_spi_transfer.md R104, R106, R182). -/

namespace Sys2Proof.Machine

open Sys2Proof

theorem afterBit_sck (c : Config) (p : Byte) (b : Bool) :
    (afterBit c p b).getLsbD c.sck = false := withBit_own _ _ _

theorem afterBit_mosi (c : Config) (p : Byte) (b : Bool) : (afterBit c p b).getLsbD c.mosi = b := by
  rw [afterBit, withBit_other _ _ c.mosi_ne_sck, withBit_own]

/-- A bit that is neither MOSI's nor SCK's is left alone by one bit of a transfer. -/
theorem afterBit_other (c : Config) (p : Byte) (b : Bool) {i : Nat} (hi : i < 8)
    (h₁ : i ≠ c.mosi.val) (h₂ : i ≠ c.sck.val) : (afterBit c p b).getLsbD i = p.getLsbD i := by
  rw [afterBit, withBit_getLsbD _ _ _ _ hi, if_neg h₂, withBit_getLsbD _ _ _ _ hi, if_neg h₁]

/-- Entered with SCK low, every bit is on MOSI at its rising edge. -/
theorem mosiAtRises_stream (c : Config) (ans : Nat → Byte) (bits : List Bool) (p : Byte)
    (h : p.getLsbD c.sck = false) : mosiAtRises c p (streamEvents c ans bits p) = bits := by
  induction bits generalizing ans p with
  | nil => rfl
  | cons b bits ih =>
    simp only [streamEvents, bitEvents, List.cons_append, List.nil_append, mosiAtRises]
    rw [ih _ _ (afterBit_sck c p b)]
    have e1 : (withBit c.mosi b p).getLsbD c.sck = false := by
      rw [withBit_other _ _ c.mosi_ne_sck.symm, h]
    have e2 : (withBit c.sck true (withBit c.mosi b p)).getLsbD c.sck = true := withBit_own _ _ _
    have e3 : (withBit c.sck true (withBit c.mosi b p)).getLsbD c.mosi = b := by
      rw [withBit_other _ _ c.mosi_ne_sck, withBit_own]
    simp only [e1, e2, e3, h, afterBit_sck, Bool.not_false, Bool.not_true, Bool.and_false,
      Bool.and_true, if_true, if_false, Bool.false_eq_true]

/-- Entered with SCK high, the first rising edge is missing. -/
theorem mosiAtRises_stream_high (c : Config) (ans : Nat → Byte) (bits : List Bool) (p : Byte)
    (h : p.getLsbD c.sck = true) : mosiAtRises c p (streamEvents c ans bits p) = bits.tail := by
  cases bits with
  | nil => rfl
  | cons b bits =>
    simp only [streamEvents, bitEvents, List.cons_append, List.nil_append, mosiAtRises]
    rw [mosiAtRises_stream c _ _ _ (afterBit_sck c p b)]
    have e1 : (withBit c.mosi b p).getLsbD c.sck = true := by
      rw [withBit_other _ _ c.mosi_ne_sck.symm, h]
    simp only [e1, h, afterBit_sck, withBit_own, Bool.not_true, Bool.and_false, Bool.and_true,
      if_false, Bool.false_eq_true, List.tail_cons]

/-- Entered with SCK low, there is one falling edge a bit. -/
theorem fallingEdges_stream (c : Config) (ans : Nat → Byte) (bits : List Bool) (p : Byte)
    (h : p.getLsbD c.sck = false) : fallingEdges c p (streamEvents c ans bits p) = bits.length := by
  induction bits generalizing ans p with
  | nil => rfl
  | cons b bits ih =>
    simp only [streamEvents, bitEvents, List.cons_append, List.nil_append, fallingEdges]
    rw [ih _ _ (afterBit_sck c p b)]
    have e1 : (withBit c.mosi b p).getLsbD c.sck = false := by
      rw [withBit_other _ _ c.mosi_ne_sck.symm, h]
    have e2 : (withBit c.sck true (withBit c.mosi b p)).getLsbD c.sck = true := withBit_own _ _ _
    simp only [e1, e2, h, afterBit_sck, Bool.not_false, Bool.not_true, Bool.and_false,
      Bool.and_true, if_true, if_false, Bool.false_eq_true, List.length_cons]
    omega

/-- Entered with SCK low, the edges alternate, the rising one first. -/
theorem sckEdges_stream (c : Config) (ans : Nat → Byte) (bits : List Bool) (p : Byte)
    (h : p.getLsbD c.sck = false) :
    sckEdges c p (streamEvents c ans bits p) =
      (List.replicate bits.length [true, false]).flatten := by
  induction bits generalizing ans p with
  | nil => rfl
  | cons b bits ih =>
    simp only [streamEvents, bitEvents, List.cons_append, List.nil_append, sckEdges]
    rw [ih _ _ (afterBit_sck c p b)]
    have e1 : (withBit c.mosi b p).getLsbD c.sck = false := by
      rw [withBit_other _ _ c.mosi_ne_sck.symm, h]
    have e2 : (withBit c.sck true (withBit c.mosi b p)).getLsbD c.sck = true := withBit_own _ _ _
    rw [e1, e2, h, afterBit_sck]
    rfl

/-- One status read and three port writes a bit (R100). -/
theorem counts_stream (c : Config) (ans : Nat → Byte) (bits : List Bool) (p : Byte) :
    countReads (streamEvents c ans bits p) = bits.length ∧
      countWrites (streamEvents c ans bits p) = 3 * bits.length := by
  induction bits generalizing ans p with
  | nil => exact ⟨rfl, rfl⟩
  | cons b bits ih =>
    have h := ih (fun n => ans (n + 1)) (afterBit c p b)
    refine ⟨?_, ?_⟩
    · show countReads (streamEvents c _ bits _) + 1 = _
      rw [h.1, List.length_cons]
    · show countWrites (streamEvents c _ bits _) + 1 + 1 + 1 = _
      rw [h.2, List.length_cons]
      omega

/-- A bit stream leaves SCK low and MOSI at its last bit (R104(d)). -/
theorem streamPort_levels (c : Config) (bits : List Bool) (p : Byte) (h : bits ≠ []) :
    (streamPort c bits p).getLsbD c.sck = false ∧
      bits.getLast? = some ((streamPort c bits p).getLsbD c.mosi) := by
  obtain ⟨l, b, rfl⟩ := (List.eq_nil_or_concat bits).resolve_left h
  simp only [streamPort, List.concat_eq_append, List.getLast?_concat]
  exact ⟨afterBit_sck c p b, congrArg some (afterBit_mosi c p b).symm⟩

/-- A bit stream leaves every other bit of PORT alone. -/
theorem streamPort_other (c : Config) (bits : List Bool) (p : Byte) {i : Nat} (hi : i < 8)
    (h₁ : i ≠ c.mosi.val) (h₂ : i ≠ c.sck.val) :
    (streamPort c bits p).getLsbD i = p.getLsbD i := by
  unfold streamPort
  split
  · rfl
  · exact afterBit_other c p _ hi h₁ h₂

/-- The last byte written by a bit stream is PORT after it. -/
theorem lastWritten_stream (c : Config) (ans : Nat → Byte) (bits : List Bool) (p : Byte) :
    lastWritten p (streamEvents c ans bits p) = streamPort c bits p := by
  induction bits generalizing ans p with
  | nil => rfl
  | cons b bits ih =>
    simp only [streamEvents, bitEvents, List.cons_append, List.nil_append, lastWritten,
      streamPort_cons]
    exact ih _ _

theorem lastWritten_append (p : Byte) (e₁ e₂ : List Event) :
    lastWritten p (e₁ ++ e₂) = lastWritten (lastWritten p e₁) e₂ := by
  induction e₁ generalizing p with
  | nil => rfl
  | cons e es ih => cases e <;> simp only [List.cons_append, lastWritten, ih]

theorem dataBeforeClock_append (c : Config) (p : Byte) (e₁ e₂ : List Event) :
    dataBeforeClock c p (e₁ ++ e₂) =
      (dataBeforeClock c p e₁ && dataBeforeClock c (lastWritten p e₁) e₂) := by
  induction e₁ generalizing p with
  | nil => rfl
  | cons e es ih =>
    cases e <;> simp only [List.cons_append, dataBeforeClock, lastWritten, ih, Bool.and_assoc]

/-- Entered with SCK low, a bit stream changes MOSI only while SCK is low (R182). -/
theorem dataBeforeClock_stream (c : Config) (ans : Nat → Byte) (bits : List Bool) (p : Byte)
    (h : p.getLsbD c.sck = false) : dataBeforeClock c p (streamEvents c ans bits p) = true := by
  induction bits generalizing ans p with
  | nil => rfl
  | cons b bits ih =>
    have ih' := ih (fun n => ans (n + 1)) (afterBit c p b) (afterBit_sck c p b)
    have e1 : (withBit c.mosi b p).getLsbD c.sck = false := by
      rw [withBit_other _ _ c.mosi_ne_sck.symm, h]
    have e3 : (withBit c.sck true (withBit c.mosi b p)).getLsbD c.mosi =
        (withBit c.mosi b p).getLsbD c.mosi := by
      rw [withBit_other _ _ c.mosi_ne_sck]
    have e4 : (afterBit c p b).getLsbD c.mosi = (withBit c.mosi b p).getLsbD c.mosi := by
      rw [afterBit_mosi, withBit_own]
    simp only [streamEvents, bitEvents, List.cons_append, List.nil_append, dataBeforeClock, ih', e1,
      h, e3, e4]
    simp

/-! The trace and PORT after a transfer, an exchange and a list of frames. -/

theorem Shifter.afterTransfer_driver (c : Config) (out : List Byte) (s : Shifter) :
    (s.afterTransfer c out).toDriver = s.toDriver.afterStream c (bitStream out) := by
  unfold Shifter.afterTransfer
  split
  · next e => subst e; exact (Driver.afterStream_nil _ _).symm
  · rfl

theorem State.afterExchange_trace (c : Config) (f : Frame) (s : State) :
    (s.afterExchange c f).trace =
      s.trace ++ streamEvents c s.answer (bitStream (Frame.toList f)) s.port := by
  rw [State.afterExchange_driver, Driver.afterStream_trace]

theorem State.afterExchange_port (c : Config) (f : Frame) (s : State) :
    (s.afterExchange c f).port = streamPort c (bitStream (Frame.toList f)) s.port := by
  rw [State.afterExchange_driver, Driver.afterStream_port]

theorem State.afterFrames_trace (c : Config) (fs : List Frame) (s : State) :
    (s.afterFrames c fs).trace = s.trace ++ frameEvents c fs s.toDriver := by
  rw [State.afterFrames_driver, Driver.afterStream_trace]
  rfl

/-- The events of one frame more. -/
theorem frameEvents_concat (c : Config) (f : Frame) (fs : List Frame) (s : State) :
    frameEvents c (fs ++ [f]) s.toDriver =
      frameEvents c fs s.toDriver ++ frameEvents c [f] (s.afterFrames c fs).toDriver := by
  unfold frameEvents
  rw [show frameBytes (fs ++ [f]) = frameBytes fs ++ frameBytes [f] by simp [frameBytes],
    bitStream_append, streamEvents_append, State.afterFrames_driver]
  congr 1
  rw [Driver.afterStream_port]
  congr 1
  funext n
  rw [Driver.afterStream_answer]

/-- Where the trace has grown by `evs`, those are the new events. -/
theorem newEvents_eq {s t : State} {evs : List Event} (h : t.trace = s.trace ++ evs) :
    newEvents s t = evs := by
  unfold newEvents
  rw [h, List.drop_left]

end Sys2Proof.Machine
end

