-- ==== Sys2Proof/Laws/Turn.lean ====
section
/-! SUPPORT. One turn of the busy-poll spin, one SYNC attempt, and one step of a run, field by field
(43_isp_operations.md R131, R134). -/

namespace Sys2Proof.Machine

open Sys2Proof

@[simp] theorem State.afterTurn_busyf (c : Config) (s : State) :
    (s.afterTurn c).busyf = busyBitAt c s.toDriver 0 := by
  simp only [State.afterTurn, State.setPollcnt_busyf, State.afterPoll, State.setBusyf_busyf]
  rfl

@[simp] theorem State.afterTurn_results (c : Config) (s : State) :
    (s.afterTurn c).results = s.results := by simp [State.afterTurn, State.afterPoll]

@[simp] theorem State.afterTurn_result (c : Config) (s : State) :
    (s.afterTurn c).result = s.result := by simp [State.afterTurn, State.afterPoll]

@[simp] theorem State.afterTurn_pollcnt (c : Config) (s : State) :
    (s.afterTurn c).pollcnt = pollsAfter c s := by simp [State.afterTurn, State.afterPoll]

@[simp] theorem State.afterTurn_page (c : Config) (s : State) : (s.afterTurn c).page = s.page := by
  simp [State.afterTurn, State.afterPoll]

@[simp] theorem State.afterTurn_phase (c : Config) (s : State) :
    (s.afterTurn c).phase = s.phase := by simp [State.afterTurn, State.afterPoll]

@[simp] theorem State.afterTurn_cfg (c : Config) (s : State) : (s.afterTurn c).cfg = s.cfg := by
  simp [State.afterTurn, State.afterPoll]

@[simp] theorem State.afterTurn_requests (c : Config) (s : State) :
    (s.afterTurn c).requests = s.requests := by simp [State.afterTurn, State.afterPoll]

/-- A turn writes only SEQ, RESULT and the record of results on top of its poll. -/
theorem pollTurn_of_afterTurn {α : Type} (field : State → α) (c : Config) (w : Seq) (s : State)
    (h₁ : ∀ u, field (State.handBack .pollTimeout u) = field u)
    (h₂ : ∀ u, field (State.setSeq w u) = field u) (h₃ : ∀ u : State, field u.finish = field u) :
    field (pollTurn c w s) = field (s.afterTurn c) := by
  rw [pollTurn_eq]
  split
  · split
    · rw [State.raise, h₁]
    · exact h₂ _
  · exact h₃ _

theorem pollTurn_busyf (c : Config) (w : Seq) (s : State) :
    (pollTurn c w s).busyf = busyBitAt c s.toDriver 0 :=
  (pollTurn_of_afterTurn State.busyf c w s (fun u => State.handBack_busyf _ u)
    (fun u => State.setSeq_busyf _ u) State.finish_busyf).trans (State.afterTurn_busyf c s)

theorem pollTurn_page (c : Config) (w : Seq) (s : State) : (pollTurn c w s).page = s.page :=
  (pollTurn_of_afterTurn State.page c w s (fun u => State.handBack_page _ u)
    (fun u => State.setSeq_page _ u) State.finish_page).trans (State.afterTurn_page c s)

theorem pollTurn_phase (c : Config) (w : Seq) (s : State) : (pollTurn c w s).phase = s.phase :=
  (pollTurn_of_afterTurn State.phase c w s (fun u => State.handBack_phase _ u)
    (fun u => State.setSeq_phase _ u) State.finish_phase).trans (State.afterTurn_phase c s)

theorem pollTurn_cfg (c : Config) (w : Seq) (s : State) : (pollTurn c w s).cfg = s.cfg :=
  (pollTurn_of_afterTurn State.cfg c w s (fun u => State.handBack_cfg _ u)
    (fun u => State.setSeq_cfg _ u) State.finish_cfg).trans (State.afterTurn_cfg c s)

theorem pollTurn_trace (c : Config) (w : Seq) (s : State) :
    (pollTurn c w s).trace = s.trace ++ frameEvents c [pollFrame] s.toDriver := by
  rw [pollTurn_driver, Driver.afterStream_trace]
  rfl

theorem pollTurn_trace_length (c : Config) (w : Seq) (s : State) :
    (pollTurn c w s).trace.length = s.trace.length + 128 := by
  rw [pollTurn_trace, List.length_append, frameEvents, streamEvents_length, bitStream_length,
    frameBytes_length]
  rfl

/-- After one turn the coming polls are those that came one further on. -/
theorem busyBitAt_pollTurn (c : Config) (w : Seq) (s : State) (n : Nat) :
    busyBitAt c (pollTurn c w s).toDriver n = busyBitAt c s.toDriver (n + 1) := by
  have h := busyBitAt_afterFrames c [pollFrame] s n
  rw [State.afterFrames_singleton, State.afterExchange_driver] at h
  rw [pollTurn_driver, h, List.length_singleton, Nat.add_comm]

/-- A step inside the spin is one turn. -/
theorem step_polling {c : Config} {s : State} (h : s.polling c) :
    step s = .next (pollTurn c s.seq s) := by
  have h2 := h.2
  unfold step
  split
  · next e => exact absurd e h2
  · exact emit_some _ h.1
  · exact emit_some _ h.1

/-- Everything a step inside the spin can do: with a configuration, one turn. -/
theorem step_spinning {s t : State} (hs : s.seq ≠ .idle) (h : step s = .next t) :
    ∃ c, s.polling c ∧ t = pollTurn c s.seq s := by
  rcases step_cases h with ⟨h₁, -⟩ | ⟨_, _, _, h₁, -⟩ | ⟨c, h₁, hc, rfl⟩
  · exact absurd h₁ hs
  · exact absurd h₁ hs
  · exact ⟨c, ⟨hc, h₁⟩, rfl⟩

/-- A polled state before it is judged, as a record over the exchange (R114, R134). -/
theorem State.afterTurn_eq (c : Config) (s : State) :
    s.afterTurn c = { s.afterExchange c pollFrame with
      busyf := busyBitAt c s.toDriver 0
      pollcnt := pollsAfter c s } := rfl

/-- A session that goes on as R188 permits starts with SYNC. -/
theorem restartPermitted_cons {r : Request} {rest : List Request}
    (h : restartPermitted (r :: rest) = true) : decode r = .ok .sync := by
  simp only [restartPermitted] at h
  split at h
  · next i hi =>
    have : i = .sync := by cases i <;> simp [permittedAfterStop] at h ⊢
    rw [hi, this]
  · cases h

/-- A run takes its first step, then the others. -/
theorem run_next {n : Nat} {s t : State} (h : step s = .next t) :
    Sys2Proof.core.run (n + 1) s = Sys2Proof.core.run n t := by
  have h' : Sys2Proof.core.step s = .next t := h
  simp only [Host.Core.run, h']

/-! One SYNC attempt, field by field. -/

theorem State.afterAttempt_port (c : Config) (s : State) :
    (s.afterAttempt c).port =
      streamPort c (bitStream (Frame.toList enableFrame)) (afterPulse c s.port) := by
  unfold State.afterAttempt
  rw [State.setAttempt_toShifter, State.afterExchange_port]
  rfl

theorem State.afterAttempt_trace (c : Config) (s : State) :
    (s.afterAttempt c).trace = s.trace ++ pulseEvents c s.port ++
      streamEvents c s.answer (bitStream (Frame.toList enableFrame)) (afterPulse c s.port) := by
  unfold State.afterAttempt
  rw [State.setAttempt_toShifter, State.afterExchange_trace]
  rfl

@[simp] theorem State.afterAttempt_seq (c : Config) (s : State) :
    (s.afterAttempt c).seq = s.seq := by
  unfold State.afterAttempt
  rw [State.setAttempt_seq, State.afterExchange_seq]
  rfl

@[simp] theorem State.afterAttempt_results (c : Config) (s : State) :
    (s.afterAttempt c).results = s.results := by
  unfold State.afterAttempt
  rw [State.setAttempt_results, State.afterExchange_results]
  rfl

@[simp] theorem State.afterAttempt_attempt (c : Config) (s : State) :
    (s.afterAttempt c).attempt = s.attempt + 1 := by
  unfold State.afterAttempt
  exact State.setAttempt_attempt _ _

@[simp] theorem State.afterAttempts_seq (c : Config) (n : Nat) (s : State) :
    (State.afterAttempts c n s).seq = s.seq := by
  induction n generalizing s with
  | zero => rfl
  | succ n ih => rw [State.afterAttempts, ih, State.afterAttempt_seq]

@[simp] theorem State.afterAttempts_results (c : Config) (n : Nat) (s : State) :
    (State.afterAttempts c n s).results = s.results := by
  induction n generalizing s with
  | zero => rfl
  | succ n ih => rw [State.afterAttempts, ih, State.afterAttempt_results]

/-- The reset pulse leaves every bit but SCK's and RST's alone. -/
theorem afterPulse_other (c : Config) (p : Byte) {i : Nat} (hi : i < 8) (h₁ : i ≠ c.sck.val)
    (h₂ : i ≠ c.rst.val) : (afterPulse c p).getLsbD i = p.getLsbD i := by
  rw [afterPulse, withBit_getLsbD _ _ _ _ hi, if_neg h₂, withBit_getLsbD _ _ _ _ hi, if_neg h₁]

end Sys2Proof.Machine
end

