-- ==== Sys2Proof/Tests/Slice0.lean ====
section
/-! SUPPORT. The model's own tests: the vectors of spec/95_test_vectors.md (their numbers V<n> stand in
each comment; nothing expected here was computed by the model), the check of instructions, the decoder on
words written out by hand, and a witness for every statement that has hypotheses. -/

namespace Sys2Proof.Tests

open Sys2Proof
open Sys2Proof.Machine

/-! ## Small states -/

/-- The parameter set PX of the vectors (decision D24). -/
def px : Config := { dataAddr := 0x378 }

/-- PX with a finite `POLL_LIMIT`. -/
def pxLimit (n : Nat) : Config := { dataAddr := 0x378, pollLimit := some n }

/-- The parameter set of vector V16. -/
def py : Config :=
  { mosi := 7, sck := 6, rst := 5, miso := 3, mosi_ne_sck := by decide, mosi_ne_rst := by decide,
    sck_ne_rst := by decide, dataAddr := 0x10 }

/-- The status answers under PX for which MISO spells the bytes. -/
def spells (bs : List Byte) : List Byte := (bitStream bs).map fun b => if b then 0x00#8 else 0x80#8

/-- An idle block. -/
def idle (c : Config) (port : Byte) (answers : List Byte) : State :=
  { State.boot (some c) port with answers := answers }

/-- An idle block the host has issued one request to. -/
def issued (c : Config) (r : Request) (answers : List Byte) : State :=
  { State.boot (some c) 0x00#8 with answers := answers, requests := [r] }

/-- A block inside the busy-poll spin of ERASE. -/
def spinning (c : Config) (answers : List Byte) : State :=
  { State.boot (some c) 0x00#8 with answers := answers, seq := .erasePolling }

/-- What a view of the next state shows, if there is one. -/
def seen {α : Type} (o : Host.Outcome State Fault Refusal) (view : State → α) : Option α :=
  match o with
  | .next t => some (view t)
  | .fault _ => none
  | .refused _ => none

/-- Page data of vector V70: `data[i] = i`. -/
def ramp : List Byte := (List.range 32).map (BitVec.ofNat 8)

/-! ## Well-formedness: a page of any other length is no operand (V72, R176(b)) -/

theorem test_wellFormed_page : (Instr.programPage ramp 5#8).wellFormed = true := by decide

theorem test_illFormed_short_page :
    (Instr.programPage (ramp.take 31) 5#8).wellFormed = false := by decide

theorem test_illFormed_long_page :
    (Instr.programPage (ramp ++ [0#8]) 5#8).wellFormed = false := by decide

theorem test_long_page_refused :
    exec (.programPage (ramp ++ [0#8]) 5#8) (idle px 0#8 []) = .refused (.pageLength 33) := rfl

/-! ## Decoding: words written out bit by bit from R71 -/

/-- Format K. -/
theorem test_decode_progEnable :
    decode (.frame 0b10101100_01010011_00000000_00000000#32) = .ok .progEnable := rfl

theorem test_decode_chipErase :
    decode (.frame 0b10101100_10000000_00000000_00000000#32) = .ok .chipErase := rfl

theorem test_decode_pollBusy :
    decode (.frame 0b11110000_00000000_00000000_00000000#32) = .ok .pollBusy := rfl

/-- Format S, index 2 (V33). -/
theorem test_decode_readSig :
    decode (.frame 0b00110000_00000000_00000010_00000000#32) = .ok (.readSig 2#2) := rfl

/-- Format L, h = 0, word offset 3, data 0x9A (V35). -/
theorem test_decode_loadLo :
    decode (.frame 0b01000000_00000000_00000011_10011010#32) = .ok (.loadLo 3#4 0x9A#8) := rfl

/-- Format L, h = 1, word offset 15, data 0x1F (V36). -/
theorem test_decode_loadHi :
    decode (.frame 0b01001000_00000000_00001111_00011111#32) = .ok (.loadHi 15#4 0x1F#8) := rfl

/-- Format P, page 16: the page index straddles two bytes (V37). -/
theorem test_decode_writePage :
    decode (.frame 0b01001100_00000001_00000000_00000000#32) = .ok (.writePage 16#6) := rfl

/-- Format R, h = 0, address 0x124 (V39a). -/
theorem test_decode_readLo :
    decode (.frame 0b00100000_00000000_10010010_00000000#32) = .ok (.readLo 0x92#15) := rfl

/-- Format R, h = 1, address 0xFFFF (V39b). -/
theorem test_decode_readHi :
    decode (.frame 0b00101000_01111111_11111111_00000000#32) = .ok (.readHi 0x7FFF#15) := rfl

/-- A reserved bit set in format L, and bit 31 of byte 1 set in format R: no instruction (R80). -/
theorem test_decode_reserved :
    decode (.frame 0x40001000#32) = .error (.undefinedFrame 0x40001000#32) ∧
    decode (.frame 0x20800000#32) = .error (.undefinedFrame 0x20800000#32) := ⟨rfl, rfl⟩

/-- The eleven select codes on their own operand shapes, and the first unassigned one (R83). -/
theorem test_decode_host :
    decode (.host 0#4 [1#8]) = .ok (.setMosi true) ∧ decode (.host 1#4 [0#8]) = .ok (.setSck false) ∧
    decode (.host 2#4 [1#8]) = .ok (.setRst true) ∧ decode (.host 3#4 []) = .ok .readMiso ∧
    decode (.host 4#4 [0xAC#8, 0x53#8]) = .ok (.transfer [0xAC#8, 0x53#8]) ∧
    decode (.host 5#4 []) = .ok .sync ∧ decode (.host 6#4 [2#8]) = .ok (.readSignature 2#8) ∧
    decode (.host 7#4 []) = .ok .isBusy ∧ decode (.host 8#4 []) = .ok .erase ∧
    decode (.host 9#4 (ramp ++ [5#8])) = .ok (.programPage ramp 5#8) ∧
    decode (.host 10#4 [0x01#8, 0x25#8]) = .ok (.readByte 0x0125#16) ∧
    decode (.host 11#4 []) = .error (.badOpsel 11#4) :=
  ⟨rfl, rfl, rfl, rfl, rfl, rfl, rfl, rfl, rfl, rfl, rfl, rfl⟩

theorem test_tableWord_frame : decodeTableWord 32 0x4C03F000 = some (.writePage 63#6) := by decide

theorem test_tableWord_host : decodeTableWord 4 9 = some (.programPage (List.replicate 32 0#8) 0#8) := by
  decide

/-! ## The Signal Driver (V2 to V9) -/

/-- V2: the write happens although the level does not change. -/
theorem test_setMosi_unchanged : seen (exec (.setMosi true) (idle px 0x01#8 []))
    (fun t => (t.port, t.trace)) = some (0x01#8, [.write 0x378 0x01#8]) := by decide +kernel

/-- V3. -/
theorem test_setMosi_clears : seen (exec (.setMosi false) (idle px 0x07#8 [])) (·.port) =
    some 0x06#8 := by decide +kernel

/-- V4. -/
theorem test_setSck_rises : seen (exec (.setSck true) (idle px 0x01#8 [])) (·.trace) =
    some [.write 0x378 0x03#8] := by decide +kernel

/-- V5. -/
theorem test_setSck_falls : seen (exec (.setSck false) (idle px 0x03#8 [])) (·.port) =
    some 0x01#8 := by decide +kernel

/-- V6: the unused bits are preserved. -/
theorem test_setRst_asserts : seen (exec (.setRst true) (idle px 0xF8#8 [])) (·.port) =
    some 0xFC#8 := by decide +kernel

/-- V7. -/
theorem test_setRst_releases : seen (exec (.setRst false) (idle px 0xFC#8 [])) (·.port) =
    some 0xF8#8 := by decide +kernel

/-- V8: the input is inverted, the junk bits are ignored. -/
theorem test_readMiso_one : seen (exec .readMiso (idle px 0x00#8 [0x7F#8]))
    (fun t => (t.result, t.trace)) = some (.bool true, [.read 0x379 0x7F#8]) := by decide +kernel

/-- V9a. -/
theorem test_readMiso_zero : seen (exec .readMiso (idle px 0x00#8 [0xFF#8])) (·.result) =
    some (.bool false) := by decide +kernel

/-! ## TRANSFER (V10, V16, V17, V20) -/

/-- V10: the first two bits' events, the result and PORT. -/
theorem test_transfer_events : seen (exec (.transfer [0xAC#8]) (idle px 0x00#8 (spells [0x53#8])))
    (fun t => (t.result, t.port, t.trace.length, t.trace.take 8)) =
    some (.bytes [0x53#8], 0x00#8, 32,
      [.read 0x379 0x80#8, .write 0x378 0x01#8, .write 0x378 0x03#8, .write 0x378 0x01#8,
        .read 0x379 0x00#8, .write 0x378 0x00#8, .write 0x378 0x02#8, .write 0x378 0x00#8]) := by
  decide +kernel

/-- V16: another parameter set. -/
theorem test_transfer_other_pins : seen (exec (.transfer [0x81#8]) (idle py 0x1F#8
      [0x00#8, 0x08#8, 0x08#8, 0x08#8, 0x08#8, 0x08#8, 0x08#8, 0x00#8]))
    (fun t => (t.result, t.port, t.trace.take 5)) =
    some (.bytes [0x81#8], 0x9F#8,
      [.read 0x11 0x00#8, .write 0x10 0x9F#8, .write 0x10 0xDF#8, .write 0x10 0x9F#8,
        .read 0x11 0x08#8]) := by decide +kernel

/-- V20: the one-bit delay of a loopback; V20a with MOSI high on entry. -/
theorem test_delayed : delayed false [0xAC#8, 0x53#8] = [0x56#8, 0x29#8] ∧
    delayed true [0xAC#8, 0x53#8] = [0xD6#8, 0x29#8] := by decide

/-! ## The frame instructions (V30 to V39b): the frame sent and what is extracted -/

/-- V30. -/
theorem test_progEnable : seen (exec .progEnable (idle px 0x00#8 (spells [0xFF#8, 0xFF#8, 0x53#8, 0#8])))
    (fun t => (t.cmd, echoOk t.rsp)) =
    some (⟨0xAC#8, 0x53#8, 0x00#8, 0x00#8⟩, true) := by decide +kernel

/-- V31. -/
theorem test_chipErase : seen (exec .chipErase (idle px 0x00#8 (spells [0#8, 0#8, 0#8, 0#8])))
    (fun t => (t.cmd, t.trace.length)) =
    some (⟨0xAC#8, 0x80#8, 0x00#8, 0x00#8⟩, 128) := by decide +kernel

/-- V34. -/
theorem test_readSig : seen (exec (.readSig 3#2) (idle px 0x00#8 (spells [0#8, 0#8, 0#8, 0x1E#8])))
    (fun t => (t.cmd, valueOf t.rsp)) =
    some (⟨0x30#8, 0x00#8, 0x03#8, 0x00#8⟩, 0x1E#8) := by decide +kernel

/-- V32, V55: bit 0 of the last byte alone counts. -/
theorem test_pollBusy : seen (exec .pollBusy (idle px 0x00#8 (spells [0xFF#8, 0xFF#8, 0xFF#8, 0xFE#8])))
    (fun t => (t.cmd, t.busyf)) =
    some (⟨0xF0#8, 0x00#8, 0x00#8, 0x00#8⟩, false) := by decide +kernel

/-- V35. -/
theorem test_loadLo : seen (exec (.loadLo 15#4 0xFF#8) (idle px 0x00#8 (spells [0#8, 0#8, 0#8, 0#8])))
    (·.cmd) = some ⟨0x40#8, 0x00#8, 0x0F#8, 0xFF#8⟩ := by decide +kernel

/-- V36: MOSI is left at the last data bit. -/
theorem test_loadHi : seen (exec (.loadHi 3#4 0xBD#8) (idle px 0x00#8 (spells [0#8, 0#8, 0#8, 0#8])))
    (fun t => (t.cmd, t.port)) = some (⟨0x48#8, 0x00#8, 0x03#8, 0xBD#8⟩, 0x01#8) := by decide +kernel

/-- V37. -/
theorem test_writePage : seen (exec (.writePage 63#6) (idle px 0x00#8 (spells [0#8, 0#8, 0#8, 0#8])))
    (·.cmd) = some ⟨0x4C#8, 0x03#8, 0xF0#8, 0x00#8⟩ := by decide +kernel

/-- V39a: address 2046. -/
theorem test_readLo : seen (exec (.readLo 1023#15) (idle px 0x00#8 (spells [0#8, 0#8, 0#8, 0x7C#8])))
    (fun t => (t.cmd, valueOf t.rsp)) =
    some (⟨0x20#8, 0x03#8, 0xFF#8, 0x00#8⟩, 0x7C#8) := by decide +kernel

/-- V39b: address 0xFFFF. -/
theorem test_readHi : seen (exec (.readHi 0x7FFF#15) (idle px 0x00#8 (spells [0#8, 0#8, 0#8, 0x7C#8])))
    (fun t => (t.cmd, valueOf t.rsp)) =
    some (⟨0x28#8, 0x7F#8, 0xFF#8, 0x00#8⟩, 0x7C#8) := by decide +kernel

/-! ## The operations (V40 to V80) -/

/-- V42: no echo in byte 0 or 3, success in the third attempt. -/
theorem test_sync_third : seen (exec .sync (idle px 0x00#8 (spells
      [0x00#8, 0x00#8, 0x52#8, 0x00#8, 0x53#8, 0x00#8, 0x00#8, 0x53#8, 0xAC#8, 0x53#8, 0x53#8, 0x53#8])))
    (fun t => (t.result, t.phase, t.trace.length, t.port)) =
    some (.success, .synchronized, 402, 0x00#8) := by decide +kernel

/-- V40: the first ten events from PORT 0x07. -/
theorem test_sync_events : seen (exec .sync (idle px 0x07#8 (spells [0xFF#8, 0xFF#8, 0x53#8, 0x00#8])))
    (fun t => (t.trace.take 10, t.trace.length)) =
    some ([.write 0x378 0x05#8, .wait 1, .write 0x378 0x05#8, .wait 1, .write 0x378 0x01#8, .wait 50,
      .read 0x379 0x00#8, .write 0x378 0x01#8, .write 0x378 0x03#8, .write 0x378 0x01#8], 134) := by
  decide +kernel

/-- V44: three attempts that are not echoed. -/
theorem test_sync_failure : seen (exec .sync (idle px 0x00#8 (List.replicate 96 0x00#8)))
    (fun t => (t.result, t.phase, t.seq, t.trace.length)) =
    some (.failure, .syncFailed, .idle, 402) := by decide +kernel

/-- V50 with V34's corner: index 255 is sent as 3. -/
theorem test_readSignature : seen (exec (.readSignature 255#8)
      (idle px 0x00#8 (spells [0x00#8, 0x30#8, 0x00#8, 0x1E#8])))
    (fun t => (t.result, t.cmd)) =
    some (.byte 0x1E#8, ⟨0x30#8, 0x00#8, 0x03#8, 0x00#8⟩) := by decide +kernel

/-- V55. -/
theorem test_isBusy_yes : seen (exec .isBusy (idle px 0x00#8 (spells [0#8, 0#8, 0#8, 0x01#8])))
    (·.result) = some (.bool true) := by decide +kernel

theorem test_isBusy_no : seen (exec .isBusy (idle px 0x00#8 (spells [0#8, 0#8, 0#8, 0xFE#8])))
    (·.result) = some (.bool false) := by decide +kernel

/-- V60: the step that issues ERASE goes on polling while the answer is busy. -/
theorem test_erase_busy : seen (exec .erase (idle px 0x00#8
      (spells [0#8, 0#8, 0#8, 0#8, 0#8, 0#8, 0#8, 0x01#8])))
    (fun t => (t.seq, t.busyf, t.trace.length)) = some (.erasePolling, true, 256) := by decide +kernel

/-- V62's bound at one poll: PollTimeout. -/
theorem test_erase_timeout : seen (exec .erase (idle (pxLimit 1) 0x00#8
      (spells [0#8, 0#8, 0#8, 0#8, 0#8, 0#8, 0#8, 0x01#8])))
    (fun t => (t.seq, t.result, t.trace.length)) = some (.idle, .pollTimeout, 256) := by decide +kernel

/-- V63: the not-busy test comes before the limit test. -/
theorem test_poll_ready_at_limit :
    seen (step { spinning (pxLimit 2) (spells [0#8, 0#8, 0#8, 0x00#8]) with pollcnt := 1 })
      (fun t => (t.seq, t.results, t.pollcnt)) = some (.idle, [.none], 2) := by decide +kernel

/-- V62: the second busy poll of two. -/
theorem test_poll_timeout :
    seen (step { spinning (pxLimit 2) (spells [0#8, 0#8, 0#8, 0x01#8]) with pollcnt := 1 })
      (fun t => (t.seq, t.result)) = some (.idle, .pollTimeout) := by decide +kernel

/-- V70, V71: the frames of the page by the formatter. -/
theorem test_page_frames : (pageFrames ramp 5#8).length = 33 ∧
    (pageFrames ramp 5#8).getD 7 ⟨0#8, 0#8, 0#8, 0#8⟩ = ⟨0x48#8, 0x00#8, 0x03#8, 0x07#8⟩ ∧
    (pageFrames ramp 5#8).getD 32 ⟨0#8, 0#8, 0#8, 0#8⟩ = ⟨0x4C#8, 0x00#8, 0x50#8, 0x00#8⟩ := by decide

/-- V70's shape with no busy poll: the operation returns after the first poll. -/
theorem test_programPage_returns : seen (exec (.programPage ramp 5#8)
      (idle px 0x00#8 (List.replicate 1088 0x80#8)))
    (fun t => (t.seq, t.port, t.loadidx, t.page.getD 7 0#8)) =
    some (.idle, 0x00#8, 32, 0x07#8) := by decide +kernel

/-- V70: a busy first poll keeps it polling. -/
theorem test_programPage_polls : seen (exec (.programPage ramp 5#8)
      (idle px 0x00#8 (List.replicate 1088 0x00#8)))
    (fun t => (t.seq, t.cmd)) =
    some (.pagePolling, ⟨0xF0#8, 0x00#8, 0x00#8, 0x00#8⟩) := by decide +kernel

/-- V80: address 33. -/
theorem test_readByte_odd : seen (exec (.readByte 33#16)
      (idle px 0x00#8 (spells [0#8, 0#8, 0#8, 0x7C#8])))
    (fun t => (t.result, t.cmd, t.trace.length)) =
    some (.byte 0x7C#8, ⟨0x28#8, 0x00#8, 0x10#8, 0x00#8⟩, 128) := by decide +kernel

/-- V80: address 32. -/
theorem test_readByte_even : seen (exec (.readByte 32#16)
      (idle px 0x00#8 (spells [0#8, 0#8, 0#8, 0x7C#8])))
    (·.cmd) = some ⟨0x20#8, 0x00#8, 0x10#8, 0x00#8⟩ := by decide +kernel

/-- R153, S8: the second block of a 40-byte image is padded with 0xFF from its byte 8 on. -/
theorem test_block_padding :
    (Workflow.block (List.replicate 40 0x12#8) 1).getD 7 0#8 = 0x12#8 ∧
    (Workflow.block (List.replicate 40 0x12#8) 1).getD 8 0#8 = 0xFF#8 := by decide

/-- R80: the mock target faults on a LOAD_LO with a reserved bit set, and on a word of no row. -/
theorem test_mock_target_faults (t : Target.Device) :
    t.accept ⟨0x40#8, 0x00#8, 0x10#8, 0x00#8⟩ = .error (.undefinedFrame 0x40001000#32) ∧
    t.accept ⟨0xC0#8, 0x00#8, 0x00#8, 0x00#8⟩ = .error (.undefinedFrame 0xC0000000#32) := ⟨rfl, rfl⟩

/-- R188: after an outside stop a host may not go on with ERASE or a raw transfer, but with a SYNC, and
after it with anything. -/
theorem test_restart_only_sync : restartPermitted [encode .erase, encode .sync] = false ∧
    restartPermitted [encode (.transfer [0xAC#8])] = false ∧
    restartPermitted [encode .sync, encode .erase] = true := by decide

/-- R188: stopped after the third of SYNC's events, the write that asserts reset (PX, PORT 0x02: SCK low,
a wait, RST high): PORT holds that byte and PHASE is Unsynchronized. -/
theorem test_interrupted_sync :
    let s := { idle px 0x02#8 (spells [0xFF#8, 0xFF#8, 0x53#8, 0x00#8]) with phase := .synchronized }
    seen (exec .sync s) (fun t => ((s.interrupted t 3).port, (s.interrupted t 3).phase)) =
      some (0x04#8, .unsynchronized) := by decide +kernel

/-- R151: an image of 2049 bytes is too large, one of 2048 bytes is not. -/
theorem test_image_size : Workflow.operations (List.replicate 2049 0#8) = none ∧
    (Workflow.operations (List.replicate 2048 0#8)).isSome = true := by
  refine ⟨if_neg (by rw [List.length_replicate]; decide), ?_⟩
  rw [Workflow.operations, if_pos (by rw [List.length_replicate]; decide)]
  rfl

/-! ## Witnesses: every statement with hypotheses has a state and operands that meet them all -/

/-- A block that is ready: the premise of most statements. -/
theorem idle_ready (c : Config) (p : Byte) (l : List Byte) : (idle c p l).ready c := ⟨rfl, rfl⟩

theorem spinning_polling (c : Config) (l : List Byte) : (spinning c l).polling c :=
  ⟨rfl, by show Seq.erasePolling ≠ Seq.idle; decide⟩

/-- A later poll that answers: the premise of every clause about a step inside the spin. -/
theorem spinning_steps (c : Config) (l : List Byte) :
    (spinning c l).seq ≠ .idle ∧ ∃ t, step (spinning c l) = .next t :=
  ⟨(spinning_polling c l).2, _, step_polling (spinning_polling c l)⟩

/-- A word that matches no row is no instruction's encoding. -/
theorem not_encoded {F : FrameWord} (h : frameRows.all (fun r => F &&& r.mask != r.value) = true) :
    ∀ i, encode i ≠ .frame F := by
  intro i hi
  have key : ∀ (m v : FrameWord) (b : FrameWord → Instr), (⟨m, v, b⟩ : FrameRow) ∈ frameRows →
      ∀ G, encode i = .frame G → G &&& m = v → False := by
    intro m v b hm G hG hv
    rw [hi] at hG
    cases hG
    have := List.all_eq_true.1 h _ hm
    simp [hv] at this
  cases i with
  | progEnable =>
    obtain ⟨G, h1, h2⟩ := Laws.TableRow.progEnable
    exact key _ _ _ (by simp only [frameRows]; exact .head _) G h1 h2
  | chipErase =>
    obtain ⟨G, h1, h2⟩ := Laws.TableRow.chipErase
    exact key _ _ _ (.tail _ (.head _)) G h1 h2
  | readSig idx =>
    obtain ⟨G, h1, h2⟩ := Laws.TableRow.readSig idx
    exact key _ _ _ (.tail _ (.tail _ (.head _))) G h1 h2
  | pollBusy =>
    obtain ⟨G, h1, h2⟩ := Laws.TableRow.pollBusy
    exact key _ _ _ (.tail _ (.tail _ (.tail _ (.head _)))) G h1 h2
  | loadLo w d =>
    obtain ⟨G, h1, h2⟩ := Laws.TableRow.loadLo w d
    exact key _ _ _ (.tail _ (.tail _ (.tail _ (.tail _ (.head _))))) G h1 h2
  | loadHi w d =>
    obtain ⟨G, h1, h2⟩ := Laws.TableRow.loadHi w d
    exact key _ _ _ (.tail _ (.tail _ (.tail _ (.tail _ (.tail _ (.head _)))))) G h1 h2
  | writePage p =>
    obtain ⟨G, h1, h2⟩ := Laws.TableRow.writePage p
    exact key _ _ _ (.tail _ (.tail _ (.tail _ (.tail _ (.tail _ (.tail _ (.head _))))))) G h1 h2
  | readLo w =>
    obtain ⟨G, h1, h2⟩ := Laws.TableRow.readLo w
    exact key _ _ _ (.tail _ (.tail _ (.tail _ (.tail _ (.tail _ (.tail _ (.tail _ (.head _))))))))
      G h1 h2
  | readHi w =>
    obtain ⟨G, h1, h2⟩ := Laws.TableRow.readHi w
    exact key _ _ _ (.tail _ (.tail _ (.tail _ (.tail _ (.tail _ (.tail _ (.tail _ (.tail _
      (.head _))))))))) G h1 h2
  | setMosi _ | setSck _ | setRst _ | readMiso | transfer _ | sync | readSignature _ | isBusy
  | erase | programPage _ _ | readByte _ => cases hi

theorem witness_StepRunsIssuedInstruction :
    (issued px (encode .erase) []).seq = .idle ∧
    (issued px (encode .erase) []).requests = encode .erase :: [] ∧
    decode (encode .erase) = .ok .erase := ⟨rfl, rfl, rfl⟩

theorem witness_FrameEncodingUnique :
    decode (.frame 0x4C03F000#32) = .ok (.writePage 63#6) := rfl

/-- A near miss of PROG_ENABLE, a reserved bit in a READ_LO, and one in a LOAD_LO for the mock target; and
a LOAD_HI it takes. -/
theorem witness_UndefinedFrameWordFaults :
    (issued px (.frame 0xAC530001#32) []).seq = .idle ∧
    (issued px (.frame 0xAC530001#32) []).requests = .frame 0xAC530001#32 :: [] ∧
    (∀ i, encode i ≠ .frame 0xAC530001#32) ∧ (∀ i, encode i ≠ .frame 0x20800000#32) ∧
    (∀ i, encode i ≠ .frame (Frame.word ⟨0x40#8, 0x00#8, 0x10#8, 0x00#8⟩)) ∧
    encode (.loadHi 15#4 0x1F#8) = .frame (Frame.word ⟨0x48#8, 0x00#8, 0x0F#8, 0x1F#8⟩) :=
  ⟨rfl, rfl, not_encoded (by decide), not_encoded (by decide), not_encoded (by decide), rfl⟩

/-- The first and the last unassigned select code. -/
theorem witness_OpselSelectsOperation :
    11 ≤ (11#4).toNat ∧ 11 ≤ (15#4).toNat ∧ (issued px (.host 15#4 []) []).seq = .idle ∧
    (issued px (.host 15#4 []) []).requests = .host 15#4 [] :: [] := ⟨by decide, by decide, rfl, rfl⟩

/-- Each of the four refusals at its boundary: select codes 11 and 15, pages of 31 and 33 bytes, a bit
position 8 for each line and the three coincidences, an operation while ERASE polls. -/
theorem witness_MalformedRequestsRefused :
    (11 ≤ (11#4).toNat ∧ 11 ≤ (15#4).toNat) ∧
    ((ramp.take 31).length ≠ 32 ∧ (ramp ++ [0#8]).length ≠ 32) ∧
    (Config.check ⟨8, 1, 2, 7, 0, none⟩ = none ∧ Config.check ⟨0, 8, 2, 7, 0, none⟩ = none ∧
      Config.check ⟨0, 1, 8, 7, 0, none⟩ = none ∧ Config.check ⟨0, 1, 2, 8, 0, none⟩ = none ∧
      Config.check ⟨1, 1, 2, 7, 0, none⟩ = none ∧ Config.check ⟨2, 1, 2, 7, 0, none⟩ = none ∧
      Config.check ⟨0, 2, 2, 7, 0, none⟩ = none ∧
      (Config.check ⟨0, 1, 2, 0, 0, none⟩).isSome = true) ∧
    ((spinning px []).cfg = some px ∧ (spinning px []).seq ≠ .idle ∧
      isOperation .isBusy = true ∧ Instr.isBusy.wellFormed = true) :=
  ⟨by decide, by decide, by decide, rfl, (spinning_polling px []).2, rfl, rfl⟩

theorem witness_SettersWriteOwnBit : (idle px 0xFF#8 []).ready px := idle_ready _ _ _

theorem witness_ReadMisoReturnsInvertedBit : (idle px 0x00#8 [0x7F#8]).ready px := idle_ready _ _ _

theorem witness_OutputsIndependent : (idle py 0xA5#8 []).ready py := idle_ready _ _ _

/-- The clause about SCK low. -/
theorem witness_ShiftByteReceivesSamples : (idle px 0x00#8 []).port.getLsbD px.sck = false := rfl

theorem witness_TransferReturnsAsManyBytes : (idle px 0x00#8 []).ready px ∧ ([] : List Byte) = [] :=
  ⟨idle_ready _ _ _, rfl⟩

theorem witness_TransferPinLaws :
    (idle px 0xFD#8 []).ready px ∧ [0xAC#8] ≠ [] ∧ (idle px 0xFD#8 []).port.getLsbD px.sck = false :=
  ⟨idle_ready _ _ _, by decide, rfl⟩

/-- V20: the answers a wire from MOSI to MISO gives while 0xAC, 0x53 are sent. -/
theorem witness_LoopbackDelaysByOneBit :
    (idle px 0x00#8 (spells [0x56#8, 0x29#8])).ready px ∧
    loopedBack px (idle px 0x00#8 (spells [0x56#8, 0x29#8])).port
      (streamEvents px (idle px 0x00#8 (spells [0x56#8, 0x29#8])).answer
        (bitStream [0xAC#8, 0x53#8]) (idle px 0x00#8 (spells [0x56#8, 0x29#8])).port) = true :=
  ⟨idle_ready _ _ _, by decide +kernel⟩

/-- V17: PORT 0x02. -/
theorem witness_SckHighLosesFirstEdge :
    (idle px 0x02#8 []).ready px ∧ [0x80#8] ≠ [] ∧ (idle px 0x02#8 []).port.getLsbD px.sck = true :=
  ⟨idle_ready _ _ _, by decide, rfl⟩

theorem witness_ExchangeSendsFrame : (idle px 0x00#8 []).port.getLsbD px.sck = false := rfl

theorem witness_ProgEnableExchanges : (idle px 0x00#8 []).cfg = some px := rfl

theorem witness_ChipEraseExchanges : (idle px 0x00#8 []).cfg = some px := rfl

theorem witness_ReadSigExchanges : (idle px 0x00#8 []).cfg = some px := rfl

theorem witness_PollBusySetsBusyFlag : (spinning px []).cfg = some px := rfl

theorem witness_LoadExchanges :
    (idle px 0x00#8 []).cfg = some px ∧
    ((0#8).toNat < 32 ∧ (0#8).getLsbD 0 = false) ∧ ((30#8).toNat < 32 ∧ (30#8).getLsbD 0 = false) ∧
    ((1#8).toNat < 32 ∧ (1#8).getLsbD 0 = true) ∧ ((31#8).toNat < 32 ∧ (31#8).getLsbD 0 = true) :=
  ⟨rfl, by decide, by decide, by decide, by decide⟩

theorem witness_WritePageExchanges : (idle px 0x00#8 []).cfg = some px := rfl

theorem witness_ReadExchanges :
    (idle px 0x00#8 []).cfg = some px ∧
    (0x0000#16).getLsbD 0 = false ∧ (0xFFFE#16).getLsbD 0 = false ∧
    (0x0001#16).getLsbD 0 = true ∧ (0xFFFF#16).getLsbD 0 = true :=
  ⟨rfl, by decide, by decide, by decide, by decide⟩

theorem witness_FrameSentIsItsEncoding :
    encode .chipErase = .frame 0xAC800000#32 ∧ ∃ t, exec .chipErase (idle px 0x00#8 []) = .next t :=
  ⟨rfl, _, (exec_chipErase _).trans (emit_some _ rfl)⟩

/-- A frame that is no load, and a load. -/
theorem witness_FrameSetShape :
    (idle px 0x00#8 []).cfg = some px ∧ isOperation .chipErase = false ∧
    (∃ t, exec .chipErase (idle px 0x00#8 []) = .next t) ∧
    (∀ w d, Instr.chipErase ≠ .loadLo w d ∧ Instr.chipErase ≠ .loadHi w d) ∧
    isOperation (.loadHi 15#4 0x1F#8) = false ∧
    (∃ t, exec (.loadHi 15#4 0x1F#8) (idle px 0x00#8 []) = .next t) :=
  ⟨rfl, rfl, ⟨_, (exec_chipErase _).trans (emit_some _ rfl)⟩, fun _ _ => by simp, rfl,
    ⟨_, (exec_loadHi _ _ _).trans (emit_some _ rfl)⟩⟩

theorem witness_LoadCommitReadAgree : (0 < 64 ∧ 0 < 32) ∧ (63 < 64 ∧ 31 < 32) := by decide

theorem witness_DeviceReadsBackPage : ramp.length = 32 ∧ (63 < 64 ∧ 31 < 32) := by decide

/-- The first attempt, and the last (V42). -/
theorem witness_SyncSucceedsAtFirstEcho :
    (receivedByte px (idle px 0x07#8 (spells [0xFF#8, 0xFF#8, 0x53#8, 0x00#8])).toDriver
      (4 * 0 + 2) = 0x53#8) ∧
    (∀ j, j < 2 → receivedByte px (idle px 0x00#8 (spells [0x00#8, 0x00#8, 0x52#8, 0x00#8,
      0x53#8, 0x00#8, 0x00#8, 0x53#8, 0xAC#8, 0x53#8, 0x53#8, 0x53#8])).toDriver (4 * j + 2) ≠ 0x53#8) ∧
    (receivedByte px (idle px 0x00#8 (spells [0x00#8, 0x00#8, 0x52#8, 0x00#8,
      0x53#8, 0x00#8, 0x00#8, 0x53#8, 0xAC#8, 0x53#8, 0x53#8, 0x53#8])).toDriver (4 * 2 + 2) = 0x53#8) ∧
    (idle px 0x07#8 (spells [0xFF#8, 0xFF#8, 0x53#8, 0x00#8])).ready px :=
  ⟨by decide +kernel, by decide +kernel, by decide +kernel, idle_ready _ _ _⟩

/-- V44. -/
theorem witness_SyncFailsAfterThreeAttempts :
    (idle px 0x00#8 (List.replicate 96 0x00#8)).ready px ∧
    ∀ j, j < 3 → receivedByte px (idle px 0x00#8 (List.replicate 96 0x00#8)).toDriver
      (4 * j + 2) ≠ 0x53#8 :=
  ⟨idle_ready _ _ _, by decide +kernel⟩

theorem witness_ReadSignatureReturnsByte : (idle px 0x00#8 []).ready px := idle_ready _ _ _

theorem witness_IsBusyReturnsLowBit : (idle px 0x00#8 []).ready px := idle_ready _ _ _

theorem witness_ReadByteReturnsByte : (idle px 0x00#8 []).ready px := idle_ready _ _ _

theorem witness_EraseCompletesWhenReady :
    (idle px 0x00#8 (List.replicate 64 0x80#8)).ready px ∧
    busyBitAt px (idle px 0x00#8 (List.replicate 64 0x80#8)).toDriver 1 = false :=
  ⟨idle_ready _ _ _, by decide +kernel⟩

/-- Unbounded; a limit that leaves a poll (2); limits that leave none (1 and 0). -/
theorem witness_EraseWaitsWhileBusy :
    (∀ c ∈ [px, pxLimit 2, pxLimit 1, pxLimit 0],
      busyBitAt c (idle c 0x00#8 (List.replicate 64 0x00#8)).toDriver 1 = true) ∧
    (∀ c, (idle c 0x00#8 (List.replicate 64 0x00#8)).ready c) ∧
    px.pollLimit = none ∧ (pxLimit 2).pollLimit = some 2 ∧ 1 < 2 ∧
    (pxLimit 1).pollLimit = some 1 ∧ 1 ≤ 1 ∧ (pxLimit 0).pollLimit = some 0 ∧ 0 ≤ 1 :=
  ⟨by decide +kernel, fun _ => idle_ready _ _ _, by decide, by decide, by decide, by decide,
    by decide, by decide, by decide⟩

theorem witness_ProgramPageCompletesWhenReady :
    (idle px 0x00#8 (List.replicate 1088 0x80#8)).ready px ∧ ramp.length = 32 ∧
    busyBitAt px (idle px 0x00#8 (List.replicate 1088 0x80#8)).toDriver 33 = false :=
  ⟨idle_ready _ _ _, by decide, by decide +kernel⟩

theorem witness_ProgramPageWaitsWhileBusy :
    (∀ c ∈ [px, pxLimit 2, pxLimit 1, pxLimit 0],
      busyBitAt c (idle c 0x00#8 (List.replicate 1088 0x00#8)).toDriver 33 = true) ∧
    (∀ c, (idle c 0x00#8 (List.replicate 1088 0x00#8)).ready c) ∧ ramp.length = 32 ∧
    px.pollLimit = none ∧ (pxLimit 2).pollLimit = some 2 ∧ 1 < 2 ∧
    (pxLimit 1).pollLimit = some 1 ∧ 1 ≤ 1 ∧ (pxLimit 0).pollLimit = some 0 ∧ 0 ≤ 1 :=
  ⟨by decide +kernel, fun _ => idle_ready _ _ _, by decide, by decide, by decide, by decide,
    by decide, by decide, by decide, by decide⟩

/-- A ready answer; a busy one with no limit, with a limit that leaves a poll, and at the limit. -/
theorem witness_PollTurnJudgesAnswer :
    (∀ c l, (spinning c l).polling c) ∧
    busyBitAt px (spinning px (List.replicate 32 0x80#8)).toDriver 0 = false ∧
    (∀ c ∈ [px, pxLimit 2, pxLimit 1],
      busyBitAt c (spinning c (List.replicate 32 0x00#8)).toDriver 0 = true) ∧
    px.pollLimit = none ∧
    ((pxLimit 2).pollLimit = some 2 ∧ (spinning (pxLimit 2) []).pollcnt + 1 < 2) ∧
    ((pxLimit 1).pollLimit = some 1 ∧ 1 ≤ (spinning (pxLimit 1) []).pollcnt + 1) :=
  ⟨spinning_polling, by decide +kernel, by decide +kernel, by decide, by decide, by decide⟩

theorem witness_UnboundedSpinHangs :
    (spinning px (List.replicate 64 0x00#8)).polling px ∧ px.pollLimit = none ∧
    ∀ j, j < 2 → busyBitAt px (spinning px (List.replicate 64 0x00#8)).toDriver (0 + j) = true :=
  ⟨spinning_polling _ _, by decide, by decide +kernel⟩

/-- Busy once, then ready, with the smallest limit that is not reached. -/
theorem witness_SpinEndsAtFirstReadyPoll :
    (spinning (pxLimit 2) (spells [0#8, 0#8, 0#8, 1#8, 0#8, 0#8, 0#8, 0#8])).polling (pxLimit 2) ∧
    (∀ j, j < 1 → busyBitAt (pxLimit 2)
      (spinning (pxLimit 2) (spells [0#8, 0#8, 0#8, 1#8, 0#8, 0#8, 0#8, 0#8])).toDriver (0 + j) = true) ∧
    busyBitAt (pxLimit 2)
      (spinning (pxLimit 2) (spells [0#8, 0#8, 0#8, 1#8, 0#8, 0#8, 0#8, 0#8])).toDriver 1 = false ∧
    ∀ l, (pxLimit 2).pollLimit = some l → (spinning (pxLimit 2)
      (spells [0#8, 0#8, 0#8, 1#8, 0#8, 0#8, 0#8, 0#8])).pollcnt + 1 < l :=
  ⟨spinning_polling _ _, by decide +kernel, by decide +kernel, fun l h => by cases h; decide⟩

theorem witness_PollTimeoutAfterLimit :
    (issued (pxLimit 2) (encode .erase) (List.replicate 96 0x00#8)).ready (pxLimit 2) ∧
    (issued (pxLimit 2) (encode .erase) (List.replicate 96 0x00#8)).requests = encode .erase :: [] ∧
    (pxLimit 2).pollLimit = some (1 + 1) ∧
    ∀ j, j < 1 + 1 → busyBitAt (pxLimit 2)
      (issued (pxLimit 2) (encode .erase) (List.replicate 96 0x00#8)).toDriver (1 + j) = true :=
  ⟨⟨rfl, rfl⟩, rfl, rfl, by decide +kernel⟩

/-- A block that satisfies the invariant and takes a step that does something. -/
theorem witness_StepKeepsInvariant :
    (issued px (encode (.setMosi true)) []).Inv ∧
    ∃ t, step (issued px (encode (.setMosi true)) []) = .next t :=
  ⟨⟨List.Pairwise.nil, fun _ _ => .inl rfl, rfl, by decide, by decide, by decide⟩, _, rfl⟩

theorem witness_StepMakesOnlyAllowedEvents :
    (issued px (encode (.setMosi true)) []).cfg = some px ∧
    ∃ t, step (issued px (encode (.setMosi true)) []) = .next t := ⟨rfl, _, rfl⟩

/-- A step, READ_MISO, TRANSFER of no bytes, and an instruction that writes. -/
theorem witness_StoresOnlyAtDataAddr :
    (issued px (encode (.setMosi true)) []).cfg = some px ∧
    (∃ t, step (issued px (encode (.setMosi true)) []) = .next t) ∧
    0 ≠ px.dataAddr ∧ px.statusAddr ≠ px.dataAddr ∧
    (∃ t, exec .readMiso (idle px 0x00#8 []) = .next t) ∧
    (∃ t, exec (.transfer []) (idle px 0x00#8 []) = .next t) ∧
    (∃ t, exec (.setSck true) (idle px 0x00#8 []) = .next t) :=
  ⟨rfl, ⟨_, rfl⟩, by decide, by decide, ⟨_, rfl⟩, ⟨_, rfl⟩, ⟨_, rfl⟩⟩

/-- From idle, and from inside the spin. -/
theorem witness_StepKeepsParameters :
    ((issued px (encode (.setMosi true)) []).seq = .idle ∧
      ∃ t, step (issued px (encode (.setMosi true)) []) = .next t) ∧
    ((spinning px []).seq ≠ .idle ∧ ∃ t, step (spinning px []) = .next t) :=
  ⟨⟨rfl, _, rfl⟩, (spinning_polling px []).2, _, step_polling (spinning_polling px [])⟩

/-- SYNC, another instruction, and a later poll. -/
theorem witness_OnlySyncWritesPhase :
    (∃ t, exec .sync (idle px 0x00#8 []) = .next t) ∧
    (Instr.isBusy ≠ .sync ∧ ∃ t, exec .isBusy (idle px 0x00#8 []) = .next t) ∧
    ((spinning px []).seq ≠ .idle ∧ ∃ t, step (spinning px []) = .next t) :=
  ⟨⟨_, (exec_sync _).trans (issue_ready _ (idle_ready _ _ _))⟩,
    ⟨by decide, _, (exec_isBusy _).trans (issue_ready _ (idle_ready _ _ _))⟩, spinning_steps px []⟩

theorem witness_OnlySyncAndSetRstWriteRst :
    (idle px 0x04#8 []).cfg = some px ∧ Instr.isBusy ≠ .sync ∧ (∀ b, Instr.isBusy ≠ .setRst b) ∧
    (∃ t, exec .isBusy (idle px 0x04#8 []) = .next t) ∧
    ((spinning px []).polling px ∧ ∃ t, step (spinning px []) = .next t) :=
  ⟨rfl, by decide, by decide, ⟨_, (exec_isBusy _).trans (issue_ready _ (idle_ready _ _ _))⟩,
    spinning_polling px [], (spinning_steps px []).2⟩

theorem witness_DataBeforeClockKept :
    (idle px 0x05#8 []).cfg = some px ∧ (idle px 0x05#8 []).port.getLsbD px.sck = false ∧
    (∃ t, exec .sync (idle px 0x05#8 []) = .next t) ∧
    ((spinning px []).polling px ∧ (spinning px []).port.getLsbD px.sck = false ∧
      ∃ t, step (spinning px []) = .next t) :=
  ⟨rfl, rfl, ⟨_, (exec_sync _).trans (issue_ready _ (idle_ready _ _ _))⟩,
    spinning_polling px [], rfl, (spinning_steps px []).2⟩

theorem witness_SckLowKept :
    (idle px 0x05#8 []).cfg = some px ∧ (idle px 0x05#8 []).port.getLsbD px.sck = false ∧
    Instr.setSck false ≠ .setSck true ∧
    (∃ t, exec (.setSck false) (idle px 0x05#8 []) = .next t) ∧
    ((spinning px []).polling px ∧ ∃ t, step (spinning px []) = .next t) :=
  ⟨rfl, rfl, by decide, ⟨_, rfl⟩, spinning_polling px [], (spinning_steps px []).2⟩

theorem witness_PhaseNeverRead : (∃ t, exec .sync (idle px 0x00#8 []) = .next t) ∧
    ((spinning px []).seq ≠ .idle ∧ ∃ t, step (spinning px []) = .next t) :=
  ⟨⟨_, (exec_sync _).trans (issue_ready _ (idle_ready _ _ _))⟩, spinning_steps px []⟩

theorem witness_TraceNeverRead : (∃ t, exec .isBusy (idle px 0x00#8 []) = .next t) ∧
    ((spinning px []).seq ≠ .idle ∧ ∃ t, step (spinning px []) = .next t) :=
  ⟨⟨_, (exec_isBusy _).trans (issue_ready _ (idle_ready _ _ _))⟩, spinning_steps px []⟩

/-- Two blocks whose leftovers differ, an operation that completes and one that goes on polling; and two
blocks inside the spin whose leftovers but POLLCNT differ. -/
theorem witness_LeftoversNeverObserved :
    (idle px 0x00#8 []).sameVisible { idle px 0x00#8 [] with rxsr := 0xA5#8, pollcnt := 7 } ∧
    (∃ t, exec .readMiso (idle px 0x00#8 []) = .next t ∧ t.seq = .idle) ∧
    isOperation .readMiso = true ∧ isOperation .erase = true ∧
    seen (exec .erase (idle px 0x00#8 (List.replicate 64 0x00#8))) (·.seq) = some .erasePolling ∧
    (spinning px []).sameVisible { spinning px [] with rxsr := 0xA5#8, busyf := true } ∧
    (spinning px []).pollcnt = ({ spinning px [] with rxsr := 0xA5#8, busyf := true } : State).pollcnt ∧
    ((spinning px []).seq ≠ .idle ∧ ∃ t, step (spinning px []) = .next t) :=
  ⟨⟨rfl, rfl, rfl, rfl, rfl, rfl, rfl, rfl⟩, ⟨_, rfl, rfl⟩, rfl, rfl, by decide +kernel,
    ⟨rfl, rfl, rfl, rfl, rfl, rfl, rfl, rfl⟩, rfl, spinning_steps px []⟩

/-- An operation that completes, one that goes on polling; a later poll that ends the operation, one that
times out, and one that does not end it. -/
theorem witness_OneResultPerOperation :
    isOperation .readMiso = true ∧ isOperation .erase = true ∧
    (∃ t, exec .readMiso (idle px 0x00#8 []) = .next t ∧ t.seq = .idle) ∧
    seen (exec .erase (idle px 0x00#8 (List.replicate 64 0x00#8))) (·.seq) = some .erasePolling ∧
    (∀ c l, (spinning c l).seq ≠ .idle ∧ ∃ t, step (spinning c l) = .next t) ∧
    seen (step (spinning px (List.replicate 32 0x80#8))) (·.seq) = some .idle ∧
    seen (step (spinning (pxLimit 1) (List.replicate 32 0x00#8))) (·.seq) = some .idle ∧
    seen (step (spinning px (List.replicate 32 0x00#8))) (·.seq) = some .erasePolling :=
  ⟨rfl, rfl, ⟨_, rfl, rfl⟩, by decide +kernel, spinning_steps, by decide +kernel, by decide +kernel,
    by decide +kernel⟩

theorem witness_InterruptedKeepsUnusedBits :
    (issued px (encode .sync) []).cfg = some px ∧ ∃ t, step (issued px (encode .sync) []) = .next t :=
  ⟨rfl, _, rfl⟩

/-- SYNC stopped before its first event, and the host goes on with another SYNC. -/
theorem witness_StoppedSessionResumesWithSync :
    (issued px (encode .sync) []).cfg = some px ∧
    (∃ t, step (issued px (encode .sync) []) = .next t) ∧
    restartPermitted [encode .sync, encode .erase] = true :=
  ⟨rfl, ⟨_, rfl⟩, rfl⟩

end Sys2Proof.Tests
end

section
/-! PROOFS. The SPI Transfer Engine bit by bit and byte by byte (41_spi_transfer.md R100, R101). -/

namespace Sys2Proof.Machine

open Sys2Proof

/-- The bits of a byte go out most significant first: the `k`-th on the wire is bit `7 - k` (R101). -/
theorem bitsOf_eq_map_range (b : Byte) :
    bitsOf b = (List.range 8).map fun k => b.getLsbD (7 - k) := rfl

/-- `result[7-k] = m_k` (R101). -/
theorem byteOfBits_getLsbD (m : Nat → Bool) {k : Nat} (hk : k < 8) :
    (byteOfBits m).getLsbD (7 - k) = m k := by
  interval_cases k <;> simp [byteOfBits, BitVec.ofBoolListBE, BitVec.getElem_cons]

/-- Bit `7 - k` of the `j`-th byte MISO spells is its `k`-th sample (R94, R101). -/
theorem receivedByte_getLsbD (c : Config) (d : Driver) (j : Nat) {k : Nat} (hk : k < 8) :
    (receivedByte c d j).getLsbD (7 - k) = !(d.answer (8 * j + k)).getLsbD c.miso :=
  byteOfBits_getLsbD _ hk

/-- Settles O13: the closed form of SHIFT_BIT, a bit stream of one bit. -/
theorem shiftBitSamplesDrivesPulses : Obligations.ShiftBitSamplesDrivesPulses := by
  intro c s m p₁ p₂ p₃
  have hp₃ : p₃ = afterBit c s.port (s.txsr.getLsbD 7) := withBit_withBit c.sck true false p₁
  rw [shiftBit_eq, hp₃]
  exact ⟨Driver.afterStream_trace c [s.txsr.getLsbD 7] s.toDriver, rfl, rfl, rfl, rfl, rfl, rfl⟩

/-- Settles O14: the closed form of SHIFT_BYTE, whose RXSR is the byte MISO spells, and the laws of the
stream of the byte's eight bits. -/
theorem shiftByteReceivesSamples : Obligations.ShiftByteReceivesSamples := by
  intro c b s
  obtain ⟨hreads, hwrites⟩ := counts_stream c s.answer (bitsOf b) s.port
  rw [shiftByte_eq]
  refine ⟨fun k hk => ?received, Driver.afterStream_trace c (bitsOf b) s.toDriver,
    streamEvents_length c s.answer (bitsOf b) s.port, hreads, hwrites, fun hsck => ?sent⟩
  case received => simpa using receivedByte_getLsbD c s.toDriver 0 hk
  case sent => rw [mosiAtRises_stream c _ _ _ hsck, bitsOf_eq_map_range]

end Sys2Proof.Machine
end

section
/-! PROOFS. The frames the sequencer extracts something from (42_isp_frames.md R111, R113, R114). -/

namespace Sys2Proof.Machine

open Sys2Proof

/-- READ_SIG's two-bit field in its byte is the operand masked to its low two bits (R74, R113). -/
theorem append_setWidth_two (index : Byte) : 0#6 ++ index.setWidth 2 = index &&& 0x03#8 := by
  apply BitVec.eq_of_getLsbD_eq
  intro i hi
  rw [BitVec.getLsbD_append]
  interval_cases i <;> simp

/-- The new events of EXCHANGE are those of its frame (R110). -/
theorem State.afterExchange_frameEvents (c : Config) (f : Frame) (s : State) :
    (s.afterExchange c f).trace = s.trace ++ frameEvents c [f] s.toDriver := by
  rw [← State.afterFrames_singleton, State.afterFrames_trace]

/-- EXCHANGE leaves RST as it was (R110). -/
theorem State.afterExchange_rst (c : Config) (f : Frame) (s : State) :
    (s.afterExchange c f).port.getLsbD c.rst = s.port.getLsbD c.rst := by
  rw [State.afterExchange_port]
  exact streamPort_other c _ _ c.rst.isLt (Fin.val_ne_of_ne c.mosi_ne_rst.symm)
    (Fin.val_ne_of_ne c.sck_ne_rst.symm)

/-- The echo test reads all of the third byte received (R111). -/
theorem echoOk_afterExchange (c : Config) (f : Frame) (s : State) :
    echoOk (s.afterExchange c f).rsp = true ↔ receivedByte c s.toDriver 2 = 0x53#8 := by
  rw [State.afterExchange_rsp]
  exact beq_iff_eq

/-- The value read is all of the fourth byte received (R113). -/
theorem valueOf_afterExchange (c : Config) (f : Frame) (s : State) :
    valueOf (s.afterExchange c f).rsp = receivedByte c s.toDriver 3 := by
  rw [State.afterExchange_rsp]
  rfl

/-- Settles O60: each frame is an EXCHANGE in closed form, and POLL_BUSY writes BUSYF on top of it. -/
theorem framesExtract : Obligations.FramesExtract := by
  refine ⟨rfl, rfl, fun index => ?encoding, fun c index s => ⟨?enable, ?signature, ?poll⟩⟩
  case encoding => rw [encode, append_setWidth_two]
  case enable =>
    rw [progEnable, exchange_eq]
    exact ⟨State.afterExchange_cmd c _ s, State.afterExchange_rsp c _ s,
      State.afterExchange_frameEvents c _ s, echoOk_afterExchange c _ s,
      State.afterExchange_busyf c _ s, State.afterExchange_phase c _ s,
      State.afterExchange_rst c _ s⟩
  case signature =>
    rw [readSig, exchange_eq]
    exact ⟨State.afterExchange_cmd c _ s, State.afterExchange_rsp c _ s,
      State.afterExchange_frameEvents c _ s, valueOf_afterExchange c _ s,
      State.afterExchange_busyf c _ s, State.afterExchange_phase c _ s,
      State.afterExchange_rst c _ s⟩
  case poll =>
    simp only [pollBusy_eq, State.afterPoll, State.setBusyf_toShifter, State.setBusyf_cmd,
      State.setBusyf_rsp, State.setBusyf_busyf, State.setBusyf_phase, true_and]
    exact ⟨State.afterExchange_cmd c _ s, State.afterExchange_rsp c _ s,
      State.afterExchange_frameEvents c _ s, State.afterExchange_phase c _ s,
      State.afterExchange_rst c _ s⟩

end Sys2Proof.Machine
end

section
/-! PROOFS. The encoding: the round trip between instructions and requests, and the rows of the frame
table (30_encoding.md R71, R72, R80, R83). -/

namespace Sys2Proof.Machine

open Sys2Proof

theorem decodeBool_encodeBool (b : Bool) : decodeBool (encodeBool b) = some b := by
  cases b <;> rfl

theorem decodeSet_encodeBool (opsel : BitVec 4) (b : Bool) (k : Bool → Instr) :
    decodeSet opsel [encodeBool b] k = .ok (k b) := by
  simp only [decodeSet, decodeBool_encodeBool]

theorem decodePage_append (opsel : BitVec 4) (data : List Byte) (page : Byte) :
    decodePage opsel (data ++ [page]) = .ok (.programPage data page) := by
  simp only [decodePage, List.getLast?_concat, List.dropLast_concat]

/-- An address is its high byte followed by its low byte (log 5). -/
theorem address_of_bytes (a : FlashAddr) : a.extractLsb' 8 8 ++ a.extractLsb' 0 8 = a :=
  (BitVec.extractLsb'_append_extractLsb'_eq_extractLsb' (len₁ := 8) rfl).trans
    BitVec.extractLsb'_eq_self

/-- A field below `lo` bits and above it is read back (R71). -/
theorem extractLsb'_field {m n k : Nat} (hi : BitVec m) (field : BitVec n) (lo : BitVec k) :
    (hi ++ field ++ lo).extractLsb' k n = field := by
  rw [BitVec.extractLsb'_append_eq_of_le le_rfl, BitVec.extractLsb'_append_eq_of_add_le (by omega),
    Nat.sub_self, BitVec.extractLsb'_eq_self]

/-- As `extractLsb'_field`, where the field is padded to a byte. -/
theorem extractLsb'_padded {m p n k : Nat} (hi : BitVec m) (pad : BitVec p) (field : BitVec n)
    (lo : BitVec k) : (hi ++ (pad ++ field) ++ lo).extractLsb' k n = field := by
  rw [BitVec.extractLsb'_append_eq_of_le le_rfl, BitVec.extractLsb'_append_eq_of_add_le (by omega),
    Nat.sub_self, BitVec.extractLsb'_append_eq_right]

/-- The frame decoder reads an encoding that lies in the `k`-th row and whose fields are the operands
(R71, R72). -/
theorem decode_encode_of_row {i : Instr} {r : FrameRow} (k : Nat) (hk : frameRows[k]? = some r)
    (hrow : ∃ F, encode i = .frame F ∧ F &&& r.mask = r.value)
    (hfields : ∀ F, encode i = .frame F → r.build F = i) : decode (encode i) = .ok i := by
  obtain ⟨F, hF, hm⟩ := hrow
  rw [hF]
  exact (decodeFrame_of_row k hk hm).trans (congrArg _ (hfields F hF))

/-- Settles O3: a frame's word lies in its own row, whose fields are the operands; the operand bytes of a
host operation are read back by its own operand decoder. -/
theorem decodeEncodeRoundTrip : Obligations.DecodeEncodeRoundTrip := by
  intro i
  cases i with
  | progEnable => exact decode_encode_of_row 0 rfl Laws.TableRow.progEnable fun _ _ => rfl
  | chipErase => exact decode_encode_of_row 1 rfl Laws.TableRow.chipErase fun _ _ => rfl
  | readSig idx =>
    refine decode_encode_of_row 2 rfl (Laws.TableRow.readSig idx) ?_
    rintro F ⟨⟩
    exact congrArg Instr.readSig (extractLsb'_padded _ _ idx _)
  | pollBusy => exact decode_encode_of_row 3 rfl Laws.TableRow.pollBusy fun _ _ => rfl
  | loadLo woff data =>
    refine decode_encode_of_row 4 rfl (Laws.TableRow.loadLo woff data) ?_
    rintro F ⟨⟩
    exact congrArg₂ Instr.loadLo (extractLsb'_padded _ _ woff _) BitVec.extractLsb'_append_eq_right
  | loadHi woff data =>
    refine decode_encode_of_row 5 rfl (Laws.TableRow.loadHi woff data) ?_
    rintro F ⟨⟩
    exact congrArg₂ Instr.loadHi (extractLsb'_padded _ _ woff _) BitVec.extractLsb'_append_eq_right
  | writePage pidx =>
    refine decode_encode_of_row 6 rfl (Laws.TableRow.writePage pidx) ?_
    rintro F ⟨⟩
    have hbyte : (0x4C#8 ++ 0#6 ++ pidx ++ 0#4 ++ 0x00#8).extractLsb' 12 6 =
        (0x4C#8 ++ 0#6 ++ pidx ++ 0#4).extractLsb' 4 6 :=
      BitVec.extractLsb'_append_eq_of_le (by decide)
    exact congrArg Instr.writePage (hbyte.trans (extractLsb'_field _ pidx _))
  | readLo wa =>
    refine decode_encode_of_row 7 rfl (Laws.TableRow.readLo wa) ?_
    rintro F ⟨⟩
    exact congrArg Instr.readLo (extractLsb'_field _ wa _)
  | readHi wa =>
    refine decode_encode_of_row 8 rfl (Laws.TableRow.readHi wa) ?_
    rintro F ⟨⟩
    exact congrArg Instr.readHi (extractLsb'_field _ wa _)
  | setMosi b => exact decodeSet_encodeBool 0#4 b .setMosi
  | setSck b => exact decodeSet_encodeBool 1#4 b .setSck
  | setRst b => exact decodeSet_encodeBool 2#4 b .setRst
  | readMiso | sync | isBusy | erase | transfer _ | readSignature _ => rfl
  | programPage data page => exact decodePage_append 9#4 data page
  | readByte a => exact congrArg (Except.ok ∘ Instr.readByte) (address_of_bytes a)

/-- A word has a row's value wherever the row's mask is set (R72). -/
theorem getLsbD_of_masked {F m v : FrameWord} (h : F &&& m = v) {i : Nat}
    (hm : m.getLsbD i = true) : F.getLsbD i = v.getLsbD i := by
  rw [← h, BitVec.getLsbD_and, hm, Bool.and_true]

/-- A word of a row is the encoding of the row's instruction: each of its bits is the row's value or a
bit of a field (R71, R72). -/
theorem encode_build {r : FrameRow} {F : FrameWord} (hr : r ∈ frameRows)
    (h : F &&& r.mask = r.value) : encode (r.build F) = .frame F := by
  simp only [frameRows, List.mem_cons, List.not_mem_nil, or_false] at hr
  rcases hr with rfl | rfl | rfl | rfl | rfl | rfl | rfl | rfl | rfl <;>
  · have fixed := fun i => @getLsbD_of_masked F _ _ h i
    refine congrArg Request.frame (BitVec.eq_of_getLsbD_eq fun i hi => ?_)
    simp only [BitVec.getLsbD_append, BitVec.getLsbD_extractLsb']
    interval_cases i <;> simp [fixed, -BitVec.getLsbD_eq_getElem]

/-- Settles O5: the row a word was read by fixes every bit that is no operand's. -/
theorem frameEncodingUnique : Obligations.FrameEncodingUnique := by
  intro F i h
  obtain ⟨r, hr, hm, rfl⟩ := decodeFrame_ok h
  exact encode_build hr hm

/-- A word read as an instruction has every property of that instruction's encoding. -/
theorem row_of_decode {F m v : FrameWord} {i : Instr} (h : decode (.frame F) = .ok i)
    (hrow : ∃ G, encode i = .frame G ∧ G &&& m = v) : F &&& m = v := by
  obtain ⟨G, hG, hm⟩ := hrow
  have hF := frameEncodingUnique F i h
  cases hF.symm.trans hG
  exact hm

/-- Settles O4: a word that matches a row is read by it, and a word read as the row's instruction is an
encoding of it, which lies in the row. -/
theorem frameWordIsInstructionIffRowMatches : Obligations.FrameWordIsInstructionIffRowMatches := by
  intro F
  refine ⟨⟨fun h => row_of_decode h Laws.TableRow.progEnable, decodeFrame_of_row 0 rfl⟩,
    ⟨fun h => row_of_decode h Laws.TableRow.chipErase, decodeFrame_of_row 1 rfl⟩,
    ⟨fun ⟨idx, h⟩ => row_of_decode h (Laws.TableRow.readSig idx),
      fun h => ⟨_, decodeFrame_of_row 2 rfl h⟩⟩,
    ⟨fun h => row_of_decode h Laws.TableRow.pollBusy, decodeFrame_of_row 3 rfl⟩,
    ⟨fun ⟨w, d, h⟩ => row_of_decode h (Laws.TableRow.loadLo w d),
      fun h => ⟨_, _, decodeFrame_of_row 4 rfl h⟩⟩,
    ⟨fun ⟨w, d, h⟩ => row_of_decode h (Laws.TableRow.loadHi w d),
      fun h => ⟨_, _, decodeFrame_of_row 5 rfl h⟩⟩,
    ⟨fun ⟨p, h⟩ => row_of_decode h (Laws.TableRow.writePage p),
      fun h => ⟨_, decodeFrame_of_row 6 rfl h⟩⟩,
    ⟨fun ⟨a, h⟩ => row_of_decode h (Laws.TableRow.readLo a),
      fun h => ⟨_, decodeFrame_of_row 7 rfl h⟩⟩,
    ⟨fun ⟨a, h⟩ => row_of_decode h (Laws.TableRow.readHi a),
      fun h => ⟨_, decodeFrame_of_row 8 rfl h⟩⟩⟩

/-- A word that encodes no instruction is undefined (R80). -/
theorem decodeFrame_of_not_encoded {F : FrameWord} (h : ∀ i, encode i ≠ .frame F) :
    decodeFrame F = .error (.undefinedFrame F) := by
  cases hd : decodeFrame F with
  | ok i => exact absurd (frameEncodingUnique F i hd) (h i)
  | error e =>
    unfold decodeFrame at hd
    split at hd
    · cases hd
    · rw [← hd]

/-- An idle block stops at a request that is no instruction, with the name of the error (R176, R80). -/
theorem step_rejected {s : State} {r : Request} {rest : List Request} {e : DecodeError}
    (hs : s.seq = .idle) (hr : s.requests = r :: rest) (hd : decode r = .error e) :
    step s = rejected e := by
  simp only [step, hs, takeRequest, hr, hd]

/-- Settles O6: a word that encodes nothing is undefined for the step and for the mock target, and one
that encodes an instruction is read as it. -/
theorem undefinedFrameWordFaults : Obligations.UndefinedFrameWordFaults := by
  refine ⟨fun s F rest hs hr hF => step_rejected hs hr (decodeFrame_of_not_encoded hF),
    fun t f => ⟨fun hf => accept_of_error (decodeFrame_of_not_encoded hf), fun i hi => ?_⟩⟩
  have hd : decodeFrame (Frame.word f) = .ok i := by
    have h := decodeEncodeRoundTrip i
    rwa [hi] at h
  obtain ⟨r, hp⟩ := perform_of_decode t hd
  exact ⟨r, hp, accept_of_decode hd hp⟩

/-- An unassigned select code is refused by name (R83, R176(a)). -/
theorem step_badOpsel {s : State} {k : BitVec 4} {o : List Byte} {rest : List Request}
    (hk : 11 ≤ k.toNat) (hs : s.seq = .idle) (hr : s.requests = .host k o :: rest) :
    step s = .refused (.badOpsel k) := by
  have hd : decode (.host k o) = .error (.badOpsel k) := by
    simp only [decode, decodeHost]
    split
    case h_12 => rfl
    all_goals omega
  exact step_rejected hs hr hd

/-- Settles O7: the round trip, read at each select code; and the refusal of the others. -/
theorem opselSelectsOperation : Obligations.OpselSelectsOperation := by
  have round := decodeEncodeRoundTrip
  refine ⟨fun b => ⟨_, rfl, round (.setMosi b)⟩, fun b => ⟨_, rfl, round (.setSck b)⟩,
    fun b => ⟨_, rfl, round (.setRst b)⟩, ⟨rfl, rfl⟩, fun _ => ⟨rfl, rfl⟩, ⟨rfl, rfl⟩,
    fun _ => ⟨rfl, rfl⟩, ⟨rfl, rfl⟩, ⟨rfl, rfl⟩,
    fun data page => ⟨rfl, round (.programPage data page)⟩, fun hi lo => ⟨?_, rfl⟩,
    fun s k o rest => step_badOpsel⟩
  simp only [encode, BitVec.extractLsb'_append_eq_left, BitVec.extractLsb'_append_eq_right]

/-- Settles O2: the decoder computes on each word. -/
theorem specWordsDecode : Obligations.SpecWordsDecode :=
  ⟨rfl, rfl, rfl, rfl, rfl, rfl, rfl, rfl, rfl, rfl, rfl⟩

/-- A step of an idle block whose next request is an instruction (R130). -/
theorem step_of_decode {s : State} {r : Request} {rest : List Request} {i : Instr}
    (hs : s.seq = .idle) (hr : s.requests = r :: rest) (hd : decode r = .ok i) :
    step s = exec i (s.setRequests rest) := by
  simp only [step, hs, takeRequest, hr, hd]

/-- Settles O1: taking the request is the update of the queue. -/
theorem stepRunsIssuedInstruction : Obligations.StepRunsIssuedInstruction :=
  fun _ _ _ _ hs hr hd => step_of_decode hs hr hd

end Sys2Proof.Machine
end

section
/-! PROOFS. The effect of every instruction as one function of the configuration, the instruction and the
state, and what each kind of request is refused for (43_isp_operations.md R130, 60_exceptions.md R176). -/

namespace Sys2Proof.Machine

open Sys2Proof

/-- What an instruction that is not refused does: the twenty closed forms as one function. -/
def effect (c : Config) (i : Instr) (s : State) : State :=
  match i with
  | .progEnable => s.afterExchange c fmtProgEnable
  | .chipErase => s.afterExchange c fmtChipErase
  | .readSig idx => s.afterExchange c (fmtReadSig (0#6 ++ idx))
  | .pollBusy => s.afterPoll c
  | .loadLo woff data => s.afterExchange c (fmtLoadLo (evenIndex woff) data)
  | .loadHi woff data => s.afterExchange c (fmtLoadHi (oddIndex woff) data)
  | .writePage pidx => s.afterExchange c (fmtWritePage (0#2 ++ pidx))
  | .readLo wa => s.afterExchange c (fmtReadLo (evenAddress wa))
  | .readHi wa => s.afterExchange c (fmtReadHi (oddAddress wa))
  | .setMosi b => ((s.setLvl b).onDriver (·.setBit c c.mosi b)).finish
  | .setSck b => ((s.setLvl b).onDriver (·.setBit c c.sck b)).finish
  | .setRst b => ((s.setLvl b).onDriver (·.setBit c c.rst b)).finish
  | .readMiso => (s.onDriver fun d => (d.readMiso c).2).handBack (.bool (sampleAt c s.toDriver 0))
  | .transfer out =>
    { s with toShifter := s.toShifter.afterTransfer c out }.handBack
      (.bytes (received c s.toDriver out.length))
  | .sync => syncLoop c syncAttempts (s.setAttempt 0)
  | .readSignature index =>
    ((s.setSigidx index).afterExchange c (fmtReadSig index)).handBack
      (.byte (receivedByte c s.toDriver 3))
  | .isBusy => (s.afterPoll c).handBack (.bool (busyBitAt c s.toDriver 0))
  | .erase => pollTurn c .erasePolling ((s.afterExchange c fmtChipErase).setPollcnt 0)
  | .programPage data page =>
    pollTurn c .pagePolling
      ((((s.setPage data page).afterFrames c (pageFrames data page)).setLoadidx pageBytes).setPollcnt 0)
  | .readByte address =>
    ((s.setAddr address).afterExchange c (fmtRead address)).handBack
      (.byte (receivedByte c s.toDriver 3))

/-- A frame instruction is exchanged with any configuration, whether or not an operation runs (R110). -/
theorem exec_eq_emit {i : Instr} (h : isOperation i = false) (s : State) :
    exec i s = s.emit (effect · i) := by
  cases i with
  | progEnable => exact exec_progEnable s
  | chipErase => exact exec_chipErase s
  | readSig idx => exact exec_readSig idx s
  | pollBusy => exact exec_pollBusy s
  | loadLo woff data => exact exec_loadLo woff data s
  | loadHi woff data => exact exec_loadHi woff data s
  | writePage pidx => exact exec_writePage pidx s
  | readLo wa => exact exec_readLo wa s
  | readHi wa => exact exec_readHi wa s
  | setMosi _ | setSck _ | setRst _ | readMiso | transfer _ | sync | readSignature _ | isBusy
  | erase | programPage _ _ | readByte _ => cases h

/-- A host operation whose operands are well formed is issued (R130). -/
theorem exec_eq_issue {i : Instr} (h : isOperation i = true) (hw : i.wellFormed = true) (s : State) :
    exec i s = s.issue (effect · i) := by
  cases i with
  | setMosi b => exact exec_setMosi b s
  | setSck b => exact exec_setSck b s
  | setRst b => exact exec_setRst b s
  | readMiso => exact exec_readMiso s
  | transfer out => exact exec_transfer out s
  | sync => exact exec_sync s
  | readSignature index => exact exec_readSignature index s
  | isBusy => exact exec_isBusy s
  | erase => exact exec_erase s
  | programPage data page => exact (exec_programPage data page s).trans (if_pos (beq_iff_eq.1 hw))
  | readByte address => exact exec_readByte address s
  | progEnable | chipErase | readSig _ | pollBusy | loadLo _ _ | loadHi _ _ | writePage _ | readLo _
  | readHi _ => cases h

/-- An operand of no operation: a page that is not 32 bytes (R176(b)). -/
theorem exec_pageLength {data : List Byte} (h : data.length ≠ pageBytes) (page : Byte) (s : State) :
    exec (.programPage data page) s = .refused (.pageLength data.length) :=
  (exec_programPage data page s).trans (if_neg h)

/-- An instruction that is well formed, issued with a configuration, and if it is a host operation to an
idle block, has its effect. -/
theorem exec_eq_effect {c : Config} {i : Instr} {s : State} (hw : i.wellFormed = true)
    (hc : s.cfg = some c) (hs : isOperation i = true → s.seq = .idle) :
    exec i s = .next (effect c i s) := by
  cases h : isOperation i with
  | false => exact (exec_eq_emit h s).trans (emit_some _ hc)
  | true => exact (exec_eq_issue h hw s).trans (issue_ready _ ⟨hc, hs h⟩)

/-- An idle block with a configuration does what it is told. -/
theorem State.ready.exec_eq {c : Config} {s : State} (h : s.ready c) {i : Instr}
    (hw : i.wellFormed = true) : exec i s = .next (effect c i s) :=
  exec_eq_effect hw h.1 fun _ => h.2

/-- Everything an instruction that answers a next state can have done. -/
theorem exec_next {i : Instr} {s t : State} (h : exec i s = .next t) :
    i.wellFormed = true ∧ ∃ c, s.cfg = some c ∧ (isOperation i = true → s.seq = .idle) ∧
      t = effect c i s := by
  have hw : i.wellFormed = true := by
    cases i with
    | programPage data page =>
      by_contra hn
      rw [exec_pageLength (fun e => hn (beq_iff_eq.2 e))] at h
      cases h
    | _ => rfl
  refine ⟨hw, ?_⟩
  cases ho : isOperation i with
  | false =>
    rw [exec_eq_emit ho] at h
    obtain ⟨c, hc, rfl⟩ := emit_next h
    exact ⟨c, hc, by simp⟩
  | true =>
    rw [exec_eq_issue ho hw] at h
    obtain ⟨c, hc, hs, rfl⟩ := issue_next h
    exact ⟨c, hc, fun _ => hs, rfl⟩

/-- The configuration an instruction ran with is the session's. -/
theorem exec_next_cfg {c : Config} {i : Instr} {s t : State} (hc : s.cfg = some c)
    (h : exec i s = .next t) : t = effect c i s := by
  obtain ⟨-, c', hc', -, rfl⟩ := exec_next h
  cases hc.symm.trans hc'
  rfl

/-- A configuration whose output bits coincide or whose bits are out of range is none (R176(c)). -/
theorem check_eq_none {raw : RawConfig}
    (h : 8 ≤ raw.mosiBit ∨ 8 ≤ raw.sckBit ∨ 8 ≤ raw.rstBit ∨ 8 ≤ raw.misoBit ∨
      raw.mosiBit = raw.sckBit ∨ raw.mosiBit = raw.rstBit ∨ raw.sckBit = raw.rstBit) :
    Config.check raw = none :=
  dif_neg (by omega)

/-- Without a configuration every well-formed instruction is refused (R176(c)). -/
theorem exec_badConfiguration {i : Instr} {s : State} (hw : i.wellFormed = true) (hc : s.cfg = none) :
    exec i s = .refused .badConfiguration := by
  cases h : isOperation i with
  | false => rw [exec_eq_emit h, State.emit, hc]
  | true => rw [exec_eq_issue h hw, State.issue, hc]

/-- Settles O8: the four refusals, by what decodes, what is well formed, and what is issued. -/
theorem malformedRequestsRefused : Obligations.MalformedRequestsRefused := by
  refine ⟨fun s k o rest => step_badOpsel, fun data page s h => exec_pageLength h page s,
    fun raw p i hw h => exec_badConfiguration hw (check_eq_none h), fun s c i hc hs ho hw => ?_⟩
  rw [exec_eq_issue ho hw]
  simp only [State.issue, hc, if_neg hs]

/-- Settles O9: a start of a session has an empty queue, so its step waits. -/
theorem resetLeavesBlockWaiting : Obligations.ResetLeavesBlockWaiting :=
  ⟨fun _ _ => ⟨rfl, rfl, rfl, rfl, rfl, rfl, rfl⟩, rfl, rfl⟩

/-- The invariant holds at every start of a session. -/
theorem State.boot_inv (cfg : Option Config) (p : Byte) : (State.boot cfg p).Inv where
  io_wf := List.Pairwise.nil
  io_port _ _ := .inl rfl
  page_len := List.length_replicate
  bitcnt_le := Nat.zero_le _
  attempt_le := Nat.zero_le _
  loadidx_le := Nat.zero_le _

/-- Settles O45: reset is such a start. -/
theorem resetMeetsInvariant : Obligations.ResetMeetsInvariant :=
  ⟨State.boot_inv _ _, State.boot_inv⟩

end Sys2Proof.Machine
end

section
/-! PROOFS. What the moves of the Signal Driver leave in the trace, in PORT and in the I/O space, and from
it the rules of the whole machine about events and stores (10_state.md R20, R21; 20_memory.md R50 to R53;
70_reset_and_hazards.md R188). -/

namespace Sys2Proof.Machine

open Sys2Proof

/-- Two bytes agree on every bit that no position in `P` names. -/
def agreeOutside (P : Fin 8 → Prop) (x y : Byte) : Prop :=
  ∀ i : Fin 8, ¬ P i → x.getLsbD i.val = y.getLsbD i.val

/-- An event that writes at most the bits in `P` of PORT `p`: a write to DATA_ADDR that carries the other
bits, a read of STATUS_ADDR, or a wait. -/
def Event.within (c : Config) (P : Fin 8 → Prop) (p : Byte) : Event → Prop
  | .write a v => a = c.dataAddr ∧ agreeOutside P v p
  | .read a _ => a = c.statusAddr
  | .wait _ => True

theorem agreeOutside_withBit {P : Fin 8 → Prop} {pos : Fin 8} (hp : P pos) (b : Bool) {x y : Byte}
    (h : agreeOutside P x y) : agreeOutside P (withBit pos b x) y := by
  intro i hi
  have hne : i ≠ pos := by rintro rfl; exact hi hp
  rw [withBit_other b x hne, h i hi]

/-- The five unused bits are those outside the three outputs (R21). -/
theorem sameUnused_of_agreeOutside {c : Config} {x y : Byte} (h : agreeOutside (isOutput c) x y) :
    sameUnused c x y := by
  intro i hi
  simp only [unusedBit, Bool.and_eq_true, decide_eq_true_eq, bne_iff_ne, ne_eq] at hi
  obtain ⟨⟨⟨hlt, h₁⟩, h₂⟩, h₃⟩ := hi
  refine h ⟨i, hlt⟩ ?_
  rintro (e | e | e)
  · exact h₁ (congrArg Fin.val e)
  · exact h₂ (congrArg Fin.val e)
  · exact h₃ (congrArg Fin.val e)

/-- What the block may write is what it may write of the three outputs (R52, R53). -/
theorem Event.within.allowed {c : Config} {p : Byte} {e : Event}
    (h : e.within c (isOutput c) p) : e.allowed c p := by
  cases e with
  | write a v => exact ⟨h.1, sameUnused_of_agreeOutside h.2⟩
  | read a v => exact h
  | wait ms => trivial

theorem ioAfter_append (m : Memory) (e₁ e₂ : List Event) :
    ioAfter m (e₁ ++ e₂) = ioAfter (ioAfter m e₁) e₂ := by
  induction e₁ generalizing m with
  | nil => rfl
  | cons e es ih => cases e <;> simp only [List.cons_append, ioAfter, ih]

/-- Moves append events of their own bits, and PORT and the I/O space are what these wrote. -/
theorem Driver.Moves.events {c : Config} {P : Fin 8 → Prop} {d e : Driver}
    (h : Driver.Moves c P d e) :
    ∃ evs, e.trace = d.trace ++ evs ∧ e.port = lastWritten d.port evs ∧ e.io = ioAfter d.io evs ∧
      agreeOutside P e.port d.port ∧ ∀ ev ∈ evs, ev.within c P d.port := by
  induction h with
  | refl => exact ⟨[], (List.append_nil _).symm, rfl, rfl, fun _ _ => rfl, by simp⟩
  | @write e pos b hp _ ih =>
    obtain ⟨evs, ht, hport, hio, hag, hev⟩ := ih
    have hag' := agreeOutside_withBit hp b hag
    refine ⟨evs ++ [.write c.dataAddr (withBit pos b e.port)], ?_, ?_, ?_, hag', ?_⟩
    · rw [← List.append_assoc, ← ht]; rfl
    · rw [lastWritten_append]; rfl
    · rw [ioAfter_append, ← hio]; rfl
    · simpa [or_imp, forall_and] using ⟨hev, ⟨rfl, hag'⟩⟩
  | @read e _ ih =>
    obtain ⟨evs, ht, hport, hio, hag, hev⟩ := ih
    rw [Driver.readMiso_eq]
    refine ⟨evs ++ [.read c.statusAddr (e.answer 0)], ?_, ?_, ?_, hag, ?_⟩
    · rw [← List.append_assoc, ← ht]
    · rw [lastWritten_append]; exact hport
    · rw [ioAfter_append]; exact hio
    · simpa [or_imp, forall_and] using ⟨hev, (rfl : c.statusAddr = c.statusAddr)⟩
  | @wait e ms _ ih =>
    obtain ⟨evs, ht, hport, hio, hag, hev⟩ := ih
    refine ⟨evs ++ [.wait ms], ?_, ?_, ?_, hag, ?_⟩
    · rw [← List.append_assoc, ← ht]; rfl
    · rw [lastWritten_append]; exact hport
    · rw [ioAfter_append]; exact hio
    · simpa [or_imp, forall_and] using ⟨hev, trivial⟩

/-- The events of a step, with the session's configuration: it writes bits of the three outputs only. -/
theorem step_events {c : Config} {s t : State} (hc : s.cfg = some c) (h : step s = .next t) :
    ∃ evs, t.trace = s.trace ++ evs ∧ t.port = lastWritten s.port evs ∧ t.io = ioAfter s.io evs ∧
      agreeOutside (isOutput c) t.port s.port ∧ ∀ ev ∈ evs, ev.within c (isOutput c) s.port := by
  have hm : Driver.Moves c (isOutput c) s.toDriver t.toDriver := by
    rcases step_moves h with e | ⟨c', hc', hm⟩
    · rw [e]; exact .refl
    · cases hc.symm.trans hc'; exact hm
  exact hm.events

/-- Settles O47: a step's events are those of moves of the three outputs. -/
theorem stepMakesOnlyAllowedEvents : Obligations.StepMakesOnlyAllowedEvents := by
  intro c s t hc h
  obtain ⟨evs, ht, -, -, hport, hev⟩ := step_events hc h
  exact ⟨⟨evs, ht, fun e he => (hev e he).allowed⟩, sameUnused_of_agreeOutside hport⟩

/-- The last byte written by events that write bits in `P` only. -/
theorem agreeOutside_lastWritten {c : Config} {P : Fin 8 → Prop} {p q : Byte} {evs : List Event}
    (hev : ∀ ev ∈ evs, ev.within c P p) (hq : agreeOutside P q p) :
    agreeOutside P (lastWritten q evs) p := by
  induction evs generalizing q with
  | nil => exact hq
  | cons e es ih =>
    have hes := fun ev h => hev ev (List.mem_cons_of_mem e h)
    cases e with
    | write a v => exact ih hes (hev _ List.mem_cons_self).2
    | read a v => exact ih hes hq
    | wait ms => exact ih hes hq

/-- Settles O58: the restarted session is a fresh start, whose PORT is the last byte written by some of the
step's events. -/
theorem interruptedKeepsUnusedBits : Obligations.InterruptedKeepsUnusedBits := by
  intro c s t k hc h
  obtain ⟨evs, ht, -, -, -, hev⟩ := step_events hc h
  refine ⟨rfl, rfl, rfl, sameUnused_of_agreeOutside ?_⟩
  refine agreeOutside_lastWritten (fun ev he => hev ev ?_) fun _ _ => rfl
  rw [newEvents_eq ht] at he
  exact List.mem_of_mem_take he

/-- Moves of other bits than RST leave it alone, in PORT and in every write. -/
theorem Driver.Moves.keeps_rst {c : Config} {P : Fin 8 → Prop} {s t : State} (hP : ¬ P c.rst)
    (hm : Driver.Moves c P s.toDriver t.toDriver) :
    t.port.getLsbD c.rst = s.port.getLsbD c.rst ∧
      ∀ a v, Event.write a v ∈ newEvents s t → v.getLsbD c.rst = s.port.getLsbD c.rst := by
  obtain ⟨evs, ht, -, -, hport, hev⟩ := hm.events
  rw [newEvents_eq ht]
  exact ⟨hport c.rst hP, fun a v hv => (hev _ hv).2 c.rst hP⟩

theorem not_isClockOrData_rst (c : Config) : ¬ isClockOrData c c.rst := by
  rintro (e | e)
  · exact c.mosi_ne_rst e.symm
  · exact c.sck_ne_rst e.symm

/-- Settles O51: neither an instruction other than SYNC and SET_RST nor a poll has moves of RST. -/
theorem onlySyncAndSetRstWriteRst : Obligations.OnlySyncAndSetRstWriteRst := by
  refine ⟨fun c i s t hc h hsync hrst => ?_, fun c s t hp h => ?_⟩
  · obtain ⟨c', hc', hm⟩ := exec_moves h
    cases hc.symm.trans hc'
    refine hm.keeps_rst ?_
    cases i with
    | sync => exact absurd rfl hsync
    | setRst b => exact absurd rfl (hrst b)
    | setMosi b => exact fun e => c.mosi_ne_rst e.symm
    | setSck b => exact fun e => c.sck_ne_rst e.symm
    | readMiso => exact id
    | _ => exact not_isClockOrData_rst c
  · obtain ⟨c', hp', rfl⟩ := step_spinning hp.2 h
    cases hp.1.symm.trans hp'.1
    exact (pollTurn_moves c _ s).keeps_rst (not_isClockOrData_rst c)

/-- A write to DATA_ADDR leaves every other address alone. -/
theorem read_ioAfter_other {c : Config} {P : Fin 8 → Prop} {p : Byte} {evs : List Event}
    (hev : ∀ ev ∈ evs, ev.within c P p) (m : Memory) {a : Nat} (ha : a ≠ c.dataAddr) :
    (ioAfter m evs).read a = m.read a := by
  induction evs generalizing m with
  | nil => rfl
  | cons e es ih =>
    have hes := ih fun ev h => hev ev (List.mem_cons_of_mem e h)
    cases e with
    | write b v =>
      obtain ⟨rfl, -⟩ := hev _ List.mem_cons_self
      rw [ioAfter, hes, Memory.read_write_other m v ha]
    | read b v => exact hes m
    | wait ms => exact hes m

/-- The I/O space holds PORT at DATA_ADDR (R20). -/
def Driver.stored (c : Config) (d : Driver) : Prop := d.io.read c.dataAddr = some d.port

theorem Driver.setBit_stored (c : Config) (pos : Fin 8) (b : Bool) (d : Driver) :
    (d.setBit c pos b).stored c := Memory.read_write_same _ _ _

/-- Moves leave PORT at DATA_ADDR where it was there, or where they wrote; else they left both alone. -/
theorem Driver.Moves.stored {c : Config} {P : Fin 8 → Prop} {d e : Driver}
    (h : Driver.Moves c P d e) : e.stored c ∨ (e.io = d.io ∧ e.port = d.port) := by
  induction h with
  | refl => exact .inr ⟨rfl, rfl⟩
  | @write e pos b _ _ _ => exact .inl (Driver.setBit_stored c pos b e)
  | @read e _ ih => rw [Driver.readMiso_eq]; exact ih
  | wait ms _ ih => exact ih

theorem Driver.Moves.keeps_stored {c : Config} {P : Fin 8 → Prop} {d e : Driver}
    (h : Driver.Moves c P d e) (hd : d.stored c) : e.stored c := by
  rcases h.stored with he | ⟨hio, hport⟩
  · exact he
  · rw [Driver.stored, hio, hport]; exact hd

theorem Driver.Moves.io_wf {c : Config} {P : Fin 8 → Prop} {d e : Driver}
    (h : Driver.Moves c P d e) (hd : d.io.wf) : e.io.wf := by
  induction h with
  | refl => exact hd
  | write pos b _ _ ih => exact Memory.wf_write _ _ ih
  | @read e _ ih => rw [Driver.readMiso_eq]; exact ih
  | wait ms _ ih => exact ih

end Sys2Proof.Machine
end

section
/-! PROOFS. The registers of an instruction's effect: what every instruction keeps, and the ranges of the
counters (10_state.md R25, R27, R29; 43_isp_operations.md R142). -/

namespace Sys2Proof.Machine

open Sys2Proof

/-- A register that neither an attempt nor the outcome writes is kept by SYNC. -/
theorem syncLoop_of_attempt {α : Type} (field : State → α) (c : Config) (n : Nat) (s : State)
    (h₁ : ∀ u : State, field (u.afterAttempt c) = field u)
    (h₂ : ∀ p r (u : State), field ((u.setPhase p).handBack r) = field u) :
    field (syncLoop c n s) = field s := by
  induction n generalizing s with
  | zero => exact h₂ _ _ _
  | succ n ih =>
    simp only [syncLoop, syncAttempt_eq]
    split
    · rw [h₂, h₁]
    · rw [ih, h₁]

@[simp] theorem syncLoop_cfg (c : Config) (n : Nat) (s : State) : (syncLoop c n s).cfg = s.cfg :=
  syncLoop_of_attempt State.cfg c n s (by simp [State.afterAttempt]) (by simp)

@[simp] theorem syncLoop_requests (c : Config) (n : Nat) (s : State) :
    (syncLoop c n s).requests = s.requests :=
  syncLoop_of_attempt State.requests c n s (by simp [State.afterAttempt]) (by simp)

@[simp] theorem syncLoop_page (c : Config) (n : Nat) (s : State) : (syncLoop c n s).page = s.page :=
  syncLoop_of_attempt State.page c n s (by simp [State.afterAttempt]) (by simp)

@[simp] theorem syncLoop_loadidx (c : Config) (n : Nat) (s : State) :
    (syncLoop c n s).loadidx = s.loadidx :=
  syncLoop_of_attempt State.loadidx c n s (by simp [State.afterAttempt]) (by simp)

/-- SYNC counts at most the attempts it has left (R131). -/
theorem syncLoop_attempt_le (c : Config) (n : Nat) (s : State) :
    (syncLoop c n s).attempt ≤ s.attempt + n := by
  induction n generalizing s with
  | zero => simp [syncLoop, State.raise]
  | succ n ih =>
    simp only [syncLoop, syncAttempt_eq]
    split
    · simp only [State.handBack_attempt, State.setPhase_attempt, State.afterAttempt_attempt]
      omega
    · have h := ih (s.afterAttempt c)
      rw [State.afterAttempt_attempt] at h
      omega

@[simp] theorem pollTurn_requests (c : Config) (w : Seq) (s : State) :
    (pollTurn c w s).requests = s.requests :=
  (pollTurn_of_afterTurn State.requests c w s (fun u => State.handBack_requests _ u)
    (fun u => State.setSeq_requests _ u) State.finish_requests).trans (State.afterTurn_requests c s)

@[simp] theorem pollTurn_attempt (c : Config) (w : Seq) (s : State) :
    (pollTurn c w s).attempt = s.attempt :=
  (pollTurn_of_afterTurn State.attempt c w s (fun u => State.handBack_attempt _ u)
    (fun u => State.setSeq_attempt _ u) State.finish_attempt).trans
      (by simp [State.afterTurn, State.afterPoll])

@[simp] theorem pollTurn_loadidx (c : Config) (w : Seq) (s : State) :
    (pollTurn c w s).loadidx = s.loadidx :=
  (pollTurn_of_afterTurn State.loadidx c w s (fun u => State.handBack_loadidx _ u)
    (fun u => State.setSeq_loadidx _ u) State.finish_loadidx).trans
      (by simp [State.afterTurn, State.afterPoll])

@[simp] theorem pollTurn_pollcnt (c : Config) (w : Seq) (s : State) :
    (pollTurn c w s).pollcnt = pollsAfter c s :=
  (pollTurn_of_afterTurn State.pollcnt c w s (fun u => State.handBack_pollcnt _ u)
    (fun u => State.setSeq_pollcnt _ u) State.finish_pollcnt).trans (State.afterTurn_pollcnt c s)

/-! What every instruction keeps. -/

@[simp] theorem effect_cfg (c : Config) (i : Instr) (s : State) : (effect c i s).cfg = s.cfg := by
  cases i <;> simp [effect, State.afterPoll, pollTurn_cfg]

@[simp] theorem effect_requests (c : Config) (i : Instr) (s : State) :
    (effect c i s).requests = s.requests := by
  cases i <;> simp [effect, State.afterPoll]

/-- Settles O49: neither an instruction's effect nor a poll writes the configuration or the queue. -/
theorem stepKeepsParameters : Obligations.StepKeepsParameters := by
  intro s t h
  rcases step_cases h with ⟨hs, hr, rfl⟩ | ⟨r, rest, i, hs, hr, -, he⟩ | ⟨c, hs, -, rfl⟩
  · exact ⟨rfl, fun _ => by rw [hr]; rfl, fun hn => absurd hs hn⟩
  · obtain ⟨-, c, -, -, rfl⟩ := exec_next he
    exact ⟨by simp, fun _ => by simp [hr], fun hn => absurd hs hn⟩
  · exact ⟨pollTurn_cfg c _ s, fun he => absurd he hs, fun _ => pollTurn_requests c _ s⟩

/-! The ranges of the counters. -/

theorem afterTransfer_bitcnt_le (c : Config) (out : List Byte) {s : Shifter} (h : s.bitcnt ≤ 8) :
    (s.afterTransfer c out).bitcnt ≤ 8 := by
  unfold Shifter.afterTransfer
  split
  · exact h
  · exact le_rfl

theorem afterExchange_bitcnt (c : Config) (f : Frame) (s : State) :
    (s.afterExchange c f).bitcnt = 8 := by
  rw [State.afterExchange_toShifter, Shifter.afterTransfer, if_neg (by simp [Frame.toList])]

theorem pollTurn_bitcnt (c : Config) (w : Seq) (s : State) : (pollTurn c w s).bitcnt = 8 :=
  (pollTurn_of_afterTurn (·.bitcnt) c w s (by simp) (by simp) (by simp)).trans
    (by simpa [State.afterTurn, State.afterPoll] using afterExchange_bitcnt c pollFrame s)

theorem syncLoop_bitcnt_le (c : Config) (n : Nat) {s : State} (h : s.bitcnt ≤ 8) :
    (syncLoop c n s).bitcnt ≤ 8 := by
  induction n generalizing s with
  | zero => simpa [syncLoop, State.raise] using h
  | succ n ih =>
    have h' : (s.afterAttempt c).bitcnt ≤ 8 := by
      rw [State.afterAttempt, State.setAttempt_toShifter, afterExchange_bitcnt]
    simp only [syncLoop, syncAttempt_eq]
    split
    · simpa using h'
    · exact ih h'

theorem effect_bitcnt_le (c : Config) (i : Instr) {s : State} (h : s.bitcnt ≤ 8) :
    (effect c i s).bitcnt ≤ 8 := by
  cases i with
  | transfer out => simpa [effect] using afterTransfer_bitcnt_le c out h
  | sync => exact syncLoop_bitcnt_le c _ (by simpa using h)
  | erase | programPage _ _ => exact (pollTurn_bitcnt c _ _).le
  | setMosi _ | setSck _ | setRst _ | readMiso => simpa [effect] using h
  | _ => simp [effect, State.afterPoll, afterExchange_bitcnt]

theorem effect_page_length (c : Config) {i : Instr} (hw : i.wellFormed = true) {s : State}
    (h : s.page.length = pageBytes) : (effect c i s).page.length = pageBytes := by
  cases i with
  | programPage data page => simpa [effect, pollTurn_page, Instr.wellFormed] using hw
  | _ => simpa [effect, State.afterPoll, pollTurn_page] using h

theorem effect_attempt_le (c : Config) (i : Instr) {s : State} (h : s.attempt ≤ syncAttempts) :
    (effect c i s).attempt ≤ syncAttempts := by
  cases i with
  | sync => simpa [effect] using syncLoop_attempt_le c syncAttempts (s.setAttempt 0)
  | _ => simpa [effect, State.afterPoll] using h

theorem effect_loadidx_le (c : Config) (i : Instr) {s : State} (h : s.loadidx ≤ pageBytes) :
    (effect c i s).loadidx ≤ pageBytes := by
  cases i with
  | programPage data page => simp [effect]
  | _ => simpa [effect, State.afterPoll] using h

/-- Moves keep the two invariants of the I/O space. -/
theorem State.Inv.io_of_moves {c : Config} {P : Fin 8 → Prop} {s t : State} (h : s.Inv)
    (hc : s.cfg = some c) (ht : t.cfg = s.cfg) (hm : Driver.Moves c P s.toDriver t.toDriver) :
    t.io.wf ∧ ∀ c, t.cfg = some c → t.io.read c.dataAddr = none ∨ t.io.read c.dataAddr = some t.port := by
  refine ⟨hm.io_wf h.io_wf, fun c' hc' => ?_⟩
  cases hc.symm.trans (ht ▸ hc')
  rcases hm.stored with hst | ⟨hio, hport⟩
  · exact .inr hst
  · rw [hio, hport]; exact h.io_port c hc

/-- An instruction keeps the invariant. -/
theorem State.Inv.exec {i : Instr} {s t : State} (h : s.Inv) (he : exec i s = .next t) : t.Inv := by
  obtain ⟨c, hc, hm⟩ := exec_moves he
  obtain ⟨hw, c', hc', -, rfl⟩ := exec_next he
  obtain ⟨hwf, hport⟩ := h.io_of_moves hc (effect_cfg c' i s) hm
  exact ⟨hwf, hport, effect_page_length c' hw h.page_len, effect_bitcnt_le c' i h.bitcnt_le,
    effect_attempt_le c' i h.attempt_le, effect_loadidx_le c' i h.loadidx_le⟩

/-- A poll keeps the invariant. -/
theorem State.Inv.pollTurn {c : Config} {s : State} (h : s.Inv) (hc : s.cfg = some c) (w : Seq) :
    (pollTurn c w s).Inv := by
  obtain ⟨hwf, hport⟩ := h.io_of_moves hc (pollTurn_cfg c w s) (pollTurn_moves c w s)
  exact ⟨hwf, hport, by rw [pollTurn_page]; exact h.page_len, (pollTurn_bitcnt c w s).le,
    by rw [pollTurn_attempt]; exact h.attempt_le, by rw [pollTurn_loadidx]; exact h.loadidx_le⟩

/-- The queue is no part of the invariant. -/
theorem State.Inv.setRequests {s : State} (h : s.Inv) (rest : List Request) :
    (s.setRequests rest).Inv := by
  obtain ⟨h₁, h₂, h₃, h₄, h₅, h₆⟩ := h
  exact ⟨by simpa using h₁, by simpa using h₂, by simpa using h₃, by simpa using h₄,
    by simpa using h₅, by simpa using h₆⟩

/-- Settles O46: a step waits, runs an instruction, or polls, and each keeps the invariant. -/
theorem stepKeepsInvariant : Obligations.StepKeepsInvariant := by
  intro s t h hstep
  rcases step_cases hstep with ⟨-, -, rfl⟩ | ⟨r, rest, i, -, -, -, he⟩ | ⟨c, -, hc, rfl⟩
  · exact h
  · exact (h.setRequests rest).exec he
  · exact h.pollTurn hc s.seq

end Sys2Proof.Machine
end

section
/-! PROOFS. What is stored where, what PHASE and the record of results tell after an instruction, and the
order of MOSI and SCK on the wire (20_memory.md R52; 10_state.md R30, R32; 70_reset_and_hazards.md R182,
R183). -/

namespace Sys2Proof.Machine

open Sys2Proof

/-! ## Stores -/

theorem Driver.afterStream_stored (c : Config) {bits : List Bool} (h : bits ≠ []) (d : Driver) :
    (d.afterStream c bits).stored c := by
  rw [Driver.stored, Driver.afterStream, if_neg h]
  exact Memory.read_write_same _ _ _

theorem afterExchange_stored (c : Config) (f : Frame) (s : State) :
    (s.afterExchange c f).stored c := by
  rw [State.afterExchange_driver]
  exact Driver.afterStream_stored c (bitStream_frame_ne f) _

theorem pollTurn_stored (c : Config) (w : Seq) (s : State) : (pollTurn c w s).stored c := by
  rw [pollTurn_driver]
  exact Driver.afterStream_stored c (bitStream_frame_ne pollFrame) _

theorem syncLoop_stored (c : Config) (n : Nat) (s : State) : (syncLoop c (n + 1) s).stored c := by
  have h : (s.afterAttempt c).stored c := by
    rw [State.afterAttempt, State.setAttempt_toShifter]
    exact afterExchange_stored c _ _
  simp only [syncLoop, syncAttempt_eq]
  split
  · exact h
  · exact (syncLoop_moves c n _).keeps_stored h

/-- Every instruction but READ_MISO and TRANSFER of no bytes writes PORT (R52). -/
theorem effect_stored (c : Config) {i : Instr} (s : State) (h₁ : i ≠ .readMiso)
    (h₂ : i ≠ .transfer []) : (effect c i s).stored c := by
  cases i with
  | readMiso => exact absurd rfl h₁
  | transfer out =>
    have hbits : bitStream out ≠ [] := by
      intro e
      have hlen := bitStream_length out
      rw [e, List.length_nil] at hlen
      exact h₂ (by rw [List.length_eq_zero_iff.1 (by omega : out.length = 0)])
    simpa [effect, Shifter.afterTransfer_driver] using Driver.afterStream_stored c hbits s.toDriver
  | setMosi _ | setSck _ | setRst _ => simpa [effect] using Driver.setBit_stored c _ _ _
  | sync => exact syncLoop_stored c 2 _
  | erase | programPage _ _ => exact pollTurn_stored c _ _
  | _ => simpa [effect, State.afterPoll] using afterExchange_stored c _ _

/-- Settles O48: all writes go to DATA_ADDR, and an instruction that writes leaves PORT there. -/
theorem storesOnlyAtDataAddr : Obligations.StoresOnlyAtDataAddr := by
  refine ⟨fun c s t hc h a ha => ?_, fun c i s t hc h => ⟨fun a ha => ?_, fun hi a => ?_, fun h₁ h₂ => ?_⟩⟩
  · obtain ⟨evs, -, -, hio, -, hev⟩ := step_events hc h
    rw [hio, read_ioAfter_other hev _ ha]
  · obtain ⟨c', hc', hm⟩ := exec_moves h
    cases hc.symm.trans hc'
    obtain ⟨evs, -, -, hio, -, hev⟩ := hm.events
    rw [hio, read_ioAfter_other hev _ ha]
  · cases exec_next_cfg hc h
    rcases hi with rfl | rfl
    · simp [effect, Driver.readMiso_eq]
    · simp [effect, Shifter.afterTransfer]
  · cases exec_next_cfg hc h
    exact effect_stored c s h₁ h₂

/-! ## PHASE and the record of results -/

/-- The two ends of SYNC (R131): in each the block is idle, and PHASE, RESULT and the record agree. -/
theorem syncLoop_outcome (c : Config) (n : Nat) (s : State) :
    (syncLoop c n s).seq = .idle ∧
      (((syncLoop c n s).phase = .synchronized ∧ (syncLoop c n s).result = .success ∧
          (syncLoop c n s).results = s.results ++ [.success]) ∨
        ((syncLoop c n s).phase = .syncFailed ∧ (syncLoop c n s).result = .failure ∧
          (syncLoop c n s).results = s.results ++ [.failure])) := by
  induction n generalizing s with
  | zero => simp [syncLoop, State.raise]
  | succ n ih =>
    simp only [syncLoop, syncAttempt_eq]
    split
    · simp
    · simpa using ih (s.afterAttempt c)

/-- The three ends of a poll (R134): not busy completes the operation, busy at the limit raises
PollTimeout, else the operation goes on and nothing is recorded. -/
theorem pollTurn_outcome (c : Config) (w : Seq) (s : State) :
    ((pollTurn c w s).seq = .idle ∧ (pollTurn c w s).results = s.results ++ [.none]) ∨
    ((pollTurn c w s).seq = .idle ∧ (pollTurn c w s).results = s.results ++ [.pollTimeout] ∧
      ∃ n, c.pollLimit = some n) ∨
    ((pollTurn c w s).seq = w ∧ (pollTurn c w s).results = s.results) := by
  rw [pollTurn_eq]
  split
  · split
    · next hl =>
      have hn : ∃ n, c.pollLimit = some n := by
        cases hp : c.pollLimit with
        | none => simp [limitHit, hp] at hl
        | some n => exact ⟨n, rfl⟩
      exact .inr (.inl (by simpa [State.raise] using hn))
    · exact .inr (.inr (by simp))
  · exact .inl (by simp)

theorem effect_phase (c : Config) {i : Instr} (s : State) (h : i ≠ .sync) :
    (effect c i s).phase = s.phase := by
  cases i with
  | sync => exact absurd rfl h
  | _ => simp [effect, State.afterPoll, pollTurn_phase]

/-- Settles O50: only SYNC's outcome writes PHASE. -/
theorem onlySyncWritesPhase : Obligations.OnlySyncWritesPhase := by
  refine ⟨fun i s t h => ?_, fun s t hs h => ?_⟩
  · obtain ⟨-, c, -, -, rfl⟩ := exec_next h
    refine ⟨effect_phase c s, ?_⟩
    rintro rfl
    obtain ⟨-, h | h⟩ := syncLoop_outcome c syncAttempts (s.setAttempt 0)
    · exact .inl ⟨h.1, h.2.1⟩
    · exact .inr ⟨h.1, h.2.1⟩
  · obtain ⟨c, -, rfl⟩ := step_spinning hs h
    exact pollTurn_phase c _ s

/-- Does an operation end in WAIT_READY (R135, R136)? -/
def waitsReady (i : Instr) : Prop := i = .erase ∨ ∃ d p, i = .programPage d p

/-- What a host operation leaves in SEQ and in the record: one result and an idle block, a failure after
SYNC only, a timeout after a wait with a finite limit only; or nothing, and a wait that goes on. -/
def recordsOutcome (c : Config) (i : Instr) (s t : State) : Prop :=
  (t.seq = .idle ∧ ∃ r, t.results = s.results ++ [r] ∧ (r = .failure → i = .sync) ∧
    (r = .pollTimeout → waitsReady i ∧ ∃ n, c.pollLimit = some n)) ∨
  (t.seq ≠ .idle ∧ t.results = s.results ∧ waitsReady i)

theorem pollTurn_recordsOutcome {c : Config} {i : Instr} {w : Seq} {s u : State} (hw : w ≠ .idle)
    (hi : waitsReady i) (hu : u.results = s.results) : recordsOutcome c i s (pollTurn c w u) := by
  rcases pollTurn_outcome c w u with ⟨hs, hr⟩ | ⟨hs, hr, hn⟩ | ⟨hs, hr⟩
  · exact .inl ⟨hs, .none, by rw [hr, hu], by simp, by simp⟩
  · exact .inl ⟨hs, .pollTimeout, by rw [hr, hu], by simp, fun _ => ⟨hi, hn⟩⟩
  · exact .inr ⟨fun e => hw (hs.symm.trans e), by rw [hr, hu], hi⟩

theorem effect_recordsOutcome (c : Config) {i : Instr} (s : State) (h : isOperation i = true) :
    recordsOutcome c i s (effect c i s) := by
  cases i with
  | sync =>
    obtain ⟨hs, ⟨-, -, hr⟩ | ⟨-, -, hr⟩⟩ := syncLoop_outcome c syncAttempts (s.setAttempt 0)
    · exact .inl ⟨hs, .success, by simpa [effect] using hr, by simp, by simp⟩
    · exact .inl ⟨hs, .failure, by simpa [effect] using hr, by simp, by simp⟩
  | erase => exact pollTurn_recordsOutcome (by simp) (.inl rfl) (by simp)
  | programPage data page =>
    exact pollTurn_recordsOutcome (by simp) (.inr ⟨data, page, rfl⟩) (by simp)
  | setMosi _ | setSck _ | setRst _ | readMiso | transfer _ | readSignature _ | isBusy | readByte _ =>
    exact .inl (by simp [effect, State.afterPoll])
  | _ => cases h

/-- Settles O57: the outcomes of the operations and of a later poll. -/
theorem oneResultPerOperation : Obligations.OneResultPerOperation := by
  refine ⟨fun i s t hi h => ?_, fun s t hs h => ?_⟩
  · obtain ⟨-, c, hc, -, rfl⟩ := exec_next h
    rcases effect_recordsOutcome c s hi with ⟨hs, r, hr, hfail, htime⟩ | ⟨hs, hr, hw⟩
    · refine ⟨fun _ => ⟨r, hr, hfail, fun he => ?_⟩, fun hn => absurd hs hn⟩
      obtain ⟨hw, n, hn⟩ := htime he
      exact ⟨hw, c, n, hc, hn⟩
    · exact ⟨fun he => absurd he hs, fun _ => ⟨hr, hw⟩⟩
  · obtain ⟨c, hp, rfl⟩ := step_spinning hs h
    rcases pollTurn_outcome c s.seq s with ⟨hq, hr⟩ | ⟨hq, hr, n, hn⟩ | ⟨hq, hr⟩
    · exact ⟨fun _ => .inl hr, fun hne => absurd hq hne⟩
    · exact ⟨fun _ => .inr ⟨hr, c, n, hp.1, hn⟩, fun hne => absurd hq hne⟩
    · exact ⟨fun he => absurd (hq.symm.trans he) hs, fun _ => ⟨hq, hr⟩⟩

/-! ## Data before clock -/

/-- From `d` to `e` the trace grew by events that end at `e`'s PORT and change MOSI only while SCK is low,
and SCK is low at the end (R182, R183). -/
def Driver.SafeRun (c : Config) (d e : Driver) : Prop :=
  ∃ evs, e.trace = d.trace ++ evs ∧ e.port = lastWritten d.port evs ∧
    dataBeforeClock c d.port evs = true ∧ e.port.getLsbD c.sck = false

theorem Driver.SafeRun.refl {c : Config} {d : Driver} (h : d.port.getLsbD c.sck = false) :
    Driver.SafeRun c d d := ⟨[], by simp, rfl, rfl, h⟩

theorem Driver.SafeRun.trans {c : Config} {d e f : Driver} (h₁ : Driver.SafeRun c d e)
    (h₂ : Driver.SafeRun c e f) : Driver.SafeRun c d f := by
  obtain ⟨e₁, ht₁, hp₁, hd₁, -⟩ := h₁
  obtain ⟨e₂, ht₂, hp₂, hd₂, hs₂⟩ := h₂
  refine ⟨e₁ ++ e₂, by rw [ht₂, ht₁, List.append_assoc], ?_, ?_, hs₂⟩
  · rw [lastWritten_append, ← hp₁, hp₂]
  · rw [dataBeforeClock_append, hd₁, ← hp₁, hd₂, Bool.and_self]

theorem Driver.SafeRun.sck_low {c : Config} {d e : Driver} (h : Driver.SafeRun c d e) :
    e.port.getLsbD c.sck = false := by
  obtain ⟨_, -, -, -, hs⟩ := h
  exact hs

/-- The new events of a safe run keep data before clock. -/
theorem dataBeforeClock_of_safeRun {c : Config} {s t : State}
    (h : Driver.SafeRun c s.toDriver t.toDriver) :
    dataBeforeClock c s.port (newEvents s t) = true := by
  obtain ⟨evs, ht, -, hd, -⟩ := h
  rw [newEvents_eq ht]
  exact hd

theorem afterStream_safeRun (c : Config) (bits : List Bool) {d : Driver}
    (h : d.port.getLsbD c.sck = false) : Driver.SafeRun c d (d.afterStream c bits) := by
  refine ⟨_, Driver.afterStream_trace c bits d, ?_, dataBeforeClock_stream c _ bits _ h, ?_⟩
  · rw [Driver.afterStream_port, lastWritten_stream]
  · rw [Driver.afterStream_port]
    by_cases hb : bits = []
    · rw [hb]; exact h
    · exact (streamPort_levels c bits _ hb).1

theorem afterExchange_safeRun (c : Config) (f : Frame) {s : State}
    (h : s.port.getLsbD c.sck = false) :
    Driver.SafeRun c s.toDriver (s.afterExchange c f).toDriver := by
  rw [State.afterExchange_driver]
  exact afterStream_safeRun c _ h

theorem pollTurn_safeRun (c : Config) (w : Seq) {s : State} (h : s.port.getLsbD c.sck = false) :
    Driver.SafeRun c s.toDriver (pollTurn c w s).toDriver := by
  rw [pollTurn_driver]
  exact afterStream_safeRun c _ h

/-- A write of one output bit that leaves SCK low is safe. -/
theorem setBit_safeRun (c : Config) (pos : Fin 8) (b : Bool) {d : Driver}
    (h : d.port.getLsbD c.sck = false) (h' : (withBit pos b d.port).getLsbD c.sck = false) :
    Driver.SafeRun c d (d.setBit c pos b) :=
  ⟨[.write c.dataAddr (withBit pos b d.port)], rfl, rfl, by
    simp [dataBeforeClock, h, h', -BitVec.getLsbD_eq_getElem], h'⟩

theorem readMiso_safeRun (c : Config) {d : Driver} (h : d.port.getLsbD c.sck = false) :
    Driver.SafeRun c d (d.readMiso c).2 := by
  rw [Driver.readMiso_eq]
  exact ⟨[.read c.statusAddr (d.answer 0)], rfl, rfl, rfl, h⟩

theorem afterPulse_sck (c : Config) (p : Byte) : (afterPulse c p).getLsbD c.sck = false := by
  rw [afterPulse, withBit_other _ _ c.sck_ne_rst, withBit_own]

/-- The reset pulse lowers SCK first and does not touch MOSI (R131). -/
theorem afterReset_safeRun (c : Config) {d : Driver} (h : d.port.getLsbD c.sck = false) :
    Driver.SafeRun c d (d.afterReset c) := by
  refine ⟨pulseEvents c d.port, rfl, rfl, ?_, afterPulse_sck c d.port⟩
  have h₁ : (withBit c.sck false d.port).getLsbD c.sck = false := withBit_own _ _ _
  have h₂ : ∀ b, (withBit c.rst b (withBit c.sck false d.port)).getLsbD c.sck = false := fun b => by
    rw [withBit_other _ _ c.sck_ne_rst, h₁]
  simp [pulseEvents, dataBeforeClock, h, h₁, h₂, -BitVec.getLsbD_eq_getElem]

theorem afterAttempt_safeRun (c : Config) {s : State} (h : s.port.getLsbD c.sck = false) :
    Driver.SafeRun c s.toDriver (s.afterAttempt c).toDriver := by
  rw [State.afterAttempt, State.setAttempt_toShifter]
  exact (afterReset_safeRun c h).trans
    (afterExchange_safeRun c enableFrame (s := s.onDriver (·.afterReset c)) (afterPulse_sck c s.port))

theorem syncLoop_safeRun (c : Config) (n : Nat) {s : State} (h : s.port.getLsbD c.sck = false) :
    Driver.SafeRun c s.toDriver (syncLoop c n s).toDriver := by
  induction n generalizing s with
  | zero => exact .refl h
  | succ n ih =>
    have h₁ := afterAttempt_safeRun c h
    simp only [syncLoop, syncAttempt_eq]
    split
    · exact h₁
    · exact h₁.trans (ih h₁.sck_low)

/-- Every instruction but SET_SCK(true), entered with SCK low, runs safely (R182, R183). -/
theorem effect_safeRun (c : Config) {i : Instr} {s : State} (h : s.port.getLsbD c.sck = false)
    (hi : i ≠ .setSck true) : Driver.SafeRun c s.toDriver (effect c i s).toDriver := by
  cases i with
  | setMosi b => exact setBit_safeRun c c.mosi b h (by rw [withBit_other _ _ c.mosi_ne_sck.symm, h])
  | setSck b =>
    cases b with
    | true => exact absurd rfl hi
    | false => exact setBit_safeRun c c.sck false h (withBit_own _ _ _)
  | setRst b => exact setBit_safeRun c c.rst b h (by rw [withBit_other _ _ c.sck_ne_rst, h])
  | readMiso => exact readMiso_safeRun c h
  | transfer out =>
    simpa [effect, Shifter.afterTransfer_driver] using afterStream_safeRun c (bitStream out) h
  | sync => simpa [effect] using syncLoop_safeRun c syncAttempts (s := s.setAttempt 0) (by simpa using h)
  | readSignature index =>
    simpa [effect] using afterExchange_safeRun c (fmtReadSig index) (s := s.setSigidx index)
      (by simpa using h)
  | readByte address =>
    simpa [effect] using afterExchange_safeRun c (fmtRead address) (s := s.setAddr address)
      (by simpa using h)
  | erase =>
    rw [effect, pollTurn_driver, State.setPollcnt_toShifter, State.afterExchange_driver,
      ← Driver.afterStream_append]
    exact afterStream_safeRun c _ h
  | programPage data page =>
    rw [effect, pollTurn_driver, State.setPollcnt_toShifter, State.setLoadidx_toShifter,
      State.afterFrames_driver, ← Driver.afterStream_append, State.setPage_toShifter]
    exact afterStream_safeRun c _ h
  | _ => simpa [effect, State.afterPoll] using afterExchange_safeRun c _ h

/-- Settles O52: SET_SCK(true) changes SCK alone, and everything else runs safely. -/
theorem dataBeforeClockKept : Obligations.DataBeforeClockKept := by
  refine ⟨fun c i s t hc hs h => ?_, fun c s t hp hs h => ?_⟩
  · cases exec_next_cfg hc h
    by_cases hi : i = .setSck true
    · subst hi
      have ht : (effect c (.setSck true) s).trace =
          s.trace ++ [.write c.dataAddr (withBit c.sck true s.port)] := by
        simp [effect, Driver.setBit_eq, Driver.afterWrite]
      rw [newEvents_eq ht]
      simp [dataBeforeClock, withBit_other _ _ c.mosi_ne_sck, -BitVec.getLsbD_eq_getElem]
    · exact dataBeforeClock_of_safeRun (effect_safeRun c hs hi)
  · obtain ⟨c', hp', rfl⟩ := step_spinning hp.2 h
    cases hp.1.symm.trans hp'.1
    exact dataBeforeClock_of_safeRun (pollTurn_safeRun c _ hs)

/-- A poll leaves SCK low and MOSI low, and the bits of no clock or data line alone (R104(d), R114). -/
theorem pollTurn_port (c : Config) (w : Seq) (s : State) :
    (pollTurn c w s).port = afterBit c s.port false := by
  rw [pollTurn_driver, Driver.afterStream_port, streamPort_frame]
  rfl

/-- Settles O53: a safe run ends with SCK low, and so does a poll from any level. -/
theorem sckLowKept : Obligations.SckLowKept := by
  refine ⟨fun c i s t hc hs hi h => ?_, fun c s t hp h => ?_⟩
  · cases exec_next_cfg hc h
    exact (effect_safeRun c hs hi).sck_low
  · obtain ⟨c', hp', rfl⟩ := step_spinning hp.2 h
    cases hp.1.symm.trans hp'.1
    rw [pollTurn_port, afterBit_sck]

end Sys2Proof.Machine
end

section
/-! PROOFS. Noninterference: a relation between two states that every primitive update keeps, and under
which MISO spells the same, is kept by every instruction and every poll. PHASE, the trace and the registers
reset leaves unspecified are three such relations (10_state.md R24, R30, R37, R43). -/

namespace Sys2Proof.Machine

open Sys2Proof

/-- The updates an effect is composed of. -/
inductive Primitive (c : Config) : (State → State) → Prop where
  | setLvl (b : Bool) : Primitive c (State.setLvl b)
  | setSigidx (index : Byte) : Primitive c (State.setSigidx index)
  | setAddr (a : FlashAddr) : Primitive c (State.setAddr a)
  | setPage (data : List Byte) (page : Byte) : Primitive c (State.setPage data page)
  | setAttempt (n : Nat) : Primitive c (State.setAttempt n)
  | setLoadidx (n : Nat) : Primitive c (State.setLoadidx n)
  | setPollcnt (n : Nat) : Primitive c (State.setPollcnt n)
  | setBusyf (b : Bool) : Primitive c (State.setBusyf b)
  | setPhase (p : Phase) : Primitive c (State.setPhase p)
  | setSeq (q : Seq) : Primitive c (State.setSeq q)
  | finish : Primitive c State.finish
  | handBack (r : Result) : Primitive c (State.handBack r)
  | setBit (pos : Fin 8) (b : Bool) : Primitive c (State.onDriver (·.setBit c pos b))
  | readMiso : Primitive c (State.onDriver fun d => (d.readMiso c).2)
  | afterReset : Primitive c (State.onDriver (·.afterReset c))
  | transfer (out : List Byte) :
    Primitive c fun s => { s with toShifter := s.toShifter.afterTransfer c out }
  | exchange (f : Frame) : Primitive c (State.afterExchange c f)

/-- No run can tell two related states apart by what MISO spells, and every primitive update keeps them
related. -/
structure Blind (c : Config) (R : State → State → Prop) : Prop where
  answer {s t : State} : R s t → s.answer = t.answer
  primitive {g : State → State} {s t : State} : Primitive c g → R s t → R (g s) (g t)

section
variable {c : Config} {R : State → State → Prop} {s t : State}

theorem Blind.finish (hR : Blind c R) (h : R s t) : R s.finish t.finish := hR.primitive .finish h

theorem Blind.handBack (hR : Blind c R) (r : Result) (h : R s t) :
    R (s.handBack r) (t.handBack r) := hR.primitive (.handBack r) h

theorem Blind.receivedByte (hR : Blind c R) (h : R s t) (j : Nat) :
    receivedByte c s.toDriver j = receivedByte c t.toDriver j := by
  simp only [Machine.receivedByte, sampleAt, hR.answer h]

theorem Blind.busyBitAt (hR : Blind c R) (h : R s t) (n : Nat) :
    busyBitAt c s.toDriver n = busyBitAt c t.toDriver n := by
  simp only [Machine.busyBitAt, hR.receivedByte h]

theorem Blind.afterPoll (hR : Blind c R) (h : R s t) : R (s.afterPoll c) (t.afterPoll c) := by
  rw [State.afterPoll, State.afterPoll, hR.receivedByte h]
  exact hR.primitive (.setBusyf _) (hR.primitive (.exchange _) h)

theorem Blind.afterFrames (hR : Blind c R) (fs : List Frame) (h : R s t) :
    R (s.afterFrames c fs) (t.afterFrames c fs) := by
  induction fs generalizing s t with
  | nil => exact h
  | cons f fs ih =>
    rw [State.afterFrames_cons, State.afterFrames_cons]
    exact ih (hR.primitive (.exchange f) h)

/-- A poll of two blocks that have made the same number of polls. -/
theorem Blind.pollTurn (hR : Blind c R) (w : Seq) (h : R s t) (hcnt : s.pollcnt = t.pollcnt) :
    R (pollTurn c w s) (pollTurn c w t) := by
  have hturn : R (s.afterTurn c) (t.afterTurn c) := by
    rw [State.afterTurn, State.afterTurn, pollsAfter, pollsAfter, hcnt]
    exact hR.primitive (.setPollcnt _) (hR.afterPoll h)
  have hlimit : limitHit c s = limitHit c t := by rw [limitHit, limitHit, hcnt]
  rw [pollTurn_eq, pollTurn_eq, hR.busyBitAt h, hlimit]
  split
  · split
    · exact hR.handBack _ hturn
    · exact hR.primitive (.setSeq w) hturn
  · exact hR.finish hturn

theorem Blind.afterAttempt (hR : Blind c R) (h : R s t) (hcnt : s.attempt = t.attempt) :
    R (s.afterAttempt c) (t.afterAttempt c) := by
  rw [State.afterAttempt, State.afterAttempt, hcnt]
  exact hR.primitive (.setAttempt _) (hR.primitive (.exchange _) (hR.primitive .afterReset h))

/-- The attempts left of two SYNCs that have made the same number of attempts. -/
theorem Blind.syncLoop (hR : Blind c R) (n : Nat) (h : R s t) (hcnt : s.attempt = t.attempt) :
    R (syncLoop c n s) (syncLoop c n t) := by
  induction n generalizing s t with
  | zero => exact hR.handBack _ (hR.primitive (.setPhase _) h)
  | succ n ih =>
    have ha := hR.afterAttempt h hcnt
    simp only [Machine.syncLoop, syncAttempt_eq, echoOk_afterAttempt, echoesAt, hR.receivedByte h]
    split
    · exact hR.handBack _ (hR.primitive (.setPhase _) ha)
    · exact ih ha (by simp [hcnt])

/-- Every instruction keeps two states related. -/
theorem Blind.effect (hR : Blind c R) (i : Instr) (h : R s t) :
    R (effect c i s) (effect c i t) := by
  have exchanged := fun f => hR.primitive (.exchange f) h
  cases i with
  | progEnable | chipErase | readSig _ | loadLo _ _ | loadHi _ _ | writePage _ | readLo _ | readHi _ =>
    exact exchanged _
  | pollBusy => exact hR.afterPoll h
  | setMosi _ | setSck _ | setRst _ =>
    exact hR.finish (hR.primitive (.setBit _ _) (hR.primitive (.setLvl _) h))
  | readMiso =>
    simp only [Machine.effect, sampleAt, hR.answer h]
    exact hR.handBack _ (hR.primitive .readMiso h)
  | transfer out =>
    simp only [Machine.effect, received, funext (hR.receivedByte h)]
    exact hR.handBack _ (hR.primitive (.transfer out) h)
  | sync => exact hR.syncLoop _ (hR.primitive (.setAttempt 0) h) (by simp)
  | readSignature index =>
    simp only [Machine.effect, hR.receivedByte h]
    exact hR.handBack _ (hR.primitive (.exchange _) (hR.primitive (.setSigidx _) h))
  | isBusy =>
    simp only [Machine.effect, hR.busyBitAt h]
    exact hR.handBack _ (hR.afterPoll h)
  | erase => exact hR.pollTurn _ (hR.primitive (.setPollcnt 0) (exchanged _)) (by simp)
  | programPage data page =>
    exact hR.pollTurn _ (hR.primitive (.setPollcnt 0) (hR.primitive (.setLoadidx _)
      (hR.afterFrames _ (hR.primitive (.setPage _ _) h)))) (by simp)
  | readByte address =>
    simp only [Machine.effect, hR.receivedByte h]
    exact hR.handBack _ (hR.primitive (.exchange _) (hR.primitive (.setAddr _) h))

end

/-! ## PHASE -/

/-- Two states that differ at most in PHASE. -/
def sameButPhase (s t : State) : Prop := t = s.setPhase t.phase

theorem sameButPhase_setPhase (s : State) (p : Phase) : sameButPhase s (s.setPhase p) := by
  rw [sameButPhase, State.setPhase_phase]

theorem blind_sameButPhase (c : Config) : Blind c sameButPhase where
  answer h := by rw [h, State.setPhase_toShifter]
  primitive {g s t} hg h := by
    obtain ⟨p, rfl⟩ : ∃ p, t = s.setPhase p := ⟨_, h⟩
    cases s
    cases hg <;> rfl

/-- SYNC ends with the same PHASE from any PHASE: its result tells which. -/
theorem syncLoop_phase_of_result {c : Config} {n : Nat} {s t : State}
    (h : (syncLoop c n s).result = (syncLoop c n t).result) :
    (syncLoop c n s).phase = (syncLoop c n t).phase := by
  obtain ⟨-, ⟨hp, hr, -⟩ | ⟨hp, hr, -⟩⟩ := syncLoop_outcome c n s
  · obtain ⟨-, ⟨hp', -, -⟩ | ⟨-, hr', -⟩⟩ := syncLoop_outcome c n t
    · rw [hp, hp']
    · cases hr.symm.trans (h.trans hr')
  · obtain ⟨-, ⟨-, hr', -⟩ | ⟨hp', -, -⟩⟩ := syncLoop_outcome c n t
    · cases hr.symm.trans (h.trans hr')
    · rw [hp, hp']

/-- An instruction from another PHASE has the same effect but for PHASE. -/
theorem effect_setPhase (c : Config) (i : Instr) (s : State) (p : Phase) :
    effect c i (s.setPhase p) =
      (effect c i s).setPhase (if i = .sync then (effect c i s).phase else p) := by
  have h : sameButPhase _ _ := (blind_sameButPhase c).effect i (sameButPhase_setPhase s p)
  have hphase : (effect c i (s.setPhase p)).phase =
      if i = .sync then (effect c i s).phase else p := by
    split
    · next hi =>
      subst hi
      refine syncLoop_phase_of_result ((congrArg State.result h).trans ?_)
      exact State.setPhase_result _ _
    · next hi => rw [effect_phase c _ hi, State.setPhase_phase]
  rw [← hphase]
  exact h

/-- A poll from another PHASE has the same effect but for PHASE. -/
theorem pollTurn_setPhase (c : Config) (w : Seq) (s : State) (p : Phase) :
    pollTurn c w (s.setPhase p) = (pollTurn c w s).setPhase p := by
  have h : sameButPhase _ _ :=
    (blind_sameButPhase c).pollTurn w (sameButPhase_setPhase s p) (State.setPhase_pollcnt p s).symm
  rwa [sameButPhase, pollTurn_phase, State.setPhase_phase] at h

/-- Settles O54: no primitive update reads PHASE. -/
theorem phaseNeverRead : Obligations.PhaseNeverRead := by
  refine ⟨fun i s t p h => ?_, fun s t p hs h => ?_⟩
  · obtain ⟨hw, c, hc, hseq, rfl⟩ := exec_next h
    have h' : exec i (s.setPhase p) = .next (effect c i (s.setPhase p)) :=
      exec_eq_effect hw (by simpa using hc) (by simpa using hseq)
    rw [effect_setPhase] at h'
    exact h'
  · obtain ⟨c, hp, rfl⟩ := step_spinning hs h
    have h' : step (s.setPhase p) = .next (pollTurn c (s.setPhase p).seq (s.setPhase p)) :=
      step_polling (by simpa [State.polling] using hp)
    rw [State.setPhase_seq, pollTurn_setPhase] at h'
    exact h'

/-! ## The trace -/

theorem Driver.afterStream_withTrace (c : Config) (bits : List Bool) (d : Driver) (tr : List Event) :
    Driver.afterStream c bits { d with trace := tr } =
      { d.afterStream c bits with trace := tr ++ streamEvents c d.answer bits d.port } := by
  unfold Driver.afterStream
  split
  · next h => subst h; simp [streamEvents]
  · rfl

/-- The shifter with another trace. -/
def Shifter.withTrace (s : Shifter) (tr : List Event) : Shifter :=
  s.onDriver fun d => { d with trace := tr }

theorem Shifter.afterTransfer_withTrace (c : Config) (out : List Byte) (s : Shifter)
    (tr : List Event) :
    (s.withTrace tr).afterTransfer c out =
      (s.afterTransfer c out).withTrace (tr ++ streamEvents c s.answer (bitStream out) s.port) := by
  unfold Shifter.afterTransfer
  split
  · next h => subst h; simp [streamEvents, bitStream]
  · simp only [Shifter.withTrace, Shifter.onDriver, Driver.afterStream_withTrace]
    rfl

/-- Every primitive update appends some events to the trace, the same to any other trace, and does the
rest alike. -/
theorem Primitive.appends {c : Config} {g : State → State} (hg : Primitive c g) (s : State) :
    ∃ evs, (g s).trace = s.trace ++ evs ∧
      ∀ tr, g (s.withTrace tr) = (g s).withTrace (tr ++ evs) := by
  cases hg with
  | setBit pos b =>
    refine ⟨[.write c.dataAddr (withBit pos b s.port)], ?_, fun tr => ?_⟩ <;> cases s <;> rfl
  | readMiso =>
    refine ⟨[.read c.statusAddr (s.answer 0)], ?_, fun tr => ?_⟩
    · simp [Driver.readMiso_eq]
    · simp only [Driver.readMiso_eq]
      cases s; rfl
  | afterReset =>
    refine ⟨pulseEvents c s.port, ?_, fun tr => ?_⟩ <;> cases s <;> rfl
  | transfer out =>
    refine ⟨streamEvents c s.answer (bitStream out) s.port, ?_, fun tr => ?_⟩
    · rw [Shifter.afterTransfer_driver, Driver.afterStream_trace]
    · have h := Shifter.afterTransfer_withTrace c out s.toShifter tr
      exact congrArg (fun u => { s with toShifter := u }) h
  | exchange f =>
    refine ⟨streamEvents c s.answer (bitStream (Frame.toList f)) s.port,
      State.afterExchange_trace c f s, fun tr => ?_⟩
    have h := Shifter.afterTransfer_withTrace c (Frame.toList f) s.toShifter tr
    exact congrArg
      (fun u => { s with toShifter := u, cmd := f, rsp := responseFrame c s.toDriver }) h
  | _ =>
    refine ⟨[], ?_, fun tr => ?_⟩
    · simp
    · cases s
      simp only [List.append_nil]
      rfl

/-- Two states that differ at most in the trace, each of which has grown by the same events since the
traces were `b₁` and `b₂`. -/
def sameButTrace (b₁ b₂ : List Event) (s t : State) : Prop :=
  ∃ evs, s.trace = b₁ ++ evs ∧ t = s.withTrace (b₂ ++ evs)

theorem blind_sameButTrace (c : Config) (b₁ b₂ : List Event) : Blind c (sameButTrace b₁ b₂) where
  answer := by
    rintro s t ⟨evs, -, rfl⟩
    rfl
  primitive := by
    rintro g s t hg ⟨evs, hs, rfl⟩
    obtain ⟨new, hnew, hg'⟩ := hg.appends s
    exact ⟨evs ++ new, by rw [hnew, hs, List.append_assoc], by rw [hg', List.append_assoc]⟩

theorem sameButTrace_withTrace (s : State) (tr : List Event) :
    sameButTrace s.trace tr s (s.withTrace tr) := ⟨[], by simp, by simp⟩

/-- What has grown are the new events. -/
theorem eq_withTrace_of_sameButTrace {s t u : State} {tr : List Event}
    (h : sameButTrace s.trace tr t u) : u = t.withTrace (tr ++ newEvents s t) := by
  obtain ⟨evs, ht, rfl⟩ := h
  rw [newEvents_eq ht]

/-- Settles O55: every primitive update only appends to the trace. -/
theorem traceNeverRead : Obligations.TraceNeverRead := by
  refine ⟨fun i s t tr h => ?_, fun s t tr hs h => ?_⟩
  · obtain ⟨hw, c, hc, hseq, rfl⟩ := exec_next h
    rw [exec_eq_effect hw (c := c) (by simpa [State.withTrace] using hc)
      (by simpa [State.withTrace] using hseq)]
    exact congrArg _ (eq_withTrace_of_sameButTrace
      ((blind_sameButTrace c s.trace tr).effect i (sameButTrace_withTrace s tr)))
  · obtain ⟨c, hp, rfl⟩ := step_spinning hs h
    rw [step_polling (c := c) (by simpa [State.polling, State.withTrace] using hp)]
    exact congrArg _ (eq_withTrace_of_sameButTrace
      ((blind_sameButTrace c s.trace tr).pollTurn _ (sameButTrace_withTrace s tr) rfl))

/-! ## The registers reset leaves unspecified -/

/-- Two drivers that agree on PORT, the trace and the environment's answers. -/
def Driver.sameVisible (d e : Driver) : Prop :=
  d.port = e.port ∧ d.trace = e.trace ∧ d.answers = e.answers ∧ d.freeReads = e.freeReads

theorem State.sameVisible_iff {s t : State} :
    s.sameVisible t ↔ s.toDriver.sameVisible t.toDriver ∧
      s.phase = t.phase ∧ s.seq = t.seq ∧ s.cfg = t.cfg ∧ s.requests = t.requests := by
  simp only [State.sameVisible, Driver.sameVisible, and_assoc]

theorem Driver.sameVisible.answer {d e : Driver} (h : d.sameVisible e) : d.answer = e.answer := by
  obtain ⟨-, -, ha, hf⟩ := h
  exact funext (Driver.answer_congr ha hf)

theorem Driver.sameVisible.setBit {d e : Driver} (h : d.sameVisible e) (c : Config) (pos : Fin 8)
    (b : Bool) : (d.setBit c pos b).sameVisible (e.setBit c pos b) := by
  obtain ⟨hp, ht, ha, hf⟩ := h
  simp [Driver.sameVisible, Driver.setBit_eq, Driver.afterWrite, hp, ht, ha, hf]

theorem Driver.sameVisible.readMiso {d e : Driver} (h : d.sameVisible e) (c : Config) :
    (d.readMiso c).2.sameVisible (e.readMiso c).2 := by
  have hans := h.answer
  obtain ⟨hp, ht, ha, hf⟩ := h
  simp [Driver.sameVisible, Driver.readMiso_eq, hp, ht, ha, hf, hans]

theorem Driver.sameVisible.afterReset {d e : Driver} (h : d.sameVisible e) (c : Config) :
    (d.afterReset c).sameVisible (e.afterReset c) := by
  obtain ⟨hp, ht, ha, hf⟩ := h
  simp [Driver.sameVisible, Driver.afterReset, hp, ht, ha, hf]

theorem Driver.sameVisible.afterStream {d e : Driver} (h : d.sameVisible e) (c : Config)
    (bits : List Bool) : (d.afterStream c bits).sameVisible (e.afterStream c bits) := by
  have hans := h.answer
  unfold Driver.afterStream
  split
  · exact h
  · obtain ⟨hp, ht, ha, hf⟩ := h
    simp [Driver.sameVisible, hp, ht, ha, hf, hans]

/-- Two states that agree on what is visible and have recorded the same results since the records were
`b₁` and `b₂`. -/
def visiblyAlike (b₁ b₂ : List Result) (s t : State) : Prop :=
  s.sameVisible t ∧ ∃ rs, s.results = b₁ ++ rs ∧ t.results = b₂ ++ rs

theorem blind_visiblyAlike (c : Config) (b₁ b₂ : List Result) : Blind c (visiblyAlike b₁ b₂) where
  answer h := (State.sameVisible_iff.1 h.1).1.answer
  primitive := by
    rintro g s t hg ⟨hv, rs, hs, ht⟩
    obtain ⟨hd, hphase, hseq, hcfg, hreq⟩ := State.sameVisible_iff.1 hv
    simp only [visiblyAlike, State.sameVisible_iff]
    cases hg with
    | setBit pos b => simpa [*] using hd.setBit c pos b
    | readMiso => simpa [*] using hd.readMiso c
    | afterReset => simpa [*] using hd.afterReset c
    | transfer out =>
      simpa [Shifter.afterTransfer_driver, *] using hd.afterStream c (bitStream out)
    | exchange f =>
      simpa [State.afterExchange_driver, *] using hd.afterStream c (bitStream (Frame.toList f))
    | _ => simp [*]

theorem visiblyAlike_refl {s t : State} (h : s.sameVisible t) :
    visiblyAlike s.results t.results s t := ⟨h, [], by simp, by simp⟩

/-- Of two alike runs that have recorded one result each, it is the same. -/
theorem lastResult_of_visiblyAlike {b₁ b₂ : List Result} {s t : State} {r : Result}
    (h : visiblyAlike b₁ b₂ s t) (hr : s.results = b₁ ++ [r]) : s.lastResult = t.lastResult := by
  obtain ⟨-, rs, hs, ht⟩ := h
  cases List.append_cancel_left (hs.symm.trans hr)
  rw [State.lastResult, State.lastResult, hr, ht, List.getLast?_concat, List.getLast?_concat]

/-- An operation that waits counts its polls from 0, whatever POLLCNT was (R134). -/
theorem effect_pollcnt_of_waitsReady (c : Config) {i : Instr} (h : waitsReady i) (s t : State) :
    (effect c i s).pollcnt = (effect c i t).pollcnt := by
  rcases h with rfl | ⟨d, p, rfl⟩ <;> simp [effect, pollsAfter]

/-- Settles O56: no primitive update reads a register reset leaves unspecified. -/
theorem leftoversNeverObserved : Obligations.LeftoversNeverObserved := by
  refine ⟨fun i s₁ s₂ t₁ hv h => ?_, fun s₁ s₂ t₁ hv hcnt hs h => ?_⟩
  · obtain ⟨hw, c, hc, hseq, rfl⟩ := exec_next h
    obtain ⟨-, -, hseq', hcfg, -⟩ := State.sameVisible_iff.1 hv
    have hR := (blind_visiblyAlike c _ _).effect i (visiblyAlike_refl hv)
    refine ⟨_, exec_eq_effect hw (hcfg ▸ hc) (hseq' ▸ hseq), hR.1, ?_, ?_⟩
    · rintro ⟨ho, hidle⟩
      rcases effect_recordsOutcome c s₁ ho with ⟨-, r, hr, -⟩ | ⟨hbusy, -⟩
      · exact lastResult_of_visiblyAlike hR hr
      · exact absurd hidle hbusy
    · rintro ⟨ho, hbusy⟩
      rcases effect_recordsOutcome c s₁ ho with ⟨hidle, -⟩ | ⟨-, -, hwait⟩
      · exact absurd hidle hbusy
      · exact effect_pollcnt_of_waitsReady c hwait s₁ s₂
  · obtain ⟨c, hp, rfl⟩ := step_spinning hs h
    obtain ⟨-, -, hseq, hcfg, -⟩ := State.sameVisible_iff.1 hv
    have hR := (blind_visiblyAlike c _ _).pollTurn s₁.seq (visiblyAlike_refl hv) hcnt
    have hstep : step s₂ = .next (pollTurn c s₁.seq s₂) := by
      rw [hseq]
      exact step_polling ⟨hcfg ▸ hp.1, hseq ▸ hp.2⟩
    refine ⟨_, hstep, hR.1, by simp [pollsAfter, hcnt], fun hidle => ?_⟩
    rcases pollTurn_outcome c s₁.seq s₁ with ⟨-, hr⟩ | ⟨-, hr, -⟩ | ⟨hbusy, -⟩
    · exact lastResult_of_visiblyAlike hR hr
    · exact lastResult_of_visiblyAlike hR hr
    · exact absurd (hbusy.symm.trans hidle) hs

end Sys2Proof.Machine
end

section
/-! PROOFS. The host operations of the Signal Driver and of the SPI Transfer Engine (40_signal_driver.md R90
to R96, 41_spi_transfer.md R102 to R106). -/

namespace Sys2Proof.Machine

open Sys2Proof

/-! ## Completion of an operation that found the block idle -/

theorem State.handBack_of_idle {s : State} (h : s.seq = .idle) (r : Result) :
    s.handBack r = { s with result := r, results := s.results ++ [r] } := by
  rw [State.handBack, ← h]

theorem State.finish_of_idle {s : State} (h : s.seq = .idle) :
    s.finish = { s with results := s.results ++ [.none] } := by
  rw [State.finish, ← h]

/-! ## Setters and READ_MISO -/

/-- A setter's completed effect writes its own bit and keeps the others (R90). -/
theorem setterEffect_setBit (c : Config) (pos : Fin 8) (b : Bool) (s : State) :
    setterEffect c pos b s ((s.setLvl b).onDriver (·.setBit c pos b)).finish := by
  have hport : ((s.setLvl b).onDriver (·.setBit c pos b)).finish.port = withBit pos b s.port := by
    simp [Driver.setBit_eq, Driver.afterWrite]
  refine ⟨?_, fun i hi hne => ?_, ?_⟩
  · rw [hport, withBit_own]
  · rw [hport, withBit_getLsbD _ _ _ _ hi, if_neg hne]
  · rw [hport]; rfl

/-- Settles O10: each setter is a SetBit of its own position. -/
theorem settersWriteOwnBit : Obligations.SettersWriteOwnBit := fun c s b h =>
  ⟨⟨_, h.exec_eq rfl, setterEffect_setBit c c.mosi b s⟩,
    ⟨_, h.exec_eq rfl, setterEffect_setBit c c.sck b s⟩,
    ⟨_, h.exec_eq rfl, setterEffect_setBit c c.rst b s⟩⟩

/-- Settles O11: the closed form of READ_MISO. -/
theorem readMisoReturnsInvertedBit : Obligations.ReadMisoReturnsInvertedBit := by
  refine ⟨rfl, fun c s h => ⟨_, h.exec_eq rfl, rfl, ?_, ?_⟩⟩
  · simp only [effect, State.handBack_toShifter, State.onDriver_toDriver, Driver.readMiso_eq]
    exact Driver.answer_drop 1 rfl rfl 0
  · simp only [effect]
    rw [State.handBack_of_idle (by simpa using h.2), State.onDriver]
    simp only [Driver.readMiso_eq]
    rfl

/-- The three outputs have three positions (R97). -/
theorem Pin.bit_injective (c : Config) {p q : Pin} (h : p.bit c = q.bit c) : p = q := by
  cases p with
  | mosi =>
    cases q with
    | mosi => rfl
    | sck => exact absurd h c.mosi_ne_sck
    | rst => exact absurd h c.mosi_ne_rst
  | sck =>
    cases q with
    | mosi => exact absurd h.symm c.mosi_ne_sck
    | sck => rfl
    | rst => exact absurd h c.sck_ne_rst
  | rst =>
    cases q with
    | mosi => exact absurd h.symm c.mosi_ne_rst
    | sck => exact absurd h.symm c.sck_ne_rst
    | rst => rfl

theorem Pin.bit_isOutput (c : Config) (p : Pin) : isOutput c (p.bit c) := by
  cases p
  · exact .inl rfl
  · exact .inr (.inl rfl)
  · exact .inr (.inr rfl)

/-- The setter of an output is a SetBit of the output's position (R91 to R93). -/
theorem effect_setter (c : Config) (p : Pin) (b : Bool) (s : State) :
    effect c (p.setter b) s = ((s.setLvl b).onDriver (·.setBit c (p.bit c) b)).finish := by
  cases p <;> rfl

theorem effect_setter_port (c : Config) (p : Pin) (b : Bool) (s : State) :
    (effect c (p.setter b) s).port = withBit (p.bit c) b s.port := by
  simp [effect_setter, Driver.setBit_eq, Driver.afterWrite]

/-- An output after one setter call: the argument of its own setter, else the level before (R96). -/
theorem effect_setter_level (c : Config) (p q : Pin) (b : Bool) (s : State) :
    (effect c (q.setter b) s).port.getLsbD (p.bit c).val =
      if q = p then b else s.port.getLsbD (p.bit c).val := by
  rw [effect_setter_port]
  split
  · next h => rw [h, withBit_own]
  · next h => exact withBit_other _ _ fun e => h (Pin.bit_injective c e.symm)

theorem sameUnused_trans {c : Config} {x y z : Byte} (h₁ : sameUnused c x y)
    (h₂ : sameUnused c y z) : sameUnused c x z := fun i hi => (h₁ i hi).trans (h₂ i hi)

theorem effect_setter_unused (c : Config) (p : Pin) (b : Bool) (s : State) :
    sameUnused c (effect c (p.setter b) s).port s.port := by
  rw [effect_setter_port]
  exact sameUnused_of_agreeOutside (agreeOutside_withBit (p.bit_isOutput c) b fun _ _ => rfl)

/-- Settles O12: by induction on the calls, each of which completes and leaves the block ready. -/
theorem outputsIndependent : Obligations.OutputsIndependent := by
  intro c calls s h
  induction calls generalizing s with
  | nil => exact ⟨s, rfl, fun _ => rfl, fun _ _ => rfl⟩
  | cons call calls ih =>
    obtain ⟨q, b⟩ := call
    have hw : (q.setter b).wellFormed = true := by cases q <;> rfl
    have hready : (effect c (q.setter b) s).ready c :=
      ⟨by rw [effect_cfg, h.1], by rw [effect_setter, State.finish_seq]⟩
    obtain ⟨t, ht, hlevel, hunused⟩ := ih _ hready
    refine ⟨t, ?_, fun p => ?_, sameUnused_trans hunused (effect_setter_unused c q b s)⟩
    · simp only [List.map_cons, execAll, h.exec_eq hw]
      exact ht
    · rw [hlevel p, effect_setter_level]
      rfl

/-! ## TRANSFER -/

/-- TRANSFER's completed effect as a record over the state (R102). -/
theorem effect_transfer {s : State} (hs : s.seq = .idle) (c : Config) (out : List Byte) :
    effect c (.transfer out) s = { s with
      toShifter := s.toShifter.afterTransfer c out
      result := .bytes (received c s.toDriver out.length)
      results := s.results ++ [.bytes (received c s.toDriver out.length)] } :=
  State.handBack_of_idle (s := { s with toShifter := s.toShifter.afterTransfer c out }) hs _

theorem effect_transfer_trace (c : Config) (out : List Byte) (s : State) :
    (effect c (.transfer out) s).trace =
      s.trace ++ streamEvents c s.answer (bitStream out) s.port := by
  simp [effect, Shifter.afterTransfer_driver, Driver.afterStream_trace]

theorem effect_transfer_port (c : Config) (out : List Byte) (s : State) :
    (effect c (.transfer out) s).port = streamPort c (bitStream out) s.port := by
  simp [effect, Shifter.afterTransfer_driver, Driver.afterStream_port]

theorem effect_transfer_result (c : Config) (out : List Byte) (s : State) :
    (effect c (.transfer out) s).result = .bytes (received c s.toDriver out.length) :=
  State.handBack_result _ _

theorem bitStream_ne_nil {out : List Byte} (h : out ≠ []) : bitStream out ≠ [] := by
  obtain ⟨b, bs, rfl⟩ := List.exists_cons_of_ne_nil h
  simp [bitStream_cons, bitsOf]

/-- Settles O15: the closed form of TRANSFER, and the laws of its stream. -/
theorem transferReturnsAsManyBytes : Obligations.TransferReturnsAsManyBytes := by
  intro c out s h
  refine ⟨rfl, _, h.exec_eq rfl, effect_transfer_result c out s, received_length _ _ _,
    effect_transfer_trace c out s, ?_, fun hsck => ?_, ?_, effect_transfer h.2 c out⟩
  · rw [streamEvents_length, bitStream_length]; omega
  · rw [mosiAtRises_stream c _ _ _ hsck, bitStream_length]
  · rintro rfl
    simp [effect, Shifter.afterTransfer]

/-- A bit stream leaves the five unused bits alone. -/
theorem streamPort_unused (c : Config) (bits : List Bool) (p : Byte) :
    sameUnused c (streamPort c bits p) p := by
  refine sameUnused_of_agreeOutside fun i hi => streamPort_other c bits p i.isLt ?_ ?_
  · exact fun e => hi (.inl (Fin.ext e))
  · exact fun e => hi (.inr (.inl (Fin.ext e)))

theorem streamPort_rst (c : Config) (bits : List Bool) (p : Byte) :
    (streamPort c bits p).getLsbD c.rst = p.getLsbD c.rst :=
  streamPort_other c _ _ c.rst.isLt (Fin.val_ne_of_ne c.mosi_ne_rst.symm)
    (Fin.val_ne_of_ne c.sck_ne_rst.symm)

/-- Settles O16: the laws of a bit stream entered with SCK low, read off the new events. -/
theorem transferPinLaws : Obligations.TransferPinLaws := by
  intro c out s h hne hsck
  have hexec : exec (.transfer out) s = .next (effect c (.transfer out) s) := h.exec_eq rfl
  have hev := newEvents_eq (effect_transfer_trace c out s)
  obtain ⟨hlow, hlast⟩ := streamPort_levels c (bitStream out) s.port (bitStream_ne_nil hne)
  refine ⟨_, hexec, hev, ?_, ?_, ?_, ?_, bitStream_length out, ?_, ?_, ?_, ?_,
    (onlySyncAndSetRstWriteRst.1 c _ s _ h.1 hexec (by simp) (by simp)).2⟩
  · rw [hev, mosiAtRises_stream c _ _ _ hsck]
  · rw [hev, sckEdges_stream c _ _ _ hsck, bitStream_length]
  · rw [hev, fallingEdges_stream c _ _ _ hsck, bitStream_length]
  · rw [hev, dataBeforeClock_stream c _ _ _ hsck]
  · rw [effect_transfer_port]; exact hlow
  · rw [effect_transfer_port]; exact hlast
  · rw [effect_transfer_port, streamPort_rst]
  · rw [effect_transfer_port]; exact streamPort_unused c _ _

/-- Settles O18: the law of a bit stream entered with SCK high; what comes back does not depend on SCK. -/
theorem sckHighLosesFirstEdge : Obligations.SckHighLosesFirstEdge := by
  intro c out s h _ hsck
  have hev := newEvents_eq (effect_transfer_trace c out s)
  refine ⟨_, h.exec_eq rfl, ?_, ?_, effect_transfer_result c out s⟩
  · rw [hev, mosiAtRises_stream_high c _ _ _ hsck]
  · rw [hev, mosiAtRises_stream_high c _ _ _ hsck, List.length_tail, bitStream_length]

/-! ## The loopback -/

theorem loopedBack_append (c : Config) (p : Byte) (e₁ e₂ : List Event) :
    loopedBack c p (e₁ ++ e₂) = (loopedBack c p e₁ && loopedBack c (lastWritten p e₁) e₂) := by
  induction e₁ generalizing p with
  | nil => rfl
  | cons e es ih =>
    cases e <;> simp only [List.cons_append, loopedBack, lastWritten, ih, Bool.and_assoc]

/-- Through a wire the first sample of a stream is MOSI on entry, and the others those of the stream that
starts with its first bit on MOSI (R105). -/
theorem loopedBack_stream_cons (c : Config) (ans : Nat → Byte) (b : Bool) (bits : List Bool)
    (p : Byte) :
    loopedBack c p (streamEvents c ans (b :: bits) p) = true ↔
      misoLevel c (ans 0) = p.getLsbD c.mosi ∧
        loopedBack c (afterBit c p b)
          (streamEvents c (fun n => ans (n + 1)) bits (afterBit c p b)) = true := by
  simp only [streamEvents, bitEvents, List.cons_append, List.nil_append, loopedBack,
    Bool.and_eq_true, beq_iff_eq]

/-- Through a wire the byte received is the one sent shifted right, MOSI on entry shifted in (R105). -/
theorem receivedByte_of_loopedBack {c : Config} {d : Driver} {b : Byte}
    (h : loopedBack c d.port (streamEvents c d.answer (bitsOf b) d.port) = true) :
    receivedByte c d 0 =
      (b >>> 1) ||| ((BitVec.ofBool (d.port.getLsbD c.mosi)).setWidth 8 <<< 7) := by
  simp only [bitsOf, loopedBack_stream_cons, afterBit_mosi] at h
  obtain ⟨h₀, h₁, h₂, h₃, h₄, h₅, h₆, h₇, -⟩ := h
  simp only [receivedByte, sampleAt, byteOfBits, Nat.mul_zero, Nat.zero_add] at *
  rw [h₀, h₁, h₂, h₃, h₄, h₅, h₆, h₇]
  apply BitVec.eq_of_getLsbD_eq
  intro i (hi : i < 8)
  interval_cases i <;> simp [BitVec.ofBoolListBE, BitVec.getElem_cons]

theorem received_of_loopedBack {c : Config} {out : List Byte} {d : Driver}
    (h : loopedBack c d.port (streamEvents c d.answer (bitStream out) d.port) = true) :
    received c d out.length = delayed (d.port.getLsbD c.mosi) out := by
  induction out generalizing d with
  | nil => rfl
  | cons b out ih =>
    rw [bitStream_cons, streamEvents_append, loopedBack_append, lastWritten_stream,
      Bool.and_eq_true] at h
    obtain ⟨hb, hout⟩ := h
    have hlast : (streamPort c (bitsOf b) d.port).getLsbD c.mosi = b.getLsbD 0 :=
      afterBit_mosi c _ _
    rw [List.length_cons, received_cons c b, receivedByte_of_loopedBack hb, ih,
      Driver.afterStream_port, hlast]
    · rfl
    · rw [Driver.afterStream_port, funext (Driver.afterStream_answer c (bitsOf b) d)]
      exact hout

/-- Settles O17: byte by byte, each starting with the last bit of the one before on MOSI. -/
theorem loopbackDelaysByOneBit : Obligations.LoopbackDelaysByOneBit := by
  intro c out s h hloop
  refine ⟨_, h.exec_eq rfl, newEvents_eq (effect_transfer_trace c out s), ?_⟩
  rw [effect_transfer_result, received_of_loopedBack hloop]

/-! ## EXCHANGE -/

/-- Settles O19: the laws of the stream of a frame's 32 bits. -/
theorem exchangeSendsFrame : Obligations.ExchangeSendsFrame := by
  intro c f s
  have hev := newEvents_eq (State.afterExchange_trace c f s)
  obtain ⟨hreads, hwrites⟩ := counts_stream c s.answer (bitStream (Frame.toList f)) s.port
  simp only [exchange_eq]
  refine ⟨State.afterExchange_cmd c f s, State.afterExchange_rsp c f s, ?_, ?_, ?_, fun hsck => ?_, ?_, ?_,
    State.afterExchange_rst c f s, ?_, State.afterExchange_phase c f s⟩
  · rw [hev]; exact hreads
  · rw [hev]; exact hwrites
  · rw [hev]; exact streamEvents_length c _ _ _
  · rw [hev]; exact mosiAtRises_stream c _ _ _ hsck
  · rw [State.afterExchange_port, streamPort_frame, afterBit_sck]
  · rw [State.afterExchange_port, streamPort_frame, afterBit_mosi]
  · rw [State.afterExchange_port]; exact streamPort_unused c _ _

end Sys2Proof.Machine
end

section
/-! PROOFS. The frames: which frame each instruction sends and that it is its encoding, the operand fields
of the formatter as numbers, and the simulated device (30_encoding.md R71 to R77, 42_isp_frames.md R111 to
R121, 20_memory.md R54 to R56, R64). -/

namespace Sys2Proof.Machine

open Sys2Proof

/-! ## Operand fields -/

theorem getLsbD_zero_eq {w : Nat} (x : BitVec w) : x.getLsbD 0 = decide (x.toNat % 2 = 1) := by
  simp [BitVec.getLsbD, Nat.testBit_zero]

theorem toNat_append_zero {w : Nat} (x : BitVec w) : (x ++ 0#1).toNat = 2 * x.toNat := by
  simp [BitVec.toNat_append, Nat.shiftLeft_eq, Nat.mul_comm]

theorem toNat_append_one {w : Nat} (x : BitVec w) : (x ++ 1#1).toNat = 2 * x.toNat + 1 := by
  rw [BitVec.toNat_append, ← Nat.shiftLeft_add_eq_or_of_lt (by decide), Nat.shiftLeft_eq]
  simp [Nat.mul_comm]

theorem evenIndex_toNat (woff : BitVec 4) : (evenIndex woff).toNat = 2 * woff.toNat := by
  rw [evenIndex, toNat_append_zero, BitVec.toNat_append]
  simp

theorem oddIndex_toNat (woff : BitVec 4) : (oddIndex woff).toNat = 2 * woff.toNat + 1 := by
  rw [oddIndex, toNat_append_one, BitVec.toNat_append]
  simp

theorem toNat_half (i : Byte) : ((i >>> 1).setWidth 4).toNat = i.toNat / 2 % 16 := by
  simp [BitVec.toNat_ushiftRight, Nat.shiftRight_eq_div_pow]

theorem toNat_wordAddress (a : FlashAddr) : (wordAddress a).toNat = a.toNat / 2 := by
  simp [wordAddress, BitVec.toNat_ushiftRight, Nat.shiftRight_eq_div_pow]

/-- An even byte index of a page is that of its word offset (R75). -/
theorem evenIndex_half {i : Byte} (hi : i.toNat < 32) (h : i.getLsbD 0 = false) :
    evenIndex ((i >>> 1).setWidth 4) = i := by
  apply BitVec.eq_of_toNat_eq
  rw [evenIndex_toNat, toNat_half]
  rw [getLsbD_zero_eq, decide_eq_false_iff_not] at h
  omega

/-- An odd byte index of a page is that of its word offset (R75). -/
theorem oddIndex_half {i : Byte} (hi : i.toNat < 32) (h : i.getLsbD 0 = true) :
    oddIndex ((i >>> 1).setWidth 4) = i := by
  apply BitVec.eq_of_toNat_eq
  rw [oddIndex_toNat, toNat_half]
  rw [getLsbD_zero_eq, decide_eq_true_eq] at h
  omega

theorem toNat_wordField (a : FlashAddr) : ((a >>> 1).setWidth 15).toNat = a.toNat / 2 := by
  have h := a.isLt
  simp [BitVec.toNat_ushiftRight, Nat.shiftRight_eq_div_pow]
  omega

theorem evenAddress_half {a : FlashAddr} (h : a.getLsbD 0 = false) :
    evenAddress ((a >>> 1).setWidth 15) = a := by
  apply BitVec.eq_of_toNat_eq
  rw [evenAddress, toNat_append_zero, toNat_wordField]
  rw [getLsbD_zero_eq, decide_eq_false_iff_not] at h
  omega

theorem oddAddress_half {a : FlashAddr} (h : a.getLsbD 0 = true) :
    oddAddress ((a >>> 1).setWidth 15) = a := by
  apply BitVec.eq_of_toNat_eq
  rw [oddAddress, toNat_append_one, toNat_wordField]
  rw [getLsbD_zero_eq, decide_eq_true_eq] at h
  omega

/-- A page index byte sends the frame of its low six bits (R76, R118). -/
theorem fmtWritePage_low (page : Byte) : fmtWritePage (0#2 ++ page.setWidth 6) = fmtWritePage page := by
  have h₁ : ((0#2 ++ page.setWidth 6) >>> 4) &&& 0x03#8 = (page >>> 4) &&& 0x03#8 := by
    apply BitVec.eq_of_getLsbD_eq
    intro i hi
    simp only [BitVec.getLsbD_and, BitVec.getLsbD_ushiftRight, BitVec.getLsbD_append]
    interval_cases i <;> simp
  have h₂ : ((0#2 ++ page.setWidth 6) <<< 4) &&& 0xF0#8 = (page <<< 4) &&& 0xF0#8 := by
    apply BitVec.eq_of_getLsbD_eq
    intro i hi
    simp only [BitVec.getLsbD_and, BitVec.getLsbD_shiftLeft, BitVec.getLsbD_append]
    interval_cases i <;> simp
  rw [fmtWritePage, fmtWritePage, h₁, h₂]

/-! ## The frame of an instruction -/

/-- The frame a frame instruction sends. -/
def frameSent : Instr → Option Frame
  | .progEnable => some fmtProgEnable
  | .chipErase => some fmtChipErase
  | .readSig idx => some (fmtReadSig (0#6 ++ idx))
  | .pollBusy => some fmtPollBusy
  | .loadLo woff data => some (fmtLoadLo (evenIndex woff) data)
  | .loadHi woff data => some (fmtLoadHi (oddIndex woff) data)
  | .writePage pidx => some (fmtWritePage (0#2 ++ pidx))
  | .readLo wa => some (fmtReadLo (evenAddress wa))
  | .readHi wa => some (fmtReadHi (oddAddress wa))
  | .setMosi _ | .setSck _ | .setRst _ | .readMiso | .transfer _ | .sync | .readSignature _
  | .isBusy | .erase | .programPage _ _ | .readByte _ => none

/-- The instructions that send one are the frame instructions. -/
theorem exists_frameSent {i : Instr} (h : isOperation i = false) : ∃ f, frameSent i = some f := by
  cases i with
  | progEnable | chipErase | readSig _ | pollBusy | loadLo _ _ | loadHi _ _ | writePage _ | readLo _
  | readHi _ => exact ⟨_, rfl⟩
  | _ => cases h

/-- A frame instruction leaves the frame it sends in CMD, and its last bit on MOSI (R104(d), R110). -/
theorem effect_of_frameSent {i : Instr} {f : Frame} (h : frameSent i = some f) (c : Config) (s : State) :
    (effect c i s).cmd = f ∧ (effect c i s).port = afterBit c s.port (f.b3.getLsbD 0) := by
  have hx : ∀ f, (s.afterExchange c f).port = afterBit c s.port (f.b3.getLsbD 0) := fun f => by
    rw [State.afterExchange_port, streamPort_frame]
  cases i with
  | progEnable | chipErase | readSig _ | loadLo _ _ | loadHi _ _ | writePage _ | readLo _ | readHi _ =>
    cases h
    exact ⟨State.afterExchange_cmd c _ s, hx _⟩
  | pollBusy =>
    cases h
    simp only [effect, State.afterPoll, State.setBusyf_cmd, State.setBusyf_toShifter]
    exact ⟨State.afterExchange_cmd c _ s, hx _⟩
  | _ => cases h

/-- The frame a frame instruction sends is its encoding (R71, R121(d)). -/
theorem encode_of_frameSent {i : Instr} {f : Frame} (h : frameSent i = some f) :
    encode i = .frame (Frame.word f) := by
  cases i with
  | progEnable | chipErase | pollBusy => cases h; rfl
  | readSig idx | loadLo woff data | loadHi woff data | writePage pidx | readLo wa | readHi wa =>
    cases h
    refine congrArg Request.frame (BitVec.eq_of_getLsbD_eq fun i hi => ?_)
    simp only [Frame.word, fmtReadSig, fmtLoadLo, fmtLoadHi, fmtWritePage, fmtReadLo, fmtReadHi,
      evenIndex, oddIndex, evenAddress, oddAddress, highPart, lowPart, wordAddress,
      BitVec.getLsbD_append, BitVec.getLsbD_and, BitVec.getLsbD_ushiftRight,
      BitVec.getLsbD_shiftLeft, BitVec.getLsbD_setWidth]
    interval_cases i <;> simp
  | _ => cases h

/-- An instruction whose encoding is a frame word is a frame instruction. -/
theorem isOperation_of_encode {i : Instr} {F : FrameWord} (h : encode i = .frame F) :
    isOperation i = false := by
  cases i with
  | setMosi _ | setSck _ | setRst _ | readMiso | transfer _ | sync | readSignature _ | isBusy | erase
  | programPage _ _ | readByte _ => cases h
  | _ => rfl

/-- Settles O27: CMD holds the frame sent, whose word is the encoding. -/
theorem frameSentIsItsEncoding : Obligations.FrameSentIsItsEncoding := by
  intro i F s t hF h
  obtain ⟨f, hf⟩ := exists_frameSent (isOperation_of_encode hF)
  obtain ⟨-, c, -, -, rfl⟩ := exec_next h
  cases hF.symm.trans (encode_of_frameSent hf)
  rw [(effect_of_frameSent hf c s).1]
  rfl

/-- Settles O28: the frame sent is one of nine shapes, and its last bit is left on MOSI. -/
theorem frameSetShape : Obligations.FrameSetShape := by
  intro c i s t hc hi h
  obtain ⟨f, hf⟩ := exists_frameSent hi
  cases exec_next_cfg hc h
  obtain ⟨hcmd, hport⟩ := effect_of_frameSent hf c s
  rw [hcmd, hport, afterBit_mosi]
  cases i with
  | progEnable | chipErase | readSig _ | pollBusy | writePage _ | readLo _ | readHi _ =>
    cases hf
    simp [fmtProgEnable, fmtChipErase, fmtReadSig, fmtPollBusy, fmtWritePage, fmtReadLo, fmtReadHi]
  | loadLo woff data =>
    cases hf
    exact ⟨by simp [fmtLoadLo], fun hn => absurd rfl (hn woff data).1, by simp [fmtLoadLo]⟩
  | loadHi woff data =>
    cases hf
    exact ⟨by simp [fmtLoadHi], fun hn => absurd rfl (hn woff data).2, by simp [fmtLoadHi]⟩
  | _ => cases hi

/-! ## The frame instructions by themselves -/

/-- Settles O20: the closed form, and the echo test of its third response byte. -/
theorem progEnableExchanges : Obligations.ProgEnableExchanges :=
  ⟨rfl, fun c s hc => ⟨_, exec_eq_effect rfl hc (by simp [isOperation]), rfl,
    echoOk_afterExchange c _ s⟩⟩

/-- Settles O21: the closed form. -/
theorem chipEraseExchanges : Obligations.ChipEraseExchanges :=
  ⟨rfl, fun _ _ hc => exec_eq_effect rfl hc (by simp [isOperation])⟩

/-- Settles O22: the two-bit field in its byte is the operand masked, which the formatter masks again. -/
theorem readSigExchanges : Obligations.ReadSigExchanges := by
  intro c index s hc
  have hframe : fmtReadSig (0#6 ++ index.setWidth 2) = ⟨0x30#8, 0x00#8, index &&& 0x03#8, 0x00#8⟩ := by
    rw [fmtReadSig, append_setWidth_two, BitVec.and_assoc, BitVec.and_self]
  refine ⟨?_, valueOf_afterExchange c _ s⟩
  rw [exec_eq_effect rfl hc (by simp [isOperation]), effect, hframe]

/-- Settles O23: the closed form of a poll. -/
theorem pollBusySetsBusyFlag : Obligations.PollBusySetsBusyFlag :=
  ⟨rfl, fun _ _ hc => exec_eq_effect rfl hc (by simp [isOperation])⟩

/-- Settles O24: the word offset of an even or odd index stands for that index. -/
theorem loadExchanges : Obligations.LoadExchanges := by
  intro c i d s hc hi
  refine ⟨fun h => ?_, fun h => ⟨?_, ?_⟩⟩
  · rw [exec_eq_effect rfl hc (by simp [isOperation]), effect, evenIndex_half hi h]
    rfl
  · rw [exec_eq_effect rfl hc (by simp [isOperation]), effect, oddIndex_half hi h]
    rfl
  · rw [getLsbD_zero_eq, decide_eq_true_eq] at h
    apply BitVec.eq_of_toNat_eq
    simp only [BitVec.toNat_ushiftRight, BitVec.toNat_sub, Nat.shiftRight_eq_div_pow]
    simp
    omega

/-- Settles O25: the field holds the low six bits, and the formatter sends no others. -/
theorem writePageExchanges : Obligations.WritePageExchanges := by
  intro c page s hc
  rw [exec_eq_effect rfl hc (by simp [isOperation]), effect, fmtWritePage_low]
  rfl

/-- Settles O26: the word of an even or odd address stands for that address. -/
theorem readExchanges : Obligations.ReadExchanges := by
  intro c a s hc
  refine ⟨fun h => ?_, fun h => ?_, fun f => valueOf_afterExchange c f s⟩
  · rw [exec_eq_effect rfl hc (by simp [isOperation]), effect, evenAddress_half h]
    rfl
  · rw [exec_eq_effect rfl hc (by simp [isOperation]), effect, oddAddress_half h]
    rfl

/-! ## The frames of one byte's address -/

theorem toNat_ofNat_byteAddress {p k : Nat} (hp : p < 64) (hk : k < 32) :
    (BitVec.ofNat 16 (p * 32 + k) : FlashAddr).toNat = p * 32 + k := by
  rw [BitVec.toNat_ofNat, Nat.mod_eq_of_lt (by omega)]

/-- The two address bytes of a frame are the word address (R77). -/
theorem toNat_high_low (w : FlashAddr) : 256 * (highPart w).toNat + (lowPart w).toNat = w.toNat := by
  have h := w.isLt
  have hand : ∀ x, x &&& 255 = x % 256 := fun x => Nat.and_two_pow_sub_one_eq_mod x 8
  have hhigh : (highPart w).toNat = w.toNat / 256 % 256 := by
    simp [highPart, BitVec.toNat_ushiftRight, Nat.shiftRight_eq_div_pow, hand]
  have hlow : (lowPart w).toNat = w.toNat % 256 := by simp [lowPart, hand]
  omega

theorem fmtRead_addressBytes (a : FlashAddr) :
    (if byteInWord a then fmtReadHi a else fmtReadLo a).b1 = highPart (wordAddress a) ∧
    (if byteInWord a then fmtReadHi a else fmtReadLo a).b2 = lowPart (wordAddress a) ∧
    (if byteInWord a then fmtReadHi a else fmtReadLo a).b0.getLsbD 3 = byteInWord a := by
  cases byteInWord a <;> simp [fmtReadLo, fmtReadHi]

/-- The two page bytes of a commit are the word address of the page's first byte (R76). -/
theorem toNat_commit {p : Nat} (hp : p < 64) :
    256 * (fmtWritePage (BitVec.ofNat 8 p)).b1.toNat + (fmtWritePage (BitVec.ofNat 8 p)).b2.toNat =
      p * 16 := by
  have h₁ : ((BitVec.ofNat 8 p >>> 4) &&& 0x03#8).toNat = p / 16 := by
    simp only [BitVec.toNat_and, BitVec.toNat_ushiftRight, BitVec.toNat_ofNat,
      Nat.shiftRight_eq_div_pow]
    rw [show 3 % 2 ^ 8 = 2 ^ 2 - 1 from rfl, Nat.and_two_pow_sub_one_eq_mod]
    omega
  have h₂ : (BitVec.ofNat 8 p <<< 4) &&& 0xF0#8 = BitVec.ofNat 8 p <<< 4 := by
    apply BitVec.eq_of_getLsbD_eq
    intro i hi
    simp only [BitVec.getLsbD_and, BitVec.getLsbD_shiftLeft]
    interval_cases i <;> simp
  rw [fmtWritePage, h₁, h₂, BitVec.toNat_shiftLeft, BitVec.toNat_ofNat, Nat.shiftLeft_eq]
  omega

/-- Settles O29: every field of the three frames as a number is a part of the byte address. -/
theorem loadCommitReadAgree : Obligations.LoadCommitReadAgree := by
  intro p k d hp hk a load commit read
  have ha : a.toNat = p * 32 + k := toNat_ofNat_byteAddress hp hk
  have hword : (wordAddress a).toNat = p * 16 + k / 2 := by rw [toNat_wordAddress, ha]; omega
  have hbit : byteInWord a = decide (k % 2 = 1) := by
    rw [byteInWord, getLsbD_zero_eq, ha]
    exact decide_eq_decide.2 (by omega)
  obtain ⟨hb₁, hb₂, hb₀⟩ := fmtRead_addressBytes a
  have hload : load.b2.toNat = k / 2 ∧ load.b0.getLsbD 3 = decide (k % 2 = 1) := by
    have hhalf : ((BitVec.ofNat 8 k : Byte) >>> 1).toNat = k / 2 := by
      simp [BitVec.toNat_ushiftRight, Nat.shiftRight_eq_div_pow]
      omega
    rcases Nat.mod_two_eq_zero_or_one k with h | h
    · simp [load, h, fmtLoadLo, hhalf]
    · simp [load, h, fmtLoadHi, hhalf]
  refine ⟨?_, ?_, ?_, ?_, hword, ?_, ?_, ?_⟩
  · rw [hload.1, wordOffset, BitVec.toNat_and]
    exact (by omega : k / 2 = (p * 16 + k / 2) % 2 ^ 4).trans
      (by rw [← hword, ← Nat.and_two_pow_sub_one_eq_mod]; rfl)
  · rw [hload.2, hbit]
  · rw [toNat_commit hp, toNat_wordAddress, BitVec.toNat_ofNat]; omega
  · rw [hb₁, hb₂, toNat_high_low]
  · rw [hb₀, hbit]
  · rw [pageIndex, BitVec.toNat_ushiftRight, ha, Nat.shiftRight_eq_div_pow]; omega
  · rw [byteIndex, BitVec.toNat_and, ha]
    exact (Nat.and_two_pow_sub_one_eq_mod _ 5).trans (by omega)

/-! ## The simulated device -/

/-- A frame the block sends for an instruction has that instruction's effect on the device (R80). -/
theorem accept_of_frameSent {i : Instr} {f : Frame} {t : Target.Device}
    {r : Target.Device × Option Byte} (h : frameSent i = some f) (hp : t.perform i = some r) :
    t.accept f = .ok r := by
  have hd := decodeEncodeRoundTrip i
  rw [encode_of_frameSent h] at hd
  exact accept_of_decode hd hp

/-- The frame of the load of byte index `i` as the formatter composes it (R75, R136). -/
def fmtLoad (i : Nat) (d : Byte) : Frame :=
  if i % 2 = 0 then fmtLoadLo (BitVec.ofNat 8 i) d else fmtLoadHi (BitVec.ofNat 8 i) d

/-- A load puts its byte at its index of the buffer (R56). -/
theorem accept_fmtLoad (t : Target.Device) {i : Nat} (hi : i < 32) (d : Byte) :
    t.accept (fmtLoad i d) =
      .ok ({ t with buffer := fun k => if k = i then d else t.buffer k }, none) := by
  have hnat : (BitVec.ofNat 8 i : Byte).toNat = i := by
    rw [BitVec.toNat_ofNat, Nat.mod_eq_of_lt (by omega)]
  have hodd : (BitVec.ofNat 8 i : Byte).getLsbD 0 = decide (i % 2 = 1) := by
    rw [getLsbD_zero_eq, hnat]
  rcases Nat.mod_two_eq_zero_or_one i with h | h
  · have hf : frameSent (.loadLo ((BitVec.ofNat 8 i >>> 1).setWidth 4) d) = some (fmtLoad i d) := by
      rw [frameSent, evenIndex_half (by rwa [hnat]) (by rw [hodd, h]; rfl), fmtLoad, if_pos h]
    refine accept_of_frameSent hf ?_
    rw [Target.Device.perform, toNat_half, hnat, show 2 * (i / 2 % 16) = i by omega]
  · have hf : frameSent (.loadHi ((BitVec.ofNat 8 i >>> 1).setWidth 4) d) = some (fmtLoad i d) := by
      rw [frameSent, oddIndex_half (by rwa [hnat]) (by rw [hodd, h]; rfl), fmtLoad, if_neg (by omega)]
    refine accept_of_frameSent hf ?_
    rw [Target.Device.perform, toNat_half, hnat, show 2 * (i / 2 % 16) + 1 = i by omega]

/-- The first `n` loads of a page fill the first `n` bytes of the buffer. -/
theorem acceptAll_fmtLoads (t : Target.Device) (data : List Byte) {n : Nat} (hn : n ≤ 32) :
    Target.Device.acceptAll ((List.range n).map fun i => fmtLoad i (data.getD i 0#8)) t =
      .ok { t with buffer := fun k => if k < n then data.getD k 0#8 else t.buffer k } := by
  induction n with
  | zero => simp [Target.Device.acceptAll]
  | succ n ih =>
    rw [List.range_succ, List.map_append, acceptAll_append _ (ih (by omega)), List.map_singleton,
      acceptAll_cons (accept_fmtLoad _ (by omega) _), Target.Device.acceptAll]
    refine congrArg (fun b => Except.ok { t with buffer := b }) (funext fun k => ?_)
    rcases Nat.lt_trichotomy k n with h | rfl | h
    · simp [h, h.ne, Nat.lt_succ_of_lt h]
    · simp
    · simp [h.ne', show ¬ k < n by omega, show ¬ k < n + 1 by omega]

/-- A commit copies the buffer to its page (R56). -/
theorem accept_fmtWritePage (t : Target.Device) {p : Nat} (hp : p < 64) :
    t.accept (fmtWritePage (BitVec.ofNat 8 p)) =
      .ok ({ t with flash := fun a =>
        if a / pageBytes = p then t.buffer (a % pageBytes) else t.flash a }, none) := by
  have hf : frameSent (.writePage ((BitVec.ofNat 8 p : Byte).setWidth 6)) =
      some (fmtWritePage (BitVec.ofNat 8 p)) := by
    rw [frameSent, fmtWritePage_low]
  refine accept_of_frameSent hf ?_
  have hnat : ((BitVec.ofNat 8 p : Byte).setWidth 6).toNat = p := by
    rw [BitVec.toNat_setWidth, BitVec.toNat_ofNat]; omega
  rw [Target.Device.perform, hnat]

/-- The READ frame of an address is answered with the byte there (R64). -/
theorem accept_fmtRead (t : Target.Device) (a : FlashAddr) :
    t.accept (if byteInWord a then fmtReadHi a else fmtReadLo a) = .ok (t, some (t.flash a.toNat)) := by
  have hodd : byteInWord a = decide (a.toNat % 2 = 1) := getLsbD_zero_eq a
  cases h : byteInWord a with
  | false =>
    have hf : frameSent (.readLo ((a >>> 1).setWidth 15)) = some (fmtReadLo a) := by
      rw [frameSent, evenAddress_half h]
    refine accept_of_frameSent hf ?_
    rw [h, eq_comm, decide_eq_false_iff_not] at hodd
    rw [Target.Device.perform, toNat_wordField, show 2 * (a.toNat / 2) = a.toNat by omega]
  | true =>
    have hf : frameSent (.readHi ((a >>> 1).setWidth 15)) = some (fmtReadHi a) := by
      rw [frameSent, oddAddress_half h]
    refine accept_of_frameSent hf ?_
    rw [h, eq_comm, decide_eq_true_eq] at hodd
    rw [Target.Device.perform, toNat_wordField, show 2 * (a.toNat / 2) + 1 = a.toNat by omega]

/-- Settles O30: the loads fill the buffer, the commit copies it to the page, and the read finds the byte
of its address there. -/
theorem deviceReadsBackPage : Obligations.DeviceReadsBackPage := by
  intro t data p k _ hp hk a loads
  have hloads := acceptAll_fmtLoads t data (le_refl 32)
  refine ⟨_, (acceptAll_append _ hloads).trans (acceptAll_cons (accept_fmtWritePage _ hp)), ?_⟩
  have ha : a.toNat = p * 32 + k := toNat_ofNat_byteAddress hp hk
  rw [accept_fmtRead, ha]
  have hpage : (p * 32 + k) / pageBytes = p := by rw [pageBytes]; omega
  have hindex : (p * 32 + k) % pageBytes = k := by rw [pageBytes]; omega
  simp only [hpage, hindex, hk, if_true]

end Sys2Proof.Machine
end

section
/-! PROOFS. SYNC, the operations that hand back a byte or a bit, and the session that starts again after an
outside stop (43_isp_operations.md R131 to R133, R137; 70_reset_and_hazards.md R188). -/

namespace Sys2Proof.Machine

open Sys2Proof

/-! ## SYNC -/

/-- SCK low, reset released, MOSI low: the lines as SYNC leaves them (R131). -/
def linesRestored (c : Config) (p : Byte) : Prop :=
  p.getLsbD c.sck = false ∧ p.getLsbD c.rst = false ∧ p.getLsbD c.mosi = false

/-- The reset pulse releases reset, and the enable frame leaves SCK and MOSI low. -/
theorem afterAttempt_linesRestored (c : Config) (s : State) :
    linesRestored c (s.afterAttempt c).port := by
  rw [State.afterAttempt_port, streamPort_frame]
  refine ⟨afterBit_sck c _ _, ?_, afterBit_mosi c _ _⟩
  rw [afterBit_other c _ _ c.rst.isLt (Fin.val_ne_of_ne c.mosi_ne_rst.symm)
    (Fin.val_ne_of_ne c.sck_ne_rst.symm), afterPulse, withBit_own]

theorem syncLoop_keeps_linesRestored (c : Config) (n : Nat) {s : State}
    (h : linesRestored c s.port) : linesRestored c (syncLoop c n s).port := by
  induction n generalizing s with
  | zero => exact h
  | succ n ih =>
    simp only [syncLoop, syncAttempt_eq]
    split
    · exact afterAttempt_linesRestored c s
    · exact ih (afterAttempt_linesRestored c s)

/-- SYNC restores the lines from any levels (R131). -/
theorem effect_sync_linesRestored (c : Config) (s : State) :
    linesRestored c (effect c .sync s).port := by
  rw [effect, syncAttempts, syncLoop]
  simp only [syncAttempt_eq]
  split
  · exact afterAttempt_linesRestored c _
  · exact syncLoop_keeps_linesRestored c 2 (afterAttempt_linesRestored c _)

theorem effect_sync_unused (c : Config) (s : State) :
    sameUnused c (effect c .sync s).port s.port := by
  obtain ⟨_, -, -, -, h, -⟩ := (syncLoop_moves c syncAttempts (s.setAttempt 0)).events
  rw [State.setAttempt_toShifter] at h
  exact sameUnused_of_agreeOutside h

/-- Each attempt makes 134 events: six of the reset pulse, 128 of the frame. -/
theorem afterAttempts_trace_length (c : Config) (n : Nat) (s : State) :
    (State.afterAttempts c n s).trace.length = s.trace.length + 134 * n := by
  induction n generalizing s with
  | zero => rfl
  | succ n ih =>
    have h : (s.afterAttempt c).trace.length = s.trace.length + 134 := by
      rw [State.afterAttempt_trace, List.length_append, List.length_append, streamEvents_length,
        bitStream_length]
      simp [pulseEvents, Frame.toList]
    rw [State.afterAttempts, ih, h]
    omega

/-- The end of SYNC after `n` attempts as a record over the attempts, where it found the block idle. -/
theorem syncEnd_eq {s : State} (hs : s.seq = .idle) (c : Config) (n : Nat) (p : Phase) (r : Result) :
    ((State.afterAttempts c n (s.setAttempt 0)).setPhase p).handBack r =
      { State.afterAttempts c n { s with attempt := 0 } with
        phase := p
        result := r
        results := s.results ++ [r] } := by
  have hseq : ((State.afterAttempts c n (s.setAttempt 0)).setPhase p).seq = .idle := by simp [hs]
  have hres : (State.afterAttempts c n (s.setAttempt 0)).results = s.results := by simp
  rw [State.handBack_of_idle hseq, State.setPhase_results, hres]
  rfl

/-- Settles O31: the loop ends at the first echo. -/
theorem syncSucceedsAtFirstEcho : Obligations.SyncSucceedsAtFirstEcho := by
  intro c k s h hk hno hyes
  have heq : effect c .sync s =
      ((State.afterAttempts c (k + 1) (s.setAttempt 0)).setPhase .synchronized).handBack .success :=
    syncLoop_success c syncAttempts k (s.setAttempt 0) hk
      (fun j hj => beq_eq_false_iff_ne.2 (by rw [State.setAttempt_toShifter]; exact hno j hj))
      (beq_iff_eq.2 (by rw [State.setAttempt_toShifter]; exact hyes))
  obtain ⟨hsck, hrst, hmosi⟩ := effect_sync_linesRestored c s
  refine ⟨_, h.exec_eq rfl, heq.trans (syncEnd_eq h.2 c _ _ _), ?_, hsck, hrst, hmosi,
    effect_sync_unused c s⟩
  rw [heq, State.handBack_toShifter, State.setPhase_toShifter, afterAttempts_trace_length,
    State.setAttempt_toShifter]

/-- Settles O32: the loop runs out of attempts. -/
theorem syncFailsAfterThreeAttempts : Obligations.SyncFailsAfterThreeAttempts := by
  intro c s h hno
  have heq : effect c .sync s =
      ((State.afterAttempts c 3 (s.setAttempt 0)).setPhase .syncFailed).handBack .failure :=
    syncLoop_failure c syncAttempts (s.setAttempt 0)
      fun j hj => beq_eq_false_iff_ne.2 (by rw [State.setAttempt_toShifter]; exact hno j hj)
  obtain ⟨hsck, hrst, hmosi⟩ := effect_sync_linesRestored c s
  refine ⟨_, h.exec_eq rfl, heq.trans (syncEnd_eq h.2 c _ _ _), ?_, ?_, hsck, hrst, hmosi,
    effect_sync_unused c s⟩
  · rw [heq, State.handBack_toShifter, State.setPhase_toShifter, afterAttempts_trace_length,
      State.setAttempt_toShifter]
  · rw [heq, State.handBack_seq]

/-- Settles O33: the closed form of an attempt. -/
theorem syncAttemptEvents : Obligations.SyncAttemptEvents := by
  intro c s p₁ p₂ p₃
  have hp₃ : p₃ = afterPulse c s.port := withBit_withBit c.rst true false p₁
  rw [syncAttempt_eq, State.afterAttempt_trace, hp₃]
  rfl

/-! ## After an outside stop -/

/-- Settles O59: the restarted session is idle with the same configuration, so its SYNC completes, from
whatever byte of the stopped step PORT holds. -/
theorem stoppedSessionResumesWithSync : Obligations.StoppedSessionResumesWithSync := by
  refine ⟨fun i => ?_, fun c s t k r rest hc h hr => ?_⟩
  · cases i <;> simp [permittedAfterStop]
  · obtain ⟨-, -, -, hunused⟩ := interruptedKeepsUnusedBits c s t k hc h
    have hstep := step_of_decode (s := s.restarted t k (r :: rest)) rfl rfl (restartPermitted_cons hr)
    obtain ⟨v, hv⟩ : ∃ v, v = (s.restarted t k (r :: rest)).setRequests rest := ⟨_, rfl⟩
    have hcfg : v.cfg = s.cfg := by rw [hv]; rfl
    have hres : v.results = [] := by rw [hv]; rfl
    have hreq : v.requests = rest := by rw [hv]; rfl
    have hport : v.port = (s.interrupted t k).port := by rw [hv]; rfl
    have hseq : v.seq = .idle := by rw [hv]; rfl
    rw [← hv, exec_eq_effect rfl (hcfg.trans hc) fun _ => hseq] at hstep
    obtain ⟨hidle, hout⟩ := syncLoop_outcome c syncAttempts (v.setAttempt 0)
    rw [State.setAttempt_results, hres] at hout
    obtain ⟨hsck, hrst, hmosi⟩ := effect_sync_linesRestored c v
    refine ⟨_, hstep, ?_, hidle, ?_, ?_, hsck, hrst, hmosi, ?_⟩
    · exact hout.imp (fun ⟨hp, _, hs⟩ => ⟨hp, hs⟩) fun ⟨hp, _, hs⟩ => ⟨hp, hs⟩
    · rw [effect_requests, hreq]
    · rw [effect_cfg, hcfg]
    · exact sameUnused_trans (hport ▸ effect_sync_unused c v) hunused

/-! ## The operations that hand back what a frame received -/

theorem frameEvents_length (c : Config) (fs : List Frame) (d : Driver) :
    (frameEvents c fs d).length = 128 * fs.length := by
  rw [frameEvents, streamEvents_length, bitStream_length, frameBytes_length]
  omega

theorem setSigidx_afterExchange (c : Config) (f : Frame) (index : Byte) (s : State) :
    (s.setSigidx index).afterExchange c f = (s.afterExchange c f).setSigidx index := by
  cases s; rfl

theorem setAddr_afterExchange (c : Config) (f : Frame) (a : FlashAddr) (s : State) :
    (s.setAddr a).afterExchange c f = (s.afterExchange c f).setAddr a := by
  cases s; rfl

/-- Settles O34: the closed form, SIGIDX written before the exchange or after it. -/
theorem readSignatureReturnsByte : Obligations.ReadSignatureReturnsByte := by
  intro c index s h
  refine ⟨rfl, frameEvents_length c _ _, ?_⟩
  rw [h.exec_eq rfl, effect, setSigidx_afterExchange, State.handBack_of_idle (by simp [h.2]),
    State.setSigidx_results, State.afterExchange_results]
  rfl

/-- Settles O35: the closed form of a poll, its bit handed back. -/
theorem isBusyReturnsLowBit : Obligations.IsBusyReturnsLowBit := by
  intro c s h
  refine ⟨rfl, frameEvents_length c _ _, ?_⟩
  rw [h.exec_eq rfl, effect, State.handBack_of_idle (by simp [State.afterPoll, h.2])]
  simp only [State.afterPoll, State.setBusyf_results, State.afterExchange_results]
  rfl

/-- The low address bit in bit 3 of READ_BYTE's first byte, in two spellings (R77, R137). -/
theorem lowBit_shifted (a : FlashAddr) :
    ((a &&& 1#16) <<< 3).setWidth 8 = (BitVec.ofBool (a.getLsbD 0)).setWidth 8 <<< 3 := by
  apply BitVec.eq_of_getLsbD_eq
  intro i hi
  simp only [BitVec.getLsbD_setWidth, BitVec.getLsbD_shiftLeft, BitVec.getLsbD_and]
  interval_cases i <;> simp

/-- Settles O36: the closed form, ADDR written before the exchange or after it. -/
theorem readByteReturnsByte : Obligations.ReadByteReturnsByte := by
  intro c a s h
  refine ⟨⟨_, rfl⟩, fun f => frameEvents_length c [f] _, ?_⟩
  rw [h.exec_eq rfl, effect, setAddr_afterExchange, State.handBack_of_idle (by simp [h.2]),
    State.setAddr_results, State.afterExchange_results, lowBit_shifted]
  rfl

end Sys2Proof.Machine
end

section
/-! PROOFS. WAIT_READY: the first poll of ERASE and PROGRAM_PAGE, each later poll, and runs of polls
(43_isp_operations.md R134 to R136, R140; 60_exceptions.md R162, R167). -/

namespace Sys2Proof.Machine

open Sys2Proof

/-! ## One poll, judged -/

theorem limitHit_of_unbounded {c : Config} (h : c.pollLimit = none) (s : State) :
    limitHit c s = false := by
  simp only [limitHit, h]

theorem limitHit_of_finite {c : Config} {n : Nat} (h : c.pollLimit = some n) (s : State) :
    limitHit c s = decide (n ≤ s.pollcnt + 1) := by
  simp only [limitHit, h]

theorem pollsAfter_of_finite {c : Config} {n : Nat} (h : c.pollLimit = some n) (s : State) :
    pollsAfter c s = s.pollcnt + 1 := by
  simp only [pollsAfter, h]

theorem pollTurn_of_ready {c : Config} {s : State} (h : busyBitAt c s.toDriver 0 = false) (w : Seq) :
    pollTurn c w s = (s.afterTurn c).finish := by
  rw [pollTurn_eq, h]; rfl

theorem pollTurn_of_busy {c : Config} {s : State} (h : busyBitAt c s.toDriver 0 = true)
    (hl : limitHit c s = false) (w : Seq) : pollTurn c w s = (s.afterTurn c).setSeq w := by
  rw [pollTurn_eq, h, hl]; rfl

theorem pollTurn_of_timeout {c : Config} {s : State} (h : busyBitAt c s.toDriver 0 = true)
    (hl : limitHit c s = true) (w : Seq) : pollTurn c w s = (s.afterTurn c).handBack .pollTimeout := by
  rw [pollTurn_eq, h, hl]; rfl

/-- What a busy first poll leads to, by the limit (R134, R162). -/
theorem pollTurn_firstBusy {c : Config} {u : State} (hcnt : u.pollcnt = 0)
    (hb : busyBitAt c u.toDriver 0 = true) (w : Seq) :
    (c.pollLimit = none → (pollTurn c w u).seq = w ∧ (pollTurn c w u).results = u.results) ∧
    (∀ n, c.pollLimit = some n → 1 < n →
      (pollTurn c w u).seq = w ∧ (pollTurn c w u).pollcnt = 1 ∧ (pollTurn c w u).results = u.results) ∧
    (∀ n, c.pollLimit = some n → n ≤ 1 → (pollTurn c w u).seq = .idle ∧
      (pollTurn c w u).result = .pollTimeout ∧
      (pollTurn c w u).results = u.results ++ [.pollTimeout]) := by
  refine ⟨fun hn => ?_, fun n hn h1 => ?_, fun n hn h1 => ?_⟩
  · rw [pollTurn_of_busy hb (limitHit_of_unbounded hn u)]
    simp
  · have hl : limitHit c u = false := by
      rw [limitHit_of_finite hn, hcnt, decide_eq_false_iff_not]; omega
    rw [pollTurn_of_busy hb hl]
    simp [pollsAfter_of_finite hn, hcnt]
  · have hl : limitHit c u = true := by
      rw [limitHit_of_finite hn, hcnt, decide_eq_true_eq]; omega
    rw [pollTurn_of_timeout hb hl]
    simp

/-! ## The first poll after a list of frames -/

section
variable {c : Config} {fs : List Frame} {s u : State}
  (hu : u.toDriver = s.toDriver.afterStream c (bitStream (frameBytes fs)))
include hu

/-- The first poll after some frames is the frame after them. -/
theorem busyBitAt_after_frames : busyBitAt c u.toDriver 0 = busyBitAt c s.toDriver fs.length := by
  rw [hu, ← State.afterFrames_driver, busyBitAt_afterFrames, Nat.add_zero]

theorem pollTurn_trace_after_frames (w : Seq) :
    (pollTurn c w u).trace = s.trace ++ frameEvents c (fs ++ [pollFrame]) s.toDriver := by
  rw [pollTurn_trace, hu, Driver.afterStream_trace, frameEvents_concat, State.afterFrames_driver,
    List.append_assoc]
  rfl

end

theorem erase_driver (c : Config) (s : State) :
    ((s.afterExchange c fmtChipErase).setPollcnt 0).toDriver =
      s.toDriver.afterStream c (bitStream (frameBytes [fmtChipErase])) := by
  rw [State.setPollcnt_toShifter, State.afterExchange_driver]
  rfl

theorem programPage_driver (c : Config) (data : List Byte) (page : Byte) (s : State) :
    ((((s.setPage data page).afterFrames c (pageFrames data page)).setLoadidx pageBytes).setPollcnt
      0).toDriver = s.toDriver.afterStream c (bitStream (frameBytes (pageFrames data page))) := by
  rw [State.setPollcnt_toShifter, State.setLoadidx_toShifter, State.afterFrames_driver,
    State.setPage_toShifter]

theorem pageFrames_length (data : List Byte) (page : Byte) : (pageFrames data page).length = 33 := by
  simp [pageFrames, pageBytes]

/-- The frames of a page and the poll, as R136 lists them. -/
theorem pageFrames_concat (data : List Byte) (page : Byte) :
    pageFrames data page ++ [pollFrame] =
      (List.range 32).map (loadFrame data) ++ [commitFrame page, pollFrame] := by
  rw [pageFrames, List.append_assoc]; rfl

/-! The latches, the counters and the frames do not meet. -/

theorem setPollcnt_afterExchange (c : Config) (f : Frame) (n : Nat) (s : State) :
    (s.setPollcnt n).afterExchange c f = (s.afterExchange c f).setPollcnt n := by
  cases s; rfl

theorem setPage_afterExchange (c : Config) (f : Frame) (data : List Byte) (page : Byte) (s : State) :
    (s.setPage data page).afterExchange c f = (s.afterExchange c f).setPage data page := by
  cases s; rfl

theorem setPage_afterFrames (c : Config) (fs : List Frame) (data : List Byte) (page : Byte)
    (s : State) :
    (s.setPage data page).afterFrames c fs = (s.afterFrames c fs).setPage data page := by
  induction fs generalizing s with
  | nil => rfl
  | cons f fs ih =>
    rw [State.afterFrames_cons, setPage_afterExchange, ih, State.afterFrames_cons]

/-- A first poll that answers not busy, as a record over the exchange (R134). -/
theorem firstPoll_ready {c : Config} {v : State} (hs : v.seq = .idle)
    (h : busyBitAt c v.toDriver 0 = false) (w : Seq) :
    pollTurn c w (v.setPollcnt 0) = { v.afterExchange c pollFrame with
      pollcnt := pollsAfter c (v.setPollcnt 0)
      busyf := false
      results := v.results ++ [.none] } := by
  have hb : busyBitAt c (v.setPollcnt 0).toDriver 0 = false := by rwa [State.setPollcnt_toShifter]
  rw [pollTurn_of_ready hb, State.finish_of_idle (by simp [State.afterTurn, State.afterPoll, hs]),
    State.afterTurn_results, State.setPollcnt_results, State.afterTurn_eq, hb,
    setPollcnt_afterExchange]
  rfl

/-! ## ERASE -/

/-- Settles O37: the closed form of ERASE and of a first poll that answers not busy. -/
theorem eraseCompletesWhenReady : Obligations.EraseCompletesWhenReady := by
  intro c s h hready
  have hb := (busyBitAt_after_frames (erase_driver c s)).trans hready
  have htrace := pollTurn_trace_after_frames (erase_driver c s) .erasePolling
  rw [State.setPollcnt_toShifter] at hb
  refine ⟨_, h.exec_eq rfl, htrace, ?_⟩
  have heq := firstPoll_ready (by simp [h.2]) hb .erasePolling
  rw [State.afterExchange_results] at heq
  exact heq

/-- Settles O38: the closed form of ERASE and of a busy first poll. -/
theorem eraseWaitsWhileBusy : Obligations.EraseWaitsWhileBusy := by
  intro c s h hbusy
  have hb := (busyBitAt_after_frames (erase_driver c s)).trans hbusy
  have hjudged := pollTurn_firstBusy (State.setPollcnt_pollcnt 0 _) hb .erasePolling
  rw [State.setPollcnt_results, State.afterExchange_results] at hjudged
  exact ⟨_, h.exec_eq rfl, (pollTurn_busyf c _ _).trans hb,
    pollTurn_trace_after_frames (erase_driver c s) .erasePolling, hjudged⟩

/-! ## PROGRAM_PAGE -/

/-- The latches of PROGRAM_PAGE under what its first poll writes, as one record. -/
theorem pageLatches_eq (v : State) (data : List Byte) (page : Byte) (n : Nat) (b : Bool)
    (rs : List Result) :
    { (v.setPage data page).setLoadidx pageBytes with pollcnt := n, busyf := b, results := rs } =
      { v with
        page := data, pageidx := page, loadidx := 32, pollcnt := n, busyf := b, results := rs } := rfl

/-- Settles O39: the closed form of PROGRAM_PAGE and of a first poll that answers not busy; the latches and
the frames do not meet. -/
theorem programPageCompletesWhenReady : Obligations.ProgramPageCompletesWhenReady := by
  intro c data page s h hlen hready
  have hdriver := programPage_driver c data page s
  have hb := (busyBitAt_after_frames hdriver).trans ((pageFrames_length data page).symm ▸ hready)
  have htrace := pollTurn_trace_after_frames hdriver .pagePolling
  rw [State.setPollcnt_toShifter] at hb
  refine ⟨_, h.exec_eq (beq_iff_eq.2 hlen), ?_, ?_, ?_⟩
  · rw [pageFrames_concat] at htrace
    exact htrace
  · rw [effect, htrace, List.length_append, frameEvents_length, List.length_append, pageFrames_length]
    rfl
  · rw [effect, firstPoll_ready (by simp [h.2]) hb, setLoadidx_afterExchange, setPage_afterFrames,
      setPage_afterExchange, State.setLoadidx_results, State.setPage_results, State.afterFrames_results]
    exact pageLatches_eq _ data page _ _ _

/-- Settles O40: the closed form of PROGRAM_PAGE and of a busy first poll. -/
theorem programPageWaitsWhileBusy : Obligations.ProgramPageWaitsWhileBusy := by
  intro c data page s h hlen hbusy
  have hdriver := programPage_driver c data page s
  have hb := (busyBitAt_after_frames hdriver).trans ((pageFrames_length data page).symm ▸ hbusy)
  have hjudged := pollTurn_firstBusy (State.setPollcnt_pollcnt 0 _) hb .pagePolling
  rw [State.setPollcnt_results, State.setLoadidx_results, State.afterFrames_results,
    State.setPage_results] at hjudged
  refine ⟨_, h.exec_eq (beq_iff_eq.2 hlen), (pollTurn_busyf c _ _).trans hb, ?_,
    pollTurn_trace_after_frames hdriver .pagePolling, hjudged⟩
  simp [effect, pollTurn_page]

/-! ## A later poll -/

theorem State.setSeq_self (s : State) : s.setSeq s.seq = s := by
  cases s; rfl

/-- Settles O41: the closed form of a poll, judged by its busy bit and then by the limit. -/
theorem pollTurnJudgesAnswer : Obligations.PollTurnJudgesAnswer := by
  intro c s hp u
  have hu : s.afterTurn c = u := State.afterTurn_eq c s
  have hseq : s.seq = (s.afterTurn c).seq := by simp [State.afterTurn, State.afterPoll]
  have hport := pollTurn_port c s.seq s
  have hon : busyBitAt c s.toDriver 0 = true → limitHit c s = false → pollTurn c s.seq s = u := by
    intro hb hl
    rw [pollTurn_of_busy hb hl, ← hu]
    exact (congrArg (fun q => (s.afterTurn c).setSeq q) hseq).trans (State.setSeq_self _)
  refine ⟨_, step_polling hp, pollTurn_trace c _ s, pollTurn_busyf c _ s, pollTurn_phase c _ s,
    ?_, ?_, ?_, ?_, fun hb => ?_, fun hb hn => hon hb (limitHit_of_unbounded hn s),
    fun n hb hn hlt => hon hb ?_, fun n hb hn hle => ?_⟩
  · rw [hport]; exact streamPort_rst c [false] s.port
  · rw [hport, afterBit_sck]
  · rw [hport, afterBit_mosi]
  · rw [hport]; exact streamPort_unused c [false] s.port
  · rw [pollTurn_of_ready hb, State.finish, State.afterTurn_results, hu]
  · rw [limitHit_of_finite hn, decide_eq_false_iff_not]; omega
  · rw [pollTurn_of_timeout hb ((limitHit_of_finite hn s).trans (decide_eq_true hle)), State.handBack,
      State.afterTurn_results, hu]

/-! ## Runs of polls -/

/-- A run of `n` steps, then `m` more. -/
theorem run_add {n m : Nat} {s t : State} (h : Sys2Proof.core.run n s = .next t) :
    Sys2Proof.core.run (n + m) s = Sys2Proof.core.run m t := by
  induction n generalizing s with
  | zero => cases h; rw [Nat.zero_add]
  | succ n ih =>
    rw [Nat.add_right_comm]
    simp only [Host.Core.run] at h ⊢
    split at h
    · exact ih h
    · cases h
    · cases h

theorem run_one {s t : State} (h : step s = .next t) : Sys2Proof.core.run 1 s = .next t :=
  run_next (n := 0) h

/-- After `n` busy polls that do not reach the limit the block is in the same spin: nothing is recorded,
`n` frames are sent, and POLLCNT has counted them where there is a limit (R140). -/
theorem run_busy {c : Config} (n : Nat) {s : State} (hp : s.polling c)
    (hbusy : Target.busyFor c s.toDriver 0 n)
    (hlimit : ∀ l, c.pollLimit = some l → s.pollcnt + n < l) :
    ∃ t : State, Sys2Proof.core.run n s = .next t ∧ t.polling c ∧ t.seq = s.seq ∧ t.results = s.results ∧
      t.trace.length = s.trace.length + 128 * n ∧
      (∀ j, busyBitAt c t.toDriver j = busyBitAt c s.toDriver (n + j)) ∧
      ∀ l, c.pollLimit = some l → t.pollcnt = s.pollcnt + n := by
  induction n generalizing s with
  | zero => exact ⟨s, rfl, hp, rfl, rfl, rfl, fun j => by rw [Nat.zero_add], fun _ _ => rfl⟩
  | succ n ih =>
    have hb : busyBitAt c s.toDriver 0 = true := hbusy 0 (Nat.succ_pos n)
    have hl : limitHit c s = false := by
      cases hn : c.pollLimit with
      | none => exact limitHit_of_unbounded hn s
      | some l =>
        have := hlimit l hn
        rw [limitHit_of_finite hn, decide_eq_false_iff_not]; omega
    obtain ⟨u, hu⟩ : ∃ u, u = pollTurn c s.seq s := ⟨_, rfl⟩
    have hturn := pollTurn_of_busy hb hl s.seq
    have hseq : u.seq = s.seq := by rw [hu, hturn, State.setSeq_seq]
    have hres : u.results = s.results := by rw [hu, hturn]; simp
    have hup : u.polling c := ⟨by rw [hu, pollTurn_cfg, hp.1], by rw [hseq]; exact hp.2⟩
    have hcoming : ∀ j, busyBitAt c u.toDriver j = busyBitAt c s.toDriver (j + 1) := fun j => by
      rw [hu, busyBitAt_pollTurn]
    have hcnt : ∀ l, c.pollLimit = some l → u.pollcnt = s.pollcnt + 1 := fun l hn => by
      rw [hu, pollTurn_pollcnt, pollsAfter_of_finite hn]
    obtain ⟨t, hrun, htp, htseq, htres, htrace, htcoming, htcnt⟩ := ih hup
      (fun j hj => by rw [hcoming, Nat.zero_add, ← Nat.zero_add (j + 1)]; exact hbusy _ (by omega))
      (fun l hn => by have := hlimit l hn; rw [hcnt l hn]; omega)
    refine ⟨t, (run_next ((step_polling hp).trans (hu ▸ rfl))).trans hrun, htp, htseq.trans hseq,
      htres.trans hres, ?_, fun j => ?_, fun l hn => ?_⟩
    · rw [htrace, hu, pollTurn_trace_length]; omega
    · rw [htcoming, hcoming, Nat.add_right_comm]
    · rw [htcnt l hn, hcnt l hn]; omega

/-- Settles O42: with no limit none is reached. -/
theorem unboundedSpinHangs : Obligations.UnboundedSpinHangs := by
  intro c n s hp hn hbusy
  obtain ⟨t, hrun, -, hseq, hres, htrace, -⟩ := run_busy n hp hbusy (by simp [hn])
  exact ⟨t, hrun, hseq, hres, htrace⟩

/-- Settles O43: the busy polls, then the one that answers not busy. -/
theorem spinEndsAtFirstReadyPoll : Obligations.SpinEndsAtFirstReadyPoll := by
  intro c n s hp hbusy hready hlimit
  obtain ⟨t, hrun, htp, -, hres, htrace, hcoming, -⟩ := run_busy n hp hbusy hlimit
  have hb : busyBitAt c t.toDriver 0 = false := (hcoming 0).trans hready
  refine ⟨_, (run_add hrun).trans (run_one (step_polling htp)), ?_, ?_, ?_, ?_⟩
  · rw [pollTurn_of_ready hb, State.finish_seq]
  · rw [pollTurn_busyf, hb]
  · rw [pollTurn_of_ready hb, State.finish_results, State.afterTurn_results, hres]
  · rw [pollTurn_trace_length, htrace]; omega

/-- A busy poll at the limit ends the operation in PollTimeout (R162). -/
theorem pollTurn_timeout_outcome {c : Config} {s : State} (hb : busyBitAt c s.toDriver 0 = true)
    (hl : limitHit c s = true) (w : Seq) :
    (pollTurn c w s).seq = .idle ∧ (pollTurn c w s).result = .pollTimeout ∧
      (pollTurn c w s).busyf = true ∧ (pollTurn c w s).results = s.results ++ [.pollTimeout] := by
  rw [pollTurn_of_timeout hb hl]
  simp [hb]

/-- A spin all of whose polls answer busy ends in PollTimeout with the poll that reaches the limit. -/
theorem run_timeout {c : Config} (n : Nat) {s : State} (hp : s.polling c)
    (hlimit : c.pollLimit = some (s.pollcnt + n + 1))
    (hbusy : Target.busyFor c s.toDriver 0 (n + 1)) :
    ∃ t : State, Sys2Proof.core.run (n + 1) s = .next t ∧ t.seq = .idle ∧ t.result = .pollTimeout ∧
      t.busyf = true ∧ t.results = s.results ++ [.pollTimeout] ∧
      t.trace.length = s.trace.length + 128 * (n + 1) := by
  obtain ⟨t, hrun, htp, -, hres, htrace, hcoming, hcnt⟩ := run_busy n hp
    (fun j hj => hbusy j (by omega)) (fun l hl => by cases hlimit.symm.trans hl; omega)
  have hb : busyBitAt c t.toDriver 0 = true := by
    rw [hcoming, Nat.add_comm]; exact hbusy n (by omega)
  have hl : limitHit c t = true := by
    rw [limitHit_of_finite hlimit, hcnt _ hlimit, decide_eq_true_eq]
  obtain ⟨hidle, hresult, hbusyf, hresults⟩ := pollTurn_timeout_outcome hb hl t.seq
  refine ⟨_, (run_add hrun).trans (run_one (step_polling htp)), hidle, hresult, hbusyf, ?_, ?_⟩
  · rw [hresults, hres]
  · rw [pollTurn_trace_length, htrace]; omega

/-- Settles O44: the step that issues ERASE makes the first poll, which reaches a limit of one; with a
higher limit the other polls follow in the spin. -/
theorem pollTimeoutAfterLimit : Obligations.PollTimeoutAfterLimit := by
  intro c n s rest h hreq hlimit hbusy
  obtain ⟨u, hu⟩ : ∃ u, u = ((s.setRequests rest).afterExchange c fmtChipErase).setPollcnt 0 :=
    ⟨_, rfl⟩
  have hdriver : u.toDriver = s.toDriver.afterStream c (bitStream (frameBytes [fmtChipErase])) := by
    rw [hu, erase_driver, State.setRequests_toShifter]
  have hres : u.results = s.results := by rw [hu]; simp
  have hcnt : u.pollcnt = 0 := by rw [hu, State.setPollcnt_pollcnt]
  have hstep : step s = .next (pollTurn c .erasePolling u) := by
    rw [step_of_decode h.2 hreq (decodeEncodeRoundTrip .erase), hu]
    exact exec_eq_effect rfl (by simpa using h.1) fun _ => by simpa using h.2
  have hb : busyBitAt c u.toDriver 0 = true :=
    (busyBitAt_after_frames hdriver).trans (hbusy 0 (Nat.succ_pos n))
  have htrace : (pollTurn c .erasePolling u).trace.length = s.trace.length + 128 * 2 := by
    rw [pollTurn_trace_after_frames hdriver, List.length_append, frameEvents_length]
    rfl
  cases n with
  | zero =>
    obtain ⟨hseq, hresult, hbusyf, hresults⟩ := pollTurn_timeout_outcome hb
      ((limitHit_of_finite hlimit u).trans (decide_eq_true (by omega))) .erasePolling
    exact ⟨_, run_one hstep, hseq, hresult, hbusyf, by rw [hresults, hres], htrace⟩
  | succ m =>
    obtain ⟨-, hgoes, -⟩ := pollTurn_firstBusy hcnt hb .erasePolling
    obtain ⟨hseq, hpolls, hresults⟩ := hgoes _ hlimit (by omega)
    have hpolling : (pollTurn c .erasePolling u).polling c :=
      ⟨by rw [pollTurn_cfg, hu]; simpa using h.1, by rw [hseq]; simp⟩
    have hcoming : Target.busyFor c (pollTurn c .erasePolling u).toDriver 0 (m + 1) := fun j hj => by
      rw [busyBitAt_pollTurn, hdriver, ← State.afterFrames_driver, busyBitAt_afterFrames]
      exact hbusy (0 + j + 1) (by omega)
    obtain ⟨t, hrun, hend, hresult, hbusyf, hendres, httrace⟩ :=
      run_timeout m hpolling (by rw [hlimit, hpolls, Nat.add_comm 1 m]) hcoming
    refine ⟨t, (run_next hstep).trans hrun, hend, hresult, hbusyf, ?_, ?_⟩
    · rw [hendres, hresults, hres]
    · rw [httrace, htrace]; omega

end Sys2Proof.Machine
end
